-- ==== Sys2Proof/Word.lean ====
section
/-! DEFINITION. Words, fields and text.

A WORD (a RAM word, a register, an instruction) is the unsigned value of `WORD_BITS` bits, and a FIELD of an instruction
word the unsigned value of `OP_SHIFT` bits: R7 makes every word, register, address and field an unsigned value. Both
widths are configuration (spec R4, R22), so the width is not in the type and both are natural numbers: every operation
that could leave the range reduces modulo `2^WORD_BITS`, and that every word of a state is below it is part of the
machine's invariant (`State.wordsOk`; log 2). -/

namespace Sys2Proof

/-- A line of text, as the assembler and the program file use it (R61, R71). -/
abbrev Text := List Char

/-- The triple `(op, arg0, arg1)` that `Decode` gives (R53) and the latch `ir` holds (R21). -/
structure Fields where
  op : Nat
  arg0 : Nat
  arg1 : Nat
  deriving DecidableEq, Repr

end Sys2Proof
end

