-- ==== Sys2Proof/Config.lean ====
section
/-! DEFINITION. What an implementation fixes, the parameters of R4: the two builds, the size of the RAM, the widths,
the opcode codes; and the names the opcode table is made of. The machine has no open value, so there is no free
value here (log 4). The reference values and the constraints stand in Decode.lean. -/

namespace Sys2Proof

/-- The mnemonics of the opcode table (R56). -/
inductive Mnemonic where
  | hlt | ldc | ldr | cpy | str | add | sub | beq | bne | prr | prm | brk
  deriving DecidableEq, Repr

/-- The four operand format tags (R51). -/
inductive Format where
  /-- `none`: no operand. -/
  | noOperand
  /-- `reg`: one register, in arg0. -/
  | reg
  /-- `reg-reg`: two registers, in arg0 and arg1. -/
  | regReg
  /-- `reg-value`: a register in arg0, a value in arg1. -/
  | regValue
  deriving DecidableEq, Repr

/-- The two builds (spec R4, `DEBUG_BUILD`; R141). -/
inductive Build where
  /-- `DEBUG_BUILD = false`: runs to completion. -/
  | plain
  /-- `DEBUG_BUILD = true`: breakpoints, commands, single step. -/
  | debugger
  deriving DecidableEq, Repr

/-- `OPCODE`, the numeric code of each mnemonic, and `BRK_CODE`, the sentinel's (R4, R56, R130). -/
structure Opcodes where
  hlt : Nat
  ldc : Nat
  ldr : Nat
  cpy : Nat
  str : Nat
  add : Nat
  sub : Nat
  beq : Nat
  bne : Nat
  prr : Nat
  prm : Nat
  /-- `BRK_CODE`. -/
  brk : Nat
  deriving DecidableEq, Repr

/-- The parameters of R4 (log 1). `NUM_REG` is the length of the register file. -/
structure Config where
  build : Build
  /-- `RAM_LEN`, the number of words of RAM. -/
  ramLen : Nat
  /-- `OP_SHIFT`, the width in bits of each instruction field. -/
  opShift : Nat
  /-- `WORD_BITS`, the width of a RAM word and of a register. -/
  wordBits : Nat
  /-- `HEX_WIDTH`, hex digits of one word in the program file. -/
  hexWidth : Nat
  /-- `OPCODE` and `BRK_CODE`. -/
  codes : Opcodes
  deriving DecidableEq, Repr

/-- `INSTR_BITS = NUM_FIELDS * OP_SHIFT`, `NUM_FIELDS` being 3 (R4). -/
def Config.instrBits (c : Config) : Nat := 3 * c.opShift

end Sys2Proof
end

