-- ==== Sys2Proof/Syntax.lean ====
section
/-! DEFINITION. The instructions: one constructor per row of spec/opcode_table.json (R56). -/

namespace Sys2Proof

/-- An instruction with the fields its format uses (R51, R54). A register operand is the field as
it stands, 0 to `2^OP_SHIFT - 1`: an index at or above `NUM_REG` is an encodable instruction that faults when executed
(R84). Fields a format does not use are not part of the instruction (R57). -/
inductive Instr where
  /-- `hlt`: halt (R83). -/
  | hlt
  /-- `ldc Rd v`: load constant (R90). -/
  | ldc (d v : Nat)
  /-- `ldr Rd Rs`: load `Rd` from the address in `Rs` (R91). -/
  | ldr (d s : Nat)
  /-- `cpy Rd Rs`: copy `Rs` into `Rd` (R92). -/
  | cpy (d s : Nat)
  /-- `str Rv Rs`: store `Rv` at the address in `Rs` (R93). -/
  | str (v s : Nat)
  /-- `add Rd Rs` (R100). -/
  | add (d s : Nat)
  /-- `sub Rd Rs` (R101). -/
  | sub (d s : Nat)
  /-- `beq Rt target`: branch if `Rt` is zero (R110). -/
  | beq (t target : Nat)
  /-- `bne Rt target`: branch if `Rt` is not zero (R111). -/
  | bne (t target : Nat)
  /-- `prr Rs`: print register (R120). -/
  | prr (s : Nat)
  /-- `prm Rs`: print the word at the address in `Rs` (R121). -/
  | prm (s : Nat)
  /-- `brk`: the breakpoint sentinel (R130). -/
  | brk
  deriving DecidableEq, Repr

end Sys2Proof
end

