-- ==== Sys2Proof/WellFormed.lean ====
section
/-! DEFINITION. What the assembler accepts as an instruction: every register operand names a register, and every
operand fits its field. -/

namespace Sys2Proof

/-- A register operand names a register: `index < NUM_REG` (spec R67, R84). -/
def regOk (numReg : Nat) (i : Nat) : Bool := decide (i < numReg)

/-- An operand fits an instruction field of `OP_SHIFT` bits (R52, R67). -/
def fieldOk (c : Config) (v : Nat) : Bool := decide (v < 2 ^ c.opShift)

/-- Each field the instruction's format uses as a register is an index below `NUM_REG` (R11, R84). Words of other
instructions still decode, and executing one faults (R84). -/
def Instr.regsOk (numReg : Nat) : Instr → Bool
  | .hlt => true
  | .ldc d _ => regOk numReg d
  | .ldr d s => regOk numReg d && regOk numReg s
  | .cpy d s => regOk numReg d && regOk numReg s
  | .str v s => regOk numReg v && regOk numReg s
  | .add d s => regOk numReg d && regOk numReg s
  | .sub d s => regOk numReg d && regOk numReg s
  | .beq t _ => regOk numReg t
  | .bne t _ => regOk numReg t
  | .prr s => regOk numReg s
  | .prm s => regOk numReg s
  | .brk => true

/-- Each operand fits its field, so that the instruction has an encoding (R52). -/
def Instr.fits (c : Config) : Instr → Bool
  | .hlt => true
  | .ldc d v => fieldOk c d && fieldOk c v
  | .ldr d s => fieldOk c d && fieldOk c s
  | .cpy d s => fieldOk c d && fieldOk c s
  | .str v s => fieldOk c v && fieldOk c s
  | .add d s => fieldOk c d && fieldOk c s
  | .sub d s => fieldOk c d && fieldOk c s
  | .beq t target => fieldOk c t && fieldOk c target
  | .bne t target => fieldOk c t && fieldOk c target
  | .prr s => fieldOk c s
  | .prm s => fieldOk c s
  | .brk => true

/-- The instruction is one the assembler can produce for a machine of `numReg` registers (R66, R67). -/
def Instr.wf (c : Config) (numReg : Nat) (i : Instr) : Bool := i.regsOk numReg && i.fits c

end Sys2Proof
end

