-- ==== Sys2Proof/Decode.lean ====
section
/-! DEFINITION. The opcode table and the reference configuration, the decoder (total, rejecting by name), and after
it the encoder. -/

namespace Sys2Proof

/-- The rows of the opcode table, in its order (spec R56). -/
def allMnemonics : List Mnemonic :=
  [.hlt, .ldc, .ldr, .cpy, .str, .add, .sub, .beq, .bne, .prr, .prm, .brk]

/-- The codes of the reference instance of the opcode table (R56, D1). -/
def referenceCodes : Opcodes :=
  { hlt := 1, ldc := 2, ldr := 3, cpy := 4, str := 5, add := 6, sub := 7, beq := 8, bne := 9, prr := 10, prm := 11,
    brk := 15 }

/-- The reference configuration of R4, in the plain build (log 5). -/
def Config.reference : Config :=
  { build := .plain, ramLen := 256, opShift := 8, wordBits := 24, hexWidth := 6, codes := referenceCodes }

/-- The reference value of `NUM_REG` (R4). -/
def Config.referenceNumReg : Nat := 4

/-- The numeric code of each mnemonic: `OPCODE`, with `BRK_CODE` for the sentinel (R4, R56). -/
def opcode (c : Config) : Mnemonic → Nat
  | .hlt => c.codes.hlt
  | .ldc => c.codes.ldc
  | .ldr => c.codes.ldr
  | .cpy => c.codes.cpy
  | .str => c.codes.str
  | .add => c.codes.add
  | .sub => c.codes.sub
  | .beq => c.codes.beq
  | .bne => c.codes.bne
  | .prr => c.codes.prr
  | .prm => c.codes.prm
  | .brk => c.codes.brk

/-- Every code is in `1 .. 2^OP_SHIFT - 1` and the codes are pairwise different (R4). -/
def Config.codesOk (c : Config) : Bool :=
  (allMnemonics.all fun m => decide (1 ≤ opcode c m) && decide (opcode c m < 2 ^ c.opShift)) &&
    decide (allMnemonics.map (opcode c)).Nodup

/-- The constraints a configuration must meet (R4), but for the one on `NUM_REG`, which is in `State.paramsOk`. -/
def Config.wf (c : Config) : Bool :=
  decide (1 ≤ c.opShift) && decide (c.instrBits ≤ c.wordBits) && decide (1 ≤ c.ramLen) &&
    decide (c.ramLen ≤ 2 ^ c.wordBits) && c.codesOk

/-- The operand format of each mnemonic (R56). -/
def formatOf : Mnemonic → Format
  | .hlt => .noOperand
  | .ldc => .regValue
  | .ldr => .regReg
  | .cpy => .regReg
  | .str => .regReg
  | .add => .regReg
  | .sub => .regReg
  | .beq => .regValue
  | .bne => .regValue
  | .prr => .reg
  | .prm => .reg
  | .brk => .noOperand

/-- The inverse table: from a code to its mnemonic, none for a code of no row (R60). -/
def mnemonicOf (c : Config) (code : Nat) : Option Mnemonic := allMnemonics.find? fun m => opcode c m == code

/-- `Decode(w)`: three times the low `OP_SHIFT` bits, shifting right (R51, R53). Total; bits at and above
`INSTR_BITS` are ignored. -/
def decodeFields (c : Config) (w : Nat) : Fields :=
  { op := w % 2 ^ c.opShift
    arg0 := w / 2 ^ c.opShift % 2 ^ c.opShift
    arg1 := w / 2 ^ c.opShift / 2 ^ c.opShift % 2 ^ c.opShift }

/-- The instruction a triple selects: dispatch is on the opcode alone, and only the fields the format uses
are read (R57, R81). None where the opcode is of no row (R58). -/
def instrOf (c : Config) (f : Fields) : Option Instr :=
  match mnemonicOf c f.op with
  | none => none
  | some .hlt => some .hlt
  | some .ldc => some (.ldc f.arg0 f.arg1)
  | some .ldr => some (.ldr f.arg0 f.arg1)
  | some .cpy => some (.cpy f.arg0 f.arg1)
  | some .str => some (.str f.arg0 f.arg1)
  | some .add => some (.add f.arg0 f.arg1)
  | some .sub => some (.sub f.arg0 f.arg1)
  | some .beq => some (.beq f.arg0 f.arg1)
  | some .bne => some (.bne f.arg0 f.arg1)
  | some .prr => some (.prr f.arg0)
  | some .prm => some (.prm f.arg0)
  | some .brk => some .brk

/-- Why a word is no instruction: its opcode field is of no row of the table (R58). -/
inductive DecodeError where
  /-- The opcode field, the only thing that can be wrong with a word. -/
  | unknownOpcode (op : Nat)
  deriving DecidableEq, Repr

/-- The decoder on a whole word: an instruction, or the rejection by name (R53, R58). -/
def decode (c : Config) (w : Nat) : Except DecodeError Instr :=
  match instrOf c (decodeFields c w) with
  | some i => .ok i
  | none => .error (.unknownOpcode (decodeFields c w).op)

/-- `Encode(op, arg0, arg1) = arg1 * 2^(2*OP_SHIFT) + arg0 * 2^OP_SHIFT + op`, for fields that fit (R52). -/
def encodeFields (c : Config) (f : Fields) : Nat :=
  f.arg1 * 2 ^ (2 * c.opShift) + f.arg0 * 2 ^ c.opShift + f.op

/-- The mnemonic of an instruction (R56). -/
def Instr.mnemonic : Instr → Mnemonic
  | .hlt => .hlt
  | .ldc _ _ => .ldc
  | .ldr _ _ => .ldr
  | .cpy _ _ => .cpy
  | .str _ _ => .str
  | .add _ _ => .add
  | .sub _ _ => .sub
  | .beq _ _ => .beq
  | .bne _ _ => .bne
  | .prr _ => .prr
  | .prm _ => .prm
  | .brk => .brk

/-- The triple of an instruction: the first operand in arg0, the second in arg1 (R54), an unused field 0
(R57). -/
def Instr.fields (c : Config) : Instr → Fields
  | .hlt => ⟨opcode c .hlt, 0, 0⟩
  | .ldc d v => ⟨opcode c .ldc, d, v⟩
  | .ldr d s => ⟨opcode c .ldr, d, s⟩
  | .cpy d s => ⟨opcode c .cpy, d, s⟩
  | .str v s => ⟨opcode c .str, v, s⟩
  | .add d s => ⟨opcode c .add, d, s⟩
  | .sub d s => ⟨opcode c .sub, d, s⟩
  | .beq t target => ⟨opcode c .beq, t, target⟩
  | .bne t target => ⟨opcode c .bne, t, target⟩
  | .prr s => ⟨opcode c .prr, s, 0⟩
  | .prm s => ⟨opcode c .prm, s, 0⟩
  | .brk => ⟨opcode c .brk, 0, 0⟩

/-- The word of an instruction (R52, R54, R57). -/
def encode (c : Config) (i : Instr) : Nat := encodeFields c (i.fields c)

/-- The instruction the decoder reads from the table's numbering of bits, in the reference configuration. Every
instruction is one word of 24 bits there (R50), so the bits are the word's own; bits at and above `nbits` are 0. -/
def decodeTableWord (nbits w : Nat) : Option Instr :=
  match decode Config.reference (w % 2 ^ nbits % 2 ^ 24) with
  | .ok i => some i
  | .error _ => none

end Sys2Proof
end

