-- ==== Sys2Proof/Machine/Assembler.lean ====
section
/-! DEFINITION. The assembler: from source lines to words (30_encoding.md section 4, spec R61 to R70). It is
software around the hardware, a pure function of its input and the opcode table; what the source leaves open in
its grammar is log 18. -/

namespace Sys2Proof.Machine

/-- The assembly-time errors (R69) and the two refusals the spec adds (R66, R67), naming the offending line,
label or operand. -/
inductive AsmError where
  | duplicateLabel (name : Text)
  | unknownOpcode (line : Text)
  | invalidRegister (token : Text)
  | unknownLabel (name : Text)
  | outOfMemory (name : Text)
  | malformedDirective (line : Text)
  | wrongOperandCount (line : Text)
  /-- A value operand that is neither a label reference nor a decimal integer (R67). -/
  | malformedValue (token : Text)
  /-- A value outside `0 .. 2^OP_SHIFT - 1` (R67). -/
  | valueOutOfRange (token : Text)
  /-- A label name that holds white space (U30; log 18). -/
  | malformedLabel (line : Text)
  deriving DecidableEq, Repr

/-- Label name to address, code and data labels alike (R64, R65). -/
abbrev LabelTable := List (Text × Nat)

/-- The text of a mnemonic, lower case (R56, R61). -/
def mnemonicText : Mnemonic → Text
  | .hlt => ['h', 'l', 't']
  | .ldc => ['l', 'd', 'c']
  | .ldr => ['l', 'd', 'r']
  | .cpy => ['c', 'p', 'y']
  | .str => ['s', 't', 'r']
  | .add => ['a', 'd', 'd']
  | .sub => ['s', 'u', 'b']
  | .beq => ['b', 'e', 'q']
  | .bne => ['b', 'n', 'e']
  | .prr => ['p', 'r', 'r']
  | .prm => ['p', 'r', 'm']
  | .brk => ['b', 'r', 'k']

/-- The exact lookup of a mnemonic (R61). -/
def parseMnemonic (t : Text) : Option Mnemonic := allMnemonics.find? fun m => mnemonicText m == t

/-- A number in decimal. -/
def decimal (n : Nat) : Text := Nat.toDigits 10 n

/-- A decimal integer: one or more digits, nothing else (R61, R67). -/
def parseDecimal (t : Text) : Option Nat :=
  if t.isEmpty || !t.all Char.isDigit then none
  else some (t.foldl (fun n c => 10 * n + (c.toNat - 48)) 0)

/-- Remove white space at both ends (R62). -/
def strip (t : Text) : Text :=
  ((t.dropWhile Char.isWhitespace).reverse.dropWhile Char.isWhitespace).reverse

/-- Step 1, clean: strip each line, drop blank lines and comment lines (R62). -/
def cleanLines (source : List Text) : List Text :=
  (source.map strip).filter fun l => !l.isEmpty && l.head? != some '#'

/-- The divider, a line containing exactly `.data` (R61). -/
def dataDivider : Text := ['.', 'd', 'a', 't', 'a']

/-- Step 2, split: the code lines, everything before the first divider (R63). -/
def codeLines (lines : List Text) : List Text := lines.takeWhile fun l => l != dataDivider

/-- Step 2, split: the data lines, everything after the first divider (R63). -/
def dataLines (lines : List Text) : List Text := (lines.dropWhile fun l => l != dataDivider).drop 1

/-- A line ending in `:` defines a label (R64). -/
def isLabelLine (l : Text) : Bool := l.getLast? == some ':'

/-- Step 3, find labels: each is bound to the number of non-label code lines seen so far (R64). Which names are
accepted is the model's choice, log 18: any text without white space, the empty one included. -/
def findLabels : List Text → Nat → LabelTable → Except AsmError LabelTable
  | [], _, labels => .ok labels
  | l :: rest, seen, labels =>
    if isLabelLine l then
      if l.any Char.isWhitespace then .error (.malformedLabel l)
      else if (labels.lookup l.dropLast).isSome then .error (.duplicateLabel l.dropLast)
      else findLabels rest seen ((l.dropLast, seen) :: labels)
    else findLabels rest (seen + 1) labels

/-- The operand tokens of a line, separated by spaces (R61); `word` holds the current token backwards. -/
def tokensFrom : Text → Text → List Text
  | word, [] => if word.isEmpty then [] else [word.reverse]
  | word, c :: rest =>
    if c = ' ' then
      if word.isEmpty then tokensFrom [] rest else word.reverse :: tokensFrom [] rest
    else tokensFrom (c :: word) rest

/-- The tokens of a line (R61). -/
def tokens (l : Text) : List Text := tokensFrom [] l

/-- A data directive `name: count` (R61, R65). What the spec leaves open here is the model's choice, log 18: the line
is exactly two tokens, and a name is any text without white space before the colon, the empty one included, so that
`: 3` binds the empty name. -/
def parseDirective (l : Text) : Option (Text × Nat) :=
  match tokens l with
  | [name, count] =>
    if isLabelLine name && !name.any Char.isWhitespace then (parseDecimal count).map fun n => (name.dropLast, n)
    else none
  | _ => none

/-- Step 4, add data allocations, upward from the base of data (R65). -/
def addData (ramLen : Nat) : List Text → Nat → LabelTable → Except AsmError LabelTable
  | [], _, labels => .ok labels
  | l :: rest, base, labels =>
    match parseDirective l with
    | none => .error (.malformedDirective l)
    | some (name, count) =>
      if (labels.lookup name).isSome then .error (.duplicateLabel name)
      else if ramLen < base + count then .error (.outOfMemory name)
      else addData ramLen rest (base + count) ((name, base) :: labels)

/-- `Reg(t)`: the prefix `R`, then a decimal index below `NUM_REG` (R67). -/
def resolveReg (numReg : Nat) (t : Text) : Except AsmError Nat :=
  match t with
  | 'R' :: digits =>
    match parseDecimal digits with
    | some n => if n < numReg then .ok n else .error (.invalidRegister t)
    | none => .error (.invalidRegister t)
  | _ => .error (.invalidRegister t)

/-- A value that fits a field (R67). -/
def fieldValue (c : Config) (t : Text) (n : Nat) : Except AsmError Nat :=
  if n < 2 ^ c.opShift then .ok n else .error (.valueOutOfRange t)

/-- `Val(t)`: a label reference `@name` through the table, else a decimal literal (R67). -/
def resolveValue (c : Config) (labels : LabelTable) (t : Text) : Except AsmError Nat :=
  match t with
  | '@' :: name =>
    match labels.lookup name with
    | some n => fieldValue c t n
    | none => .error (.unknownLabel name)
  | _ =>
    match parseDecimal t with
    | some n => fieldValue c t n
    | none => .error (.malformedValue t)

/-- The fields of an instruction from its operand tokens, by its format (R66). -/
def resolveOperands (c : Config) (numReg : Nat) (labels : LabelTable) (line : Text) (m : Mnemonic)
    (operands : List Text) : Except AsmError Fields :=
  match formatOf m, operands with
  | .noOperand, [] => .ok ⟨opcode c m, 0, 0⟩
  | .reg, [a] =>
    match resolveReg numReg a with
    | .ok r => .ok ⟨opcode c m, r, 0⟩
    | .error e => .error e
  | .regReg, [a, b] =>
    match resolveReg numReg a with
    | .ok r =>
      match resolveReg numReg b with
      | .ok q => .ok ⟨opcode c m, r, q⟩
      | .error e => .error e
    | .error e => .error e
  | .regValue, [a, b] =>
    match resolveReg numReg a with
    | .ok r =>
      match resolveValue c labels b with
      | .ok v => .ok ⟨opcode c m, r, v⟩
      | .error e => .error e
    | .error e => .error e
  | _, _ => .error (.wrongOperandCount line)

/-- Step 5 on one line: mnemonic, operands, packing (R66). -/
def compileLine (c : Config) (numReg : Nat) (labels : LabelTable) (line : Text) : Except AsmError Nat :=
  match tokens line with
  | [] => .error (.unknownOpcode line)
  | word :: operands =>
    match parseMnemonic word with
    | none => .error (.unknownOpcode line)
    | some m =>
      match resolveOperands c numReg labels line m operands with
      | .ok f => .ok (encodeFields c f)
      | .error e => .error e

/-- Step 5, compile each non-label code line; the first error ends the run (R66, R69). -/
def compileAll (c : Config) (numReg : Nat) (labels : LabelTable) : List Text → Except AsmError (List Nat)
  | [] => .ok []
  | l :: rest =>
    match compileLine c numReg labels l with
    | .error e => .error e
    | .ok w =>
      match compileAll c numReg labels rest with
      | .error e => .error e
      | .ok ws => .ok (w :: ws)

/-- `assemble(lines)`: the words of the program, or the error before any output (R61 to R69). -/
def assemble (c : Config) (numReg : Nat) (source : List Text) : Except AsmError (List Nat) :=
  let lines := cleanLines source
  let code := codeLines lines
  let instrs := code.filter fun l => !isLabelLine l
  match findLabels code 0 [] with
  | .error e => .error e
  | .ok labels =>
    match addData c.ramLen (dataLines lines) instrs.length labels with
    | .error e => .error e
    | .ok labels => compileAll c numReg labels instrs

/-- A register operand as assembly text: `R` and the decimal index (R61). -/
def regText (i : Nat) : Text := 'R' :: decimal i

/-- An instruction as assembly text, its value operand a decimal literal (R61, R54). -/
def instrText (i : Instr) : Text :=
  match i with
  | .hlt => mnemonicText .hlt
  | .ldc d v => mnemonicText .ldc ++ ' ' :: regText d ++ ' ' :: decimal v
  | .ldr d s => mnemonicText .ldr ++ ' ' :: regText d ++ ' ' :: regText s
  | .cpy d s => mnemonicText .cpy ++ ' ' :: regText d ++ ' ' :: regText s
  | .str v s => mnemonicText .str ++ ' ' :: regText v ++ ' ' :: regText s
  | .add d s => mnemonicText .add ++ ' ' :: regText d ++ ' ' :: regText s
  | .sub d s => mnemonicText .sub ++ ' ' :: regText d ++ ' ' :: regText s
  | .beq t target => mnemonicText .beq ++ ' ' :: regText t ++ ' ' :: decimal target
  | .bne t target => mnemonicText .bne ++ ' ' :: regText t ++ ' ' :: decimal target
  | .prr s => mnemonicText .prr ++ ' ' :: regText s
  | .prm s => mnemonicText .prm ++ ' ' :: regText s
  | .brk => mnemonicText .brk

end Sys2Proof.Machine
end

