-- ==== Sys2Proof/Machine/State.lean ====
section
/-! DEFINITION. The state of the machine as plain data, the reasons a step stops, and the state after
reset. -/

namespace Sys2Proof.Machine

/-- One word of memory at an address. The cell is the whole word, the smallest addressable unit: the
machine has no byte (spec R30, R33; log 3). -/
abbrev Cell := Nat × Nat

/-- The RAM as a sparse list: addresses strictly rising, no entry 0, an unlisted address reads 0, which is
the spec's reset value (R15, R190; log 3). The operations are in Machine/Ops.lean. -/
abbrev Memory := List Cell

/-- The breakpoint table `breaks`: address to original word, addresses strictly rising (R18). A word 0 may
be an original word, so it is listed like any other. -/
abbrev BreakTable := List Cell

/-- `run_state` (R16). -/
inductive RunState where
  /-- Pause before each instruction and solicit a command. -/
  | stepping
  /-- Execute without pausing until halt or a breakpoint. -/
  | running
  /-- Terminal. -/
  | finished
  deriving DecidableEq, Repr

/-- The four run-time faults (R160). -/
inductive FaultKind where
  | ipOutOfBounds
  | invalidRegister
  | invalidAddress
  | unknownOpcode
  deriving DecidableEq, Repr

/-- What the fault latch records: the kind and one address, nothing else (R17, R160). -/
structure FaultRecord where
  kind : FaultKind
  addr : Nat
  deriving DecidableEq, Repr

/-- The commands of the debug host (R143). A breakpoint address may be any number (R135). -/
inductive Command where
  | disassemble
  | showMemory
  | step
  | run
  | setBreak (b : Nat)
  | clearBreak (b : Nat)
  | quit
  | empty
  | endOfInput
  | unknown (text : Text)
  deriving DecidableEq, Repr

/-- The structured responses to commands (R6, R142). -/
inductive Response where
  /-- An unrecognised command or a breakpoint address out of range (R172). -/
  | softError
  /-- The mnemonic, absent where the opcode is of no row, and both argument fields (R144). -/
  | disassembly (mnemonic : Option Mnemonic) (arg0 arg1 : Nat)
  /-- `ip`, the registers, and RAM up to the highest non-zero address (R146). -/
  | dump (ip : Nat) (regs : List Nat) (words : List Nat)
  deriving DecidableEq, Repr

/-- The machine's state. -/
structure State where
  /-- The parameters, which no step writes: the model's own field (R4, R22; log 1). -/
  cfg : Config
  /-- The general registers `x[0] .. x[NUM_REG-1]`; their number is the list's length (R10; log 1). -/
  regs : List Nat
  /-- The instruction pointer, the address of the next instruction to fetch (R12; log 12). -/
  ip : Nat
  /-- The one RAM, code and data alike (R15, R30). -/
  mem : Memory
  /-- `run_state` (R16). -/
  runState : RunState
  /-- The fault latch (R17). -/
  fault : Option FaultRecord
  /-- The breakpoint table (R18). -/
  breaks : BreakTable
  /-- The words printed, oldest first: the interface `OUT` (R20, R6). -/
  out : List Nat
  /-- The instruction latch, live exactly while the core is paused in the interactive loop (R21; log 15). -/
  ir : Option Fields
  /-- The commands of `DBG_CMD` not yet read, next one first (R6, R142; log 9). -/
  cmds : List Command
  /-- The responses given on `DBG_RSP`, oldest first (R6; log 9). -/
  rsp : List Response
  deriving DecidableEq, Repr

/-- Why no step is enabled. A run-time fault of R160 is NOT one of these when it is raised: raising it is a
next state whose latch is set (R161); these are the conditions in which the core does nothing (log 8). -/
inductive Fault where
  /-- The fault latch is set: no cycle is enabled (R17, R161). Raised by `step`. Safe. -/
  | latched (kind : FaultKind) (addr : Nat)
  /-- `run_state` is FINISHED: the run is over (R16, R201). Raised by `step`. Safe. -/
  | finished
  /-- The core is paused and no command is available: it waits (R142, U23). Raised by `step`. Safe. -/
  | awaitingCommand
  /-- The plain build in STEPPING, which no launch reaches: its cycle is enabled in RUNNING only (R16, R80;
  log 10). Raised by `step`. Safe. -/
  | plainStepping
  deriving DecidableEq, Repr

/-- Why an operation is refused. -/
inductive Refusal where
  /-- An instruction without a meaning yet. Raised by a refused arm of `exec`; there is none. Safe. -/
  | notModelled (mnemonic : String)
  /-- `ProgramTooLong`: the loader refuses a program longer than RAM (R191). Raised by `loadProgram`, never by
  `step`. Safe. -/
  | programTooLong (length : Nat)
  /-- A program word at or above `2^WORD_BITS`, which is no word of RAM (U29; log 23). Raised by `loadProgram`,
  never by `step`. Safe. -/
  | wordOutOfRange (word : Nat)
  deriving DecidableEq, Repr

/-- The outcome of a step or of an instruction. -/
abbrev Result := Host.Outcome State Fault Refusal

/-- `NUM_REG` (R4, R10). -/
abbrev State.numReg (s : State) : Nat := s.regs.length

/-- The machine right after reset: R190 for the empty program in the reference configuration, plain build
(log 5). -/
def State.reset : State :=
  { cfg := Config.reference
    regs := List.replicate Config.referenceNumReg 0
    ip := 0
    mem := []
    runState := .running
    fault := none
    breaks := []
    out := []
    ir := none
    cmds := []
    rsp := [] }

end Sys2Proof.Machine
end

