-- ==== Sys2Proof/Machine/Ops.lean ====
section
/-! DEFINITION. The named operations over memory, registers, the output and the fault latch; raising a
fault; entering and leaving a breakpoint pause. -/

namespace Sys2Proof.Machine

/-! ### Lists of cells: what RAM and the breakpoint table share -/

/-- The word listed at an address. -/
def lookupCell : List Cell → Nat → Option Nat
  | [], _ => none
  | (k, w) :: rest, a => if k = a then some w else lookupCell rest a

/-- List a word at an address, in its place in the rising order, over any word listed there. -/
def insertCell : List Cell → Nat → Nat → List Cell
  | [], a, v => [(a, v)]
  | (k, w) :: rest, a, v =>
    if a < k then (a, v) :: (k, w) :: rest
    else if a = k then (a, v) :: rest
    else (k, w) :: insertCell rest a v

/-- List nothing at an address. -/
def eraseCell (m : List Cell) (a : Nat) : List Cell := m.filter fun c => c.1 != a

/-- The addresses rise strictly. -/
def cellsRising (m : List Cell) : Bool := decide (m.Pairwise fun c d => c.1 < d.1)

/-- Every listed address is below `n`. -/
def cellsBelow (n : Nat) (m : List Cell) : Bool := m.all fun c => decide (c.1 < n)

/-! ### RAM -/

/-- The canonical form: addresses strictly rising and no entry 0. -/
def Memory.wf (m : Memory) : Bool := cellsRising m && m.all fun c => c.2 != 0

/-- `mem[a]`, the raw word (spec R8, R15); an unlisted address reads 0 (R15, R190; log 3). -/
def Memory.read (m : Memory) (a : Nat) : Nat := (lookupCell m a).getD 0

/-- `mem[a] <- v` (R8), keeping the canonical form: writing 0 removes the entry. -/
def Memory.write (m : Memory) (a : Nat) (v : Nat) : Memory :=
  if v = 0 then eraseCell m a else insertCell m a v

/-- The RAM that holds a program from address `a` up and 0 elsewhere (R190). -/
def memoryOf : Nat → List Nat → Memory
  | _, [] => []
  | a, w :: ws => if w = 0 then memoryOf (a + 1) ws else (a, w) :: memoryOf (a + 1) ws

/-! ### Registers, output, responses -/

/-- `x[i] <- v` (R8, R10): `i` is a checked index. -/
def setReg (i : Nat) (v : Nat) (s : State) : State := { s with regs := s.regs.set i v }

/-- `Emit(v)`: append a word to the output (R8, R20). -/
def emit (v : Nat) (s : State) : State := { s with out := s.out ++ [v] }

/-- Give the debug host a response (R142). -/
def respond (r : Response) (s : State) : State := { s with rsp := s.rsp ++ [r] }

/-! ### Taking a fault -/

/-- `raise F(v)`: set the latch; nothing else changes (R161). -/
def raise (k : FaultKind) (v : Nat) (s : State) : State := { s with fault := some ⟨k, v⟩ }

/-- `ip <- a + 1`, which every cycle does before the instruction's own effect (R13, R80; log 7). -/
def advance (s : State) : State := { s with ip := s.ip + 1 }

/-- A fault inside `Execute` of the instruction at `a = ip`: it records `a` and leaves `ip = a + 1`
(R81, R84, R163). -/
def executeFault (k : FaultKind) (s : State) : Result := .next (raise k s.ip (advance s))

/-- The numeric code of a fault kind, a label only (R160). -/
def FaultKind.code : FaultKind → Nat
  | .ipOutOfBounds => 1
  | .invalidRegister => 2
  | .invalidAddress => 3
  | .unknownOpcode => 4

/-! ### The breakpoint trap and its return -/

/-- Enter the interactive loop with a decoded instruction held in `ir` (R21, R140): `ip`, registers and RAM
stay as they are. -/
def pause (f : Fields) (s : State) : State := { s with ir := some f }

/-- Entry of the breakpoint trap: `run_state` becomes STEPPING (R140, R145 T2), then the pause, with the
original instruction held (R167). Nothing is saved. -/
def trap (f : Fields) (s : State) : State := pause f { s with runState := .stepping }

/-- Leave the interactive loop: `run_state` as the command says, `ir` no longer live (R21, R142). -/
def resume (r : RunState) (s : State) : State := { s with runState := r, ir := none }

/-! ### Memory accesses of an instruction -/

/-- `MemRead(a, addr, 1)`: the range check, then the word (R31). -/
def memRead (addr : Nat) (s : State) (k : Nat → Result) : Result :=
  if addr < s.cfg.ramLen then k (s.mem.read addr) else executeFault .invalidAddress s

/-- `MemWrite(a, addr, 1, v)`: the range check, then the store (R31). -/
def memWrite (addr v : Nat) (s : State) (k : State → Result) : Result :=
  if addr < s.cfg.ramLen then k { s with mem := s.mem.write addr v }
  else executeFault .invalidAddress s

end Sys2Proof.Machine
end

