-- ==== Sys2Proof/Machine/Breakpoint.lean ====
section
/-! DEFINITION. The breakpoint unit: the sentinel, set and clear, and what reaching a sentinel does
(45_breakpoint_debug.md sections 1 to 4). -/

namespace Sys2Proof.Machine

/-- `SENTINEL = Encode(BRK_CODE, 0, 0)`, the word set-breakpoint writes (spec R130). -/
def sentinel (c : Config) : Nat := encode c .brk

/-- The one presence test: the opcode field is `BRK_CODE` (R131). -/
def isSentinel (c : Config) (w : Nat) : Bool := (decodeFields c w).op == opcode c .brk

/-- `HasSentinel(b)` (R131). -/
def hasSentinel (s : State) (b : Nat) : Bool := isSentinel s.cfg (s.mem.read b)

/-- `SetBreakpoint(b)`, `b < RAM_LEN` (R132): save the word and patch, unless a sentinel is there. -/
def setBreakpoint (b : Nat) (s : State) : State :=
  if hasSentinel s b then s
  else { s with breaks := insertCell s.breaks b (s.mem.read b), mem := s.mem.write b (sentinel s.cfg) }

/-- `ClearBreakpoint(b)`, `b < RAM_LEN` (R133): restore the saved word and drop the entry, if a sentinel is
there and the table has an entry. -/
def clearBreakpoint (b : Nat) (s : State) : State :=
  if hasSentinel s b then
    match lookupCell s.breaks b with
    | some w => { s with breaks := eraseCell s.breaks b, mem := s.mem.write b w }
    | none => s
  else s

/-- What the core does when it reaches a word with opcode `BRK_CODE` at `a = ip` (R130; log 13). Plain build:
it goes to `Execute`, which has no arm for it, so `UnknownOpcode(a)` with `ip = a + 1` (R141, R163). Debugger
build: with a table entry the trap, holding the original instruction (R140, R167); without one
`UnknownOpcode(a)` before any pause, `ip` not advanced (R136, R163). -/
def execBrk (s : State) : Result :=
  match s.cfg.build with
  | .plain => executeFault .unknownOpcode s
  | .debugger =>
    match lookupCell s.breaks s.ip with
    | some w => .next (trap (decodeFields s.cfg w) s)
    | none => .next (raise .unknownOpcode s.ip s)

end Sys2Proof.Machine
end

