-- ==== Sys2Proof/Machine/Debugger.lean ====
section
/-! DEFINITION. The responses of the debugger build: disassembly and the state dump, and the commands that
keep the core paused (45_breakpoint_debug.md sections 2 and 5). -/

namespace Sys2Proof.Machine

/-- The `Disassemble` response for the instruction held in `ir`: the inverse table's mnemonic and both
argument fields, whatever the format (spec R144, R60). -/
def disassembly (c : Config) (f : Fields) : Response := .disassembly (mnemonicOf c f.op) f.arg0 f.arg1

/-- A disassembly as text, `MNEMONIC | arg0 | arg1` with the arguments in decimal (R144). -/
def disassemblyText (m : Mnemonic) (arg0 arg1 : Nat) : Text :=
  mnemonicText m ++ [' ', '|', ' '] ++ decimal arg0 ++ [' ', '|', ' '] ++ decimal arg1

/-- RAM from address 0 to the highest non-zero address; empty where every word is 0 (R146). -/
def nonzeroPart (ramLen : Nat) (m : Memory) : List Nat :=
  (((List.range ramLen).map m.read).reverse.dropWhile fun w => w == 0).reverse

/-- `Dump()` (R146): RAM as it is, sentinels included. -/
def dump (s : State) : Response := .dump s.ip s.regs (nonzeroPart s.cfg.ramLen s.mem)

/-- `SetBreak(b)`: out of range a soft error, else set (R135, R142). -/
def commandSetBreak (b : Nat) (s : State) : State :=
  if b < s.cfg.ramLen then setBreakpoint b s else respond .softError s

/-- `ClearBreak(b)`: out of range a soft error, else clear (R135, R142). -/
def commandClearBreak (b : Nat) (s : State) : State :=
  if b < s.cfg.ramLen then clearBreakpoint b s else respond .softError s

end Sys2Proof.Machine
end

