-- ==== Sys2Proof/Machine/Operands.lean ====
section
/-! DEFINITION. The operand forms: a checked register index, the value of a register, a value, a
branch target. The register-indirect address is a register's whole value (41_data_movement.md). -/

namespace Sys2Proof.Machine

/-- `CheckReg(a, i)` before something that does not read the register (spec R84). -/
def checkReg (i : Nat) (s : State) (k : Result) : Result :=
  if i < s.numReg then k else executeFault .invalidRegister s

/-- `CheckReg(a, i)`, then the value `x[i]` (R84, R10). -/
def readReg (i : Nat) (s : State) (k : Nat → Result) : Result :=
  match s.regs[i]? with
  | some v => k v
  | none => executeFault .invalidRegister s

/-- The value operand of `ldc`: `zext_WORD_BITS(arg1)`, which leaves the unsigned value as it is (R7, R55). -/
def valueOperand (v : Nat) : Nat := v

/-- The branch target: `arg1` as an absolute word address, not scaled, not relative (R55, R112). -/
def targetOperand (v : Nat) : Nat := v

end Sys2Proof.Machine
end

