-- ==== Sys2Proof/Machine/Flags.lean ====
section
/-! DEFINITION. The machine has no flags (spec R14): what stands in their place is the test of a whole
register against zero, and the two sums that record no carry, borrow or overflow. -/

namespace Sys2Proof.Machine

/-- The condition of `beq`, and negated of `bne`: the whole register is zero (R110, R111). -/
def isZero (v : Nat) : Bool := decide (v = 0)

/-- `(p + q) mod 2^WORD_BITS`, computed exactly and then narrowed (R102). -/
def addWord (c : Config) (p q : Nat) : Nat := (p + q) % 2 ^ c.wordBits

/-- `(p - q) mod 2^WORD_BITS`, `mod` being the non-negative remainder (R102, R7). -/
def subWord (c : Config) (p q : Nat) : Nat := (((p : Int) - (q : Int)) % 2 ^ c.wordBits).toNat

end Sys2Proof.Machine
end

