-- ==== Sys2Proof/Machine/Arithmetic.lean ====
section
/-! DEFINITION. `add`, `sub` (42_arithmetic.md). Both operands are read before the write. -/

namespace Sys2Proof.Machine

/-- The shape `add` and `sub` share: `x[arg0] <- f x[arg0] x[arg1]`, arg0 checked first (spec R85, R100,
R101). -/
def accumulate (f : Nat → Nat → Nat) (d r : Nat) (s : State) : Result :=
  readReg d s fun p => readReg r s fun q => .next (setReg d (f p q) (advance s))

/-- `add Rd Rs` (R100). -/
def execAdd (d r : Nat) (s : State) : Result := accumulate (addWord s.cfg) d r s

/-- `sub Rd Rs` (R101). -/
def execSub (d r : Nat) (s : State) : Result := accumulate (subWord s.cfg) d r s

end Sys2Proof.Machine
end

