-- ==== Sys2Proof/Machine/Branches.lean ====
section
/-! DEFINITION. `beq`, `bne` (43_branches.md). The target is not checked (spec R112). -/

namespace Sys2Proof.Machine

/-- The shape the two branches share: on the tested register's value, `ip` is the target or `a + 1`
(R110, R111). The register is checked whether or not the branch is taken. -/
def branchOn (cond : Nat → Bool) (t target : Nat) (s : State) : Result :=
  readReg t s fun v =>
    .next (if cond v then { s with ip := targetOperand target } else advance s)

/-- `beq Rt target` (R110). -/
def execBeq (t target : Nat) (s : State) : Result := branchOn isZero t target s

/-- `bne Rt target` (R111). -/
def execBne (t target : Nat) (s : State) : Result := branchOn (fun v => !isZero v) t target s

end Sys2Proof.Machine
end

