-- ==== Sys2Proof/Machine/DataMovement.lean ====
section
/-! DEFINITION. `ldc`, `ldr`, `cpy`, `str` (41_data_movement.md). In every meaning the state's `ip` is the
address `a` of the instruction, and the next state's is `a + 1` (log 7). -/

namespace Sys2Proof.Machine

/-- `ldc Rd v` (spec R90): `x[arg0] <- zext(arg1)`. -/
def execLdc (d v : Nat) (s : State) : Result :=
  checkReg d s (.next (setReg d (valueOperand v) (advance s)))

/-- `ldr Rd Rs` (R91): `x[arg0] <- mem[x[arg1]]`. -/
def execLdr (d r : Nat) (s : State) : Result :=
  checkReg d s (readReg r s fun addr => memRead addr s fun v => .next (setReg d v (advance s)))

/-- `cpy Rd Rs` (R92): `x[arg0] <- x[arg1]`. -/
def execCpy (d r : Nat) (s : State) : Result :=
  checkReg d s (readReg r s fun v => .next (setReg d v (advance s)))

/-- `str Rv Rs` (R93): `mem[x[arg1]] <- x[arg0]`. -/
def execStr (v r : Nat) (s : State) : Result :=
  readReg v s fun val => readReg r s fun addr => memWrite addr val s fun t => .next (advance t)

end Sys2Proof.Machine
end

