-- ==== Sys2Proof/Machine/Halt.lean ====
section
/-! DEFINITION. `hlt` (40_cycle_and_halt.md). -/

namespace Sys2Proof.Machine

/-- `hlt` (spec R83): `run_state <- FINISHED`; `ip` keeps the value the cycle gave it. -/
def execHlt (s : State) : Result := .next { advance s with runState := .finished }

end Sys2Proof.Machine
end

