-- ==== Sys2Proof/Machine/Output.lean ====
section
/-! DEFINITION. `prr`, `prm` (44_output.md). -/

namespace Sys2Proof.Machine

/-- `prr Rs` (spec R120): `Emit(x[arg0])`. -/
def execPrr (r : Nat) (s : State) : Result := readReg r s fun v => .next (emit v (advance s))

/-- `prm Rs` (R121): `Emit(mem[x[arg0]])`. -/
def execPrm (r : Nat) (s : State) : Result :=
  readReg r s fun addr => memRead addr s fun v => .next (emit v (advance s))

end Sys2Proof.Machine
end

