-- ==== Sys2Proof/Machine/Dispatch.lean ====
section
/-! DEFINITION. One arm per instruction (spec R81). -/

namespace Sys2Proof.Machine

/-- The instruction at `a = ip`: the advance to `a + 1` and its own effect (R80, R81; log 7). -/
def exec (i : Instr) (s : State) : Host.Outcome State Fault Refusal :=
  match i with
  | .hlt => Sys2Proof.Machine.execHlt s
  | .ldc d v => Sys2Proof.Machine.execLdc d v s
  | .ldr d r => Sys2Proof.Machine.execLdr d r s
  | .cpy d r => Sys2Proof.Machine.execCpy d r s
  | .str v r => Sys2Proof.Machine.execStr v r s
  | .add d r => Sys2Proof.Machine.execAdd d r s
  | .sub d r => Sys2Proof.Machine.execSub d r s
  | .beq t target => Sys2Proof.Machine.execBeq t target s
  | .bne t target => Sys2Proof.Machine.execBne t target s
  | .prr r => Sys2Proof.Machine.execPrr r s
  | .prm r => Sys2Proof.Machine.execPrm r s
  | .brk => Sys2Proof.Machine.execBrk s

end Sys2Proof.Machine
end

