-- ==== Sys2Proof/Machine/RunLoop.lean ====
section
/-! DEFINITION. Fetch, `Execute`, the cycle of the plain build, and the run loop and interactive loop of the
debugger build, cut at the points where the core pauses or reads a command (log 6). -/

namespace Sys2Proof.Machine

/-- The word at `ip`, or `IpOutOfBounds(ip)` with `ip` unmoved (spec R32, R140, R163). -/
def fetch (s : State) (k : Nat → Result) : Result :=
  if s.ip < s.cfg.ramLen then k (s.mem.read s.ip) else .next (raise .ipOutOfBounds s.ip s)

/-- `Execute(a, op, arg0, arg1)` (R81): one of the eleven operations, else `UnknownOpcode(a)`. The sentinel has
no arm here (log 14). -/
def execute (f : Fields) (s : State) : Result :=
  match instrOf s.cfg f with
  | none => executeFault .unknownOpcode s
  | some .brk => executeFault .unknownOpcode s
  | some i => exec i s

/-- One instruction cycle of the plain build (R80). -/
def plainCycle (s : State) : Result := fetch s fun w => execute (decodeFields s.cfg w) s

/-- The top of an iteration of the debugger build's run loop (R140): a sentinel is recognised before anything
executes; otherwise STEPPING pauses with the decoded instruction, RUNNING executes it. -/
def iterationTop (s : State) : Result :=
  fetch s fun w =>
    if isSentinel s.cfg w then exec .brk s
    else if s.runState = .stepping then .next (pause (decodeFields s.cfg w) s)
    else execute (decodeFields s.cfg w) s

/-- One command of the interactive loop, `ir` being the instruction held (R142, R143, R147). The command has
been taken off `DBG_CMD`. -/
def command (c : Command) (f : Fields) (s : State) : Result :=
  match c with
  | .endOfInput => .next (resume .finished s)
  | .quit => .next (resume .finished s)
  | .empty => .next s
  | .unknown _ => .next (respond .softError s)
  | .disassemble => .next (respond (disassembly s.cfg f) s)
  | .showMemory => .next (respond (dump s) s)
  | .setBreak b => .next (commandSetBreak b s)
  | .clearBreak b => .next (commandClearBreak b s)
  | .step => execute f (resume .stepping s)
  | .run => execute f (resume .running s)

/-- The interactive loop reads its next command, or waits where none is available (R142, U23; log 11). -/
def interact (f : Fields) (s : State) : Result :=
  match s.cmds with
  | [] => .fault .awaitingCommand
  | c :: rest => command c f { s with cmds := rest }

/-- One step of the debugger build, `run_state` STEPPING or RUNNING (R140). -/
def debugStep (s : State) : Result :=
  match s.runState, s.ir with
  | .stepping, some f => interact f s
  | _, _ => iterationTop s

/-- One step of the machine: none is enabled with the latch set or in FINISHED (R16, R17); the plain build
runs in RUNNING only (R80). -/
def runStep (s : State) : Result :=
  match s.fault with
  | some r => .fault (.latched r.kind r.addr)
  | none =>
    match s.runState, s.cfg.build with
    | .finished, _ => .fault .finished
    | .stepping, .plain => .fault .plainStepping
    | .running, .plain => plainCycle s
    | _, .debugger => debugStep s

end Sys2Proof.Machine
end

