-- ==== Sys2Proof/Machine/Step.lean ====
section
/-! DEFINITION. The step, and placing a word where the next step fetches. -/

namespace Sys2Proof.Machine

/-- One step (spec R80, R140). -/
def step (s : State) : Host.Outcome State Fault Refusal := runStep s

/-- The state with the instruction word stored at the address the next step fetches, and able to fetch it:
no fault latched, RUNNING, not paused, `ip` in range, and no saved original that would stand in for the word
(log 19). -/
def State.withFetchWord (s : State) (nbits w : Nat) : State :=
  let a := if s.ip < s.cfg.ramLen then s.ip else 0
  { s with
    ip := a
    mem := s.mem.write a (w % 2 ^ nbits % 2 ^ s.cfg.wordBits)
    runState := .running
    fault := none
    ir := none
    breaks := eraseCell s.breaks a }

end Sys2Proof.Machine
end

