-- ==== Sys2Proof/Machine/ProgramFile.lean ====
section
/-! DEFINITION. The program file: one word a line, `HEX_WIDTH` lower-case hexadecimal digits (30_encoding.md section 5,
spec R68, R71). -/

namespace Sys2Proof.Machine

/-- A program-file line the loader refuses (R71). -/
inductive FileError where
  | malformedLine (line : Text)
  deriving DecidableEq, Repr

/-- The lower-case hexadecimal digits in order of value (R68). -/
def hexDigits : Text := ['0', '1', '2', '3', '4', '5', '6', '7', '8', '9', 'a', 'b', 'c', 'd', 'e', 'f']

/-- The digit of a value below 16. -/
def hexDigit (n : Nat) : Char := hexDigits.getD n '0'

/-- The value of a lower-case hexadecimal digit; none for any other character (R71). -/
def hexValue (c : Char) : Option Nat := hexDigits.findIdx? fun d => d == c

/-- A word as its line: `HEX_WIDTH` digits, most significant first (R68, R71). The digits of a word that needs more
are its lowest ones (log 23). -/
def hexLine (c : Config) (w : Nat) : Text :=
  (List.range c.hexWidth).reverse.map fun k => hexDigit (w / 16 ^ k % 16)

/-- The program file of a program, one line per word, address 0 first (R68). -/
def serialize (c : Config) (program : List Nat) : List Text := program.map (hexLine c)

/-- The number of a digit sequence read after the value `n`; none at a character that is no digit. -/
def hexNumber : Nat → Text → Option Nat
  | n, [] => some n
  | n, c :: rest =>
    match hexValue c with
    | some d => hexNumber (16 * n + d) rest
    | none => none

/-- The word of a line of exactly `HEX_WIDTH` lower-case hexadecimal digits (R71); a value at or above `2^WORD_BITS`
is no word (U29). -/
def parseHexLine (c : Config) (l : Text) : Option Nat :=
  if l.length = c.hexWidth then (hexNumber 0 l).filter fun n => decide (n < 2 ^ c.wordBits) else none

/-- The words of a program file; one malformed line and nothing is loaded (R71). -/
def parseProgram (c : Config) : List Text → Except FileError (List Nat)
  | [] => .ok []
  | l :: rest =>
    match parseHexLine c l with
    | none => .error (.malformedLine l)
    | some w =>
      match parseProgram c rest with
      | .ok ws => .ok (w :: ws)
      | .error e => .error e

end Sys2Proof.Machine
end

