-- ==== Sys2Proof/Machine/Loader.lean ====
section
/-! DEFINITION. The loader's reset, and the transactions of the other interfaces (spec R6, R190 to R192). -/

namespace Sys2Proof.Machine

/-- `run_state` after reset (R16, R190). -/
def initialRunState : Build → RunState
  | .plain => .running
  | .debugger => .stepping

/-- The launch state of a program, `NUM_REG` and the pending commands given (R190). -/
def launch (cfg : Config) (numReg : Nat) (program : List Nat) (cmds : List Command) : State :=
  { cfg := cfg
    regs := List.replicate numReg 0
    ip := 0
    mem := memoryOf 0 program
    runState := initialRunState cfg.build
    fault := none
    breaks := []
    out := []
    ir := none
    cmds := cmds
    rsp := [] }

/-- `initialize(program)`: everything is discarded but the parameters and the host's unread commands (R190,
R192; log 9); a program longer than RAM is refused and nothing is written (R191), and so is one with a number in it
that is no word (U29; log 23). -/
def loadProgram (program : List Nat) (s : State) : Result :=
  if program.length ≤ s.cfg.ramLen then
    match program.find? fun w => decide (2 ^ s.cfg.wordBits ≤ w) with
    | none => .next (launch s.cfg s.numReg program s.cmds)
    | some w => .refused (.wordOutOfRange w)
  else .refused (.programTooLong program.length)

/-- The loader on a program file: each line converted to its word and the sequence passed to `initialize`; one
malformed line and nothing is loaded (R71). -/
def loadFile (lines : List Text) (s : State) : Except FileError Result :=
  match parseProgram s.cfg lines with
  | .ok program => .ok (loadProgram program s)
  | .error e => .error e

/-- The debug host issues a command: it waits at the end of `DBG_CMD` until a pause reads it (R6, R142). -/
def sendCommand (c : Command) (s : State) : State := { s with cmds := s.cmds ++ [c] }

/-- `STATUS`: `run_state` and the fault latch (R6). -/
def status (s : State) : RunState × Option FaultRecord := (s.runState, s.fault)

end Sys2Proof.Machine
end

