-- ==== Sys2Proof/Safety.lean ====
section
/-! DEFINITION. What claims are stated in: the invariant of the machine, the breakpoint invariant, the ways a
launch ends. -/

namespace Sys2Proof.Machine

/-- The parameters meet the constraints of R4. -/
def State.paramsOk (s : State) : Prop := s.cfg.wf = true ∧ s.numReg ≤ 2 ^ s.cfg.opShift

/-- Every word in the state is below `2^WORD_BITS`: the registers, the listed words of RAM, the saved originals, the
words printed (R10, R15, R18, R20, R22; log 2). -/
def State.wordsOk (s : State) : Prop :=
  (∀ w ∈ s.regs, w < 2 ^ s.cfg.wordBits) ∧ (∀ c ∈ s.mem, c.2 < 2 ^ s.cfg.wordBits) ∧
    (∀ c ∈ s.breaks, c.2 < 2 ^ s.cfg.wordBits) ∧ ∀ w ∈ s.out, w < 2 ^ s.cfg.wordBits

/-- RAM is in canonical form and lists only addresses below `RAM_LEN` (spec R15; log 3). -/
def State.memOk (s : State) : Prop := s.mem.wf = true ∧ cellsBelow s.cfg.ramLen s.mem = true

/-- The breakpoint table is a map on addresses below `RAM_LEN`, and no original word has the sentinel's opcode
(R18, R134 (e)). -/
def State.breaksOk (s : State) : Prop :=
  cellsRising s.breaks = true ∧ cellsBelow s.cfg.ramLen s.breaks = true ∧
    ∀ b w, lookupCell s.breaks b = some w → isSentinel s.cfg w = false

/-- `ip` is at most `RAM_LEN`, or a branch target (R12, R112; log 12). -/
def State.ipOk (s : State) : Prop := s.ip ≤ max s.cfg.ramLen (2 ^ s.cfg.opShift - 1)

/-- The latch `ir` is live only in a pause: STEPPING in the debugger build, `ip` in range, no fault; and what it
holds is three fields, not the sentinel's (R21, R140, R142). -/
def State.irOk (s : State) : Prop :=
  ∀ f, s.ir = some f →
    s.cfg.build = .debugger ∧ s.runState = .stepping ∧ s.fault = none ∧ s.ip < s.cfg.ramLen ∧
      f.op < 2 ^ s.cfg.opShift ∧ f.arg0 < 2 ^ s.cfg.opShift ∧ f.arg1 < 2 ^ s.cfg.opShift ∧ f.op ≠ opcode s.cfg .brk

/-- The plain build has neither STEPPING nor a breakpoint (R16, R18, R141). -/
def State.plainOk (s : State) : Prop :=
  s.cfg.build = .plain → s.runState ≠ .stepping ∧ s.breaks = []

/-- Where `ip` stands after a fault (R163): at the recorded address after `IpOutOfBounds`, and after the
`UnknownOpcode` of a sentinel with no table entry in the debugger build (R136); one past it otherwise. -/
def State.faultOk (s : State) : Prop :=
  ∀ r, s.fault = some r →
    match r.kind with
    | .ipOutOfBounds => s.ip = r.addr ∧ s.cfg.ramLen ≤ r.addr
    | .invalidRegister => s.ip = r.addr + 1 ∧ r.addr < s.cfg.ramLen
    | .invalidAddress => s.ip = r.addr + 1 ∧ r.addr < s.cfg.ramLen
    | .unknownOpcode =>
      (s.ip = r.addr + 1 ∨ s.cfg.build = .debugger ∧ s.ip = r.addr) ∧ r.addr < s.cfg.ramLen

/-- A fault does not finish the run (R17, R161, R201). -/
def State.endOk (s : State) : Prop := s.fault ≠ none → s.runState ≠ .finished

/-- The invariant of every launch: what the spec says holds of the machine's state between steps. -/
structure State.Inv (s : State) : Prop where
  params : s.paramsOk
  words : s.wordsOk
  mem : s.memOk
  breaks : s.breaksOk
  ip : s.ipOk
  ir : s.irOk
  plain : s.plainOk
  fault : s.faultOk
  ending : s.endOk

/-- The breakpoint invariant of R19: an address is in the table if and only if RAM holds a word with the
sentinel opcode there. Set and clear keep it (R134); the core does not enforce it (R19, R196). -/
def State.BreakInvariant (s : State) : Prop :=
  ∀ b, b < s.cfg.ramLen → ((lookupCell s.breaks b).isSome = true ↔ hasSentinel s b = true)

/-- The core is paused in the interactive loop with the instruction `f` held (R21, R142). -/
def State.pausedWith (s : State) (f : Fields) : Prop :=
  s.cfg.build = .debugger ∧ s.fault = none ∧ s.runState = .stepping ∧ s.ir = some f

/-- The debugger build is at the top of an iteration of its run loop (R140). -/
def State.atTop (s : State) : Prop :=
  s.cfg.build = .debugger ∧ s.fault = none ∧ (s.runState = .running ∨ s.runState = .stepping ∧ s.ir = none)

/-- The plain build may take a cycle (R80). -/
def State.plainReady (s : State) : Prop :=
  s.cfg.build = .plain ∧ s.fault = none ∧ s.runState = .running

/-- The instruction of the word at `ip`, where there is a word there. -/
def State.instrAtIp (s : State) : Option Instr :=
  if s.ip < s.cfg.ramLen then instrOf s.cfg (decodeFields s.cfg (s.mem.read s.ip)) else none

/-- The instruction that the next step hands to `Execute`: at `ip` when running; while paused the one held in
`ir`, if the next command is `Step` or `Run` (R80, R140, R142). -/
def State.executing (s : State) : Option Instr :=
  match s.fault, s.runState, s.cfg.build with
  | none, .running, _ => s.instrAtIp
  | none, .stepping, .debugger =>
    match s.ir, s.cmds with
    | some f, .step :: _ => instrOf s.cfg f
    | some f, .run :: _ => instrOf s.cfg f
    | _, _ => none
  | _, _, _ => none

/-- The register an instruction writes: arg0 of `ldc`, `ldr`, `cpy`, `add`, `sub`, none of the others (R11). -/
def destReg : Instr → Option Nat
  | .hlt => none
  | .ldc d _ => some d
  | .ldr d _ => some d
  | .cpy d _ => some d
  | .str _ _ => none
  | .add d _ => some d
  | .sub d _ => some d
  | .beq _ _ => none
  | .bne _ _ => none
  | .prr _ => none
  | .prm _ => none
  | .brk => none

/-- The register whose value an instruction uses as a data address (R31): arg1 of `ldr` and `str`, arg0 of
`prm`. -/
def addrReg : Instr → Option Nat
  | .hlt => none
  | .ldc _ _ => none
  | .ldr _ r => some r
  | .cpy _ _ => none
  | .str _ r => some r
  | .add _ _ => none
  | .sub _ _ => none
  | .beq _ _ => none
  | .bne _ _ => none
  | .prr _ => none
  | .prm r => some r
  | .brk => none

/-- The state after a fault raised inside `Execute` by the instruction at `ip`: it records that address and has
advanced, and nothing else (R161, R162, R163). -/
def faulted (k : FaultKind) (s : State) : State := { s with ip := s.ip + 1, fault := some ⟨k, s.ip⟩ }

/-- Apply a change to the state of an outcome, where there is one: used to compare two runs. -/
def mapNext (g : State → State) : Result → Result
  | .next s => .next (g s)
  | .fault r => .fault r
  | .refused r => .refused r

/-- The same state in the plain build. -/
def asPlain (s : State) : State := { s with cfg := { s.cfg with build := .plain } }

/-- The same state with another breakpoint table. -/
def withBreaks (b : BreakTable) (s : State) : State := { s with breaks := b }

/-- The same state with more words printed before. -/
def printedBefore (before : List Nat) (s : State) : State := { s with out := before ++ s.out }

/-- The launch has ended, finished or faulted (R201). -/
def State.ended (s : State) : Prop := s.fault ≠ none ∨ s.runState = .finished

/-- A safe run so far: no fault was raised (R160, R201). -/
def State.safe (s : State) : Prop := s.fault = none

end Sys2Proof.Machine
end

