-- ==== Sys2Proof/Certificates/Slice0/Obligations.lean ====
section
/-! DEFINITION. The statements for the provers, each with the rule of spec/ it formalises. -/

open Sys2Proof Sys2Proof.Machine

namespace Sys2Proof.Claims

/-- In every configuration the instruction's word is `Encode(code, arg0, arg1)` with the code of its row `m` (R52, R56);
in the reference configuration the code is `n` and a field 8 bits. -/
def wordIs (i : Instr) (m : Mnemonic) (n arg0 arg1 : Nat) : Prop :=
  (∀ c : Config, encode c i = arg1 * 2 ^ (2 * c.opShift) + arg0 * 2 ^ c.opShift + opcode c m) ∧
  encode Config.reference i = arg1 * 65536 + arg0 * 256 + n

/-- Every word whose low `OP_SHIFT` bits are the code of row `m` decodes to the instruction built from its next two
fields; in the reference configuration, bits 7..0, 15..8 and 23..16. -/
def readsAs (m : Mnemonic) (n : Nat) (build : Nat → Nat → Instr) : Prop :=
  (∀ (c : Config) (w : Nat), c.wf = true → w % 2 ^ c.opShift = opcode c m →
    decode c w = .ok (build (w / 2 ^ c.opShift % 2 ^ c.opShift) (w / 2 ^ (2 * c.opShift) % 2 ^ c.opShift))) ∧
  (∀ w : Nat, w % 256 = n → decode Config.reference w = .ok (build (w / 256 % 256) (w / 65536 % 256)))

/-- The assembler compiles the line to the instruction's word, wherever the registers named exist and the values
given fit a field. -/
def assembles (line : Text) (i : Instr) (regs values : List Nat) : Prop :=
  ∀ (c : Config) numReg labels, (∀ r ∈ regs, r < numReg) → (∀ v ∈ values, v < 2 ^ c.opShift) →
    compileLine c numReg labels line = .ok (encode c i)

/-- The same for a line whose value operand is the label reference `@name`. -/
def assemblesLabel (lineStart : Text) (i : Nat → Instr) (reg : Nat) : Prop :=
  ∀ (c : Config) numReg labels name (n : Nat), reg < numReg → ' ' ∉ name → labels.lookup name = some n →
    n < 2 ^ c.opShift → compileLine c numReg labels (lineStart ++ '@' :: name) = .ok (encode c (i n))

end Sys2Proof.Claims

open Sys2Proof.Claims

/-! ### Encoding -/

/-- In every configuration that meets the constraints of R4, decoding an encoded instruction gives it back, for every
instruction and every operand value the fields admit; in the reference configuration so does the decoder as the
opcode table numbers the bits. Rests on 30_encoding.md R52, R53, R54, R57. -/
def Obligations.DecodeOfEncodeIsIdentity : Prop :=
  (∀ (c : Config) (i : Instr), c.wf = true → i.fits c = true →
    encode c i < 2 ^ c.wordBits ∧ decode c (encode c i) = .ok i) ∧
  (∀ i : Instr, i.fits Config.reference = true → decodeTableWord 24 (encode Config.reference i) = some i)

/-- R72: decode inverts encode on every triple of fields, encode inverts decode on every instruction word, and
assembling a single instruction then decoding the resulting word reproduces it. -/
def Obligations.FieldAndAssemblyRoundTrips : Prop :=
  (∀ (c : Config) (f : Fields), f.op < 2 ^ c.opShift → f.arg0 < 2 ^ c.opShift → f.arg1 < 2 ^ c.opShift →
    decodeFields c (encodeFields c f) = f) ∧
  (∀ (c : Config) (w : Nat), w < 2 ^ (3 * c.opShift) → encodeFields c (decodeFields c w) = w) ∧
  (∀ (c : Config) numReg (i : Instr), c.wf = true → i.wf c numReg = true →
    ∃ w, assemble c numReg [instrText i] = .ok [w] ∧ decode c w = .ok i)

/-- R52 and R53: the packing formula, in the reference configuration with 65536 and 256; the three fields a word
decodes to, bits at and above `INSTR_BITS` ignored; and the assembler's refusal of a value that does not fit a
field. -/
def Obligations.PackingFormulaAndFields : Prop :=
  (∀ (c : Config) (f : Fields), encodeFields c f = f.arg1 * 2 ^ (2 * c.opShift) + f.arg0 * 2 ^ c.opShift + f.op) ∧
  (∀ f : Fields, encodeFields Config.reference f = f.arg1 * 65536 + f.arg0 * 256 + f.op) ∧
  (∀ f : Fields, f.op < 256 → f.arg0 < 256 → f.arg1 < 256 → encodeFields Config.reference f < 2 ^ 24) ∧
  (∀ (c : Config) (w : Nat), (decodeFields c w).op = w % 2 ^ c.opShift ∧
    (decodeFields c w).arg0 = w / 2 ^ c.opShift % 2 ^ c.opShift ∧
    (decodeFields c w).arg1 = w / 2 ^ (2 * c.opShift) % 2 ^ c.opShift ∧
    decodeFields c w = decodeFields c (w % 2 ^ (3 * c.opShift))) ∧
  (∀ w : Nat, (decodeFields Config.reference w).op = w % 256 ∧
    (decodeFields Config.reference w).arg0 = w / 256 % 256 ∧
    (decodeFields Config.reference w).arg1 = w / 65536 % 256) ∧
  (∀ (c : Config) labels t n, parseDecimal t = some n → 2 ^ c.opShift ≤ n →
    resolveValue c labels t = .error (.valueOutOfRange t)) ∧
  (∀ (c : Config) (labels : LabelTable) name n, labels.lookup name = some n → 2 ^ c.opShift ≤ n →
    resolveValue c labels ('@' :: name) = .error (.valueOutOfRange ('@' :: name)))

/-- R60, with the mnemonics, codes and formats of R56's table: the reference instance meets the constraints on a
configuration; in every configuration that does, codes are positive, fit a field and are unique, and
the inverse table is the opcode table read from code to mnemonic, undefined on every other value. -/
def Obligations.OpcodeTableAndInverse : Prop :=
  (allMnemonics.map fun m => (mnemonicText m, opcode Config.reference m, formatOf m)) =
    [(['h', 'l', 't'], 1, .noOperand), (['l', 'd', 'c'], 2, .regValue), (['l', 'd', 'r'], 3, .regReg),
      (['c', 'p', 'y'], 4, .regReg), (['s', 't', 'r'], 5, .regReg), (['a', 'd', 'd'], 6, .regReg),
      (['s', 'u', 'b'], 7, .regReg), (['b', 'e', 'q'], 8, .regValue), (['b', 'n', 'e'], 9, .regValue),
      (['p', 'r', 'r'], 10, .reg), (['p', 'r', 'm'], 11, .reg), (['b', 'r', 'k'], 15, .noOperand)] ∧
  Config.reference.wf = true ∧
  (∀ (c : Config) (m m' : Mnemonic), c.wf = true →
    1 ≤ opcode c m ∧ opcode c m < 2 ^ c.opShift ∧ (opcode c m = opcode c m' → m = m')) ∧
  (∀ (c : Config) (code : Nat) (m : Mnemonic), c.wf = true → (mnemonicOf c code = some m ↔ opcode c m = code)) ∧
  (∀ (c : Config) (code : Nat), mnemonicOf c code = none ↔ ∀ m, opcode c m ≠ code) ∧
  (∀ code : Nat, mnemonicOf Config.reference code = none ↔ code ∉ [1, 2, 3, 4, 5, 6, 7, 8, 9, 10, 11, 15])

/-- R57: the encoder and the assembler write 0 into the fields a format does not use, and two words that differ in such
fields only decode to the same instruction and execute identically. -/
def Obligations.UnusedFieldsAreIgnored : Prop :=
  (∀ (c : Config) (i : Instr), c.wf = true → i.fits c = true →
    (formatOf i.mnemonic = .noOperand → (decodeFields c (encode c i)).arg0 = 0) ∧
    (formatOf i.mnemonic = .noOperand ∨ formatOf i.mnemonic = .reg → (decodeFields c (encode c i)).arg1 = 0)) ∧
  (∀ (c : Config) numReg labels line (w : Nat), c.wf = true → numReg ≤ 2 ^ c.opShift →
    compileLine c numReg labels line = .ok w →
    ∃ m, mnemonicOf c (decodeFields c w).op = some m ∧ (formatOf m = .noOperand → (decodeFields c w).arg0 = 0) ∧
      (formatOf m = .noOperand ∨ formatOf m = .reg → (decodeFields c w).arg1 = 0)) ∧
  (∀ (c : Config) (w w' : Nat) (m : Mnemonic), mnemonicOf c (decodeFields c w).op = some m →
    (decodeFields c w').op = (decodeFields c w).op →
    formatOf m = .noOperand ∨ formatOf m = .reg ∧ (decodeFields c w').arg0 = (decodeFields c w).arg0 →
    decode c w' = decode c w ∧
      ∀ s : State, s.cfg = c → execute (decodeFields c w') s = execute (decodeFields c w) s)

/-- R81: `Execute` selects on the opcode alone one of the eleven operations, and any other value, the sentinel's
among them, raises `UnknownOpcode(a)`; the eleven codes of the reference configuration are 1 to 11. -/
def Obligations.ExecuteSelectsByOpcode : Prop :=
  (∀ (f : Fields) (s : State), s.cfg.wf = true →
    (∀ m, m ≠ .brk → f.op = opcode s.cfg m →
      ∃ i : Instr, (i.mnemonic = m ∧ instrOf s.cfg f = some i) ∧ execute f s = exec i s) ∧
    ((∀ m, m ≠ .brk → f.op ≠ opcode s.cfg m) → execute f s = .next (faulted .unknownOpcode s))) ∧
  (∀ code : Nat, (∃ m, m ≠ .brk ∧ code = opcode Config.reference m) ↔
    code ∈ [1, 2, 3, 4, 5, 6, 7, 8, 9, 10, 11])

/-- Words written out from the spec's encodings (R51, R56) decode to the instructions they stand for. -/
def Obligations.SpecWordsDecode : Prop :=
  ([0x000001, 0x123401, 0xFF0302, 0x010203, 0x030004, 0x000105, 0x000206, 0x010007, 0x020008, 0x030009, 0xFF000A,
      0x00000B, 0x12340F].map (decode Config.reference)) =
    [.ok .hlt, .ok .hlt, .ok (.ldc 3 255), .ok (.ldr 2 1), .ok (.cpy 0 3), .ok (.str 1 0), .ok (.add 2 0),
      .ok (.sub 0 1), .ok (.beq 0 2), .ok (.bne 0 3), .ok (.prr 0), .ok (.prm 0), .ok .brk] ∧
  decode Config.reference 0x000000 = .error (.unknownOpcode 0) ∧
  decode Config.reference 0x01020C = .error (.unknownOpcode 12)

/-! ### The cycle -/

/-- A step runs the decoded instruction. Rests on R80, R140, R142: in the plain build and in RUNNING the step is
`exec` of the instruction at `ip`; STEPPING first pauses with it, a sentinel excepted; a pause ended by `Step` or
`Run` is `exec` of the instruction held. `withFetchWord` places a word so that the next step runs it. -/
def Obligations.StepRunsDecodedInstruction : Prop :=
  (∀ (s : State) (i : Instr), s.cfg.wf = true → s.plainReady ∨ s.atTop ∧ s.runState = .running →
    s.ip < s.cfg.ramLen → decode s.cfg (s.mem.read s.ip) = .ok i → step s = exec i s) ∧
  (∀ (s : State) (i : Instr), s.cfg.wf = true → s.atTop → s.runState = .stepping → s.ip < s.cfg.ramLen →
    decode s.cfg (s.mem.read s.ip) = .ok i → i ≠ .brk →
    step s = .next { s with ir := some (decodeFields s.cfg (s.mem.read s.ip)) }) ∧
  (∀ s : State, s.cfg.wf = true → s.atTop → s.ip < s.cfg.ramLen →
    decode s.cfg (s.mem.read s.ip) = .ok .brk → step s = exec .brk s) ∧
  (∀ (s : State) (f : Fields) (i : Instr) rest, s.pausedWith f → instrOf s.cfg f = some i → i ≠ .brk →
    (s.cmds = .step :: rest → step s = exec i { s with cmds := rest, ir := none }) ∧
    (s.cmds = .run :: rest → step s = exec i { s with cmds := rest, ir := none, runState := .running })) ∧
  (∀ (s : State) (w : Nat) (i : Instr), s.cfg.wf = true → w < 2 ^ s.cfg.instrBits → decode s.cfg w = .ok i →
    step (s.withFetchWord s.cfg.instrBits w) = exec i (s.withFetchWord s.cfg.instrBits w))

/-- R32: a fetch at `ip >= RAM_LEN` raises `IpOutOfBounds(ip)` with `ip` unmoved, in the plain build and at the top
of the debugger build's iteration; in range it delivers the word in RAM, whatever the breakpoint table holds; and
with `RAM_LEN = 256` and fields of 8 bits the only out-of-range value a machine's `ip` can take is 256. -/
def Obligations.FetchChecksInstructionPointer : Prop :=
  (∀ s k, s.ip < s.cfg.ramLen → fetch s k = k (s.mem.read s.ip)) ∧
  (∀ s : State, s.plainReady ∨ s.atTop → s.cfg.ramLen ≤ s.ip →
    step s = .next { s with fault := some ⟨.ipOutOfBounds, s.ip⟩ }) ∧
  (∀ s : State, s.Inv → s.cfg.ramLen = 256 → s.cfg.opShift = 8 → 256 ≤ s.ip → s.ip = 256)

/-! ### The instructions, each with its words, its assembly text, its result and frame, its faults -/

/-- R83: `hlt` finishes the run at `ip = a + 1` and changes nothing else; no step follows; held in a pause, which is
where the original under a breakpoint stands, it does the same when the run resumes. -/
def Obligations.HltFinishesTheRun : Prop :=
  wordIs .hlt .hlt 1 0 0 ∧ readsAs .hlt 1 (fun _ _ => .hlt) ∧ assembles ['h', 'l', 't'] .hlt [] [] ∧
  (∀ s : State, exec .hlt s = .next { s with ip := s.ip + 1, runState := .finished }) ∧
  (∀ s t u : State, exec .hlt s = .next t → step t ≠ .next u) ∧
  (∀ (s : State) (f : Fields) rest, s.cfg.wf = true → s.pausedWith f → f.op = opcode s.cfg .hlt →
    s.cmds = .step :: rest ∨ s.cmds = .run :: rest →
    step s = .next { s with cmds := rest, ir := none, ip := s.ip + 1, runState := .finished })

/-- R90: `ldc` writes the zero-extended value into its register. -/
def Obligations.LdcLoadsConstant : Prop :=
  (∀ d v, wordIs (.ldc d v) .ldc 2 d v) ∧ readsAs .ldc 2 .ldc ∧
  (∀ d v, assembles (['l', 'd', 'c', ' '] ++ regText d ++ [' '] ++ decimal v) (.ldc d v) [d] [v]) ∧
  (∀ d, assemblesLabel (['l', 'd', 'c', ' '] ++ regText d ++ [' ']) (.ldc d) d) ∧
  (∀ (s : State) (d v : Nat), d < s.numReg →
    exec (.ldc d v) s = .next { s with ip := s.ip + 1, regs := s.regs.set d v }) ∧
  (∀ (s : State) (d v : Nat), s.numReg ≤ d →
    exec (.ldc d v) s = .next (faulted .invalidRegister s))

/-- R91: `ldr` loads the word at the address in its second register. -/
def Obligations.LdrLoadsWord : Prop :=
  (∀ d r, wordIs (.ldr d r) .ldr 3 d r) ∧ readsAs .ldr 3 .ldr ∧
  (∀ d r, assembles (['l', 'd', 'r', ' '] ++ regText d ++ [' '] ++ regText r) (.ldr d r) [d, r] []) ∧
  (∀ (s : State) (d r : Nat) (addr : Nat), d < s.numReg → s.regs[r]? = some addr →
    (addr < s.cfg.ramLen → exec (.ldr d r) s =
      .next { s with ip := s.ip + 1, regs := s.regs.set d (s.mem.read addr) }) ∧
    (s.cfg.ramLen ≤ addr → exec (.ldr d r) s = .next (faulted .invalidAddress s))) ∧
  (∀ (s : State) (d r : Nat), s.numReg ≤ d ∨ s.numReg ≤ r →
    exec (.ldr d r) s = .next (faulted .invalidRegister s))

/-- R92: `cpy` copies a whole register. -/
def Obligations.CpyCopiesRegister : Prop :=
  (∀ d r, wordIs (.cpy d r) .cpy 4 d r) ∧ readsAs .cpy 4 .cpy ∧
  (∀ d r, assembles (['c', 'p', 'y', ' '] ++ regText d ++ [' '] ++ regText r) (.cpy d r) [d, r] []) ∧
  (∀ (s : State) (d r : Nat) (x : Nat), d < s.numReg → s.regs[r]? = some x →
    exec (.cpy d r) s = .next { s with ip := s.ip + 1, regs := s.regs.set d x }) ∧
  (∀ (s : State) (d r : Nat), s.numReg ≤ d ∨ s.numReg ≤ r →
    exec (.cpy d r) s = .next (faulted .invalidRegister s))

/-- R93: `str` stores its first register at the address in its second; every other address reads as before, and
the canonical form of RAM is kept. -/
def Obligations.StrStoresWord : Prop :=
  (∀ v r, wordIs (.str v r) .str 5 v r) ∧ readsAs .str 5 .str ∧
  (∀ v r, assembles (['s', 't', 'r', ' '] ++ regText v ++ [' '] ++ regText r) (.str v r) [v, r] []) ∧
  (∀ (s : State) (v r : Nat) (x addr : Nat), s.regs[v]? = some x → s.regs[r]? = some addr →
    (addr < s.cfg.ramLen → ∃ m : Memory, exec (.str v r) s = .next { s with ip := s.ip + 1, mem := m } ∧
      m.read addr = x ∧ (∀ b, b ≠ addr → m.read b = s.mem.read b) ∧
      (s.mem.wf = true → m.wf = true)) ∧
    (s.cfg.ramLen ≤ addr → exec (.str v r) s = .next (faulted .invalidAddress s))) ∧
  (∀ (s : State) (v r : Nat), s.numReg ≤ v ∨ s.numReg ≤ r →
    exec (.str v r) s = .next (faulted .invalidRegister s))

/-- R100: `add` writes the sum modulo `2^WORD_BITS` of its two registers into the first. -/
def Obligations.AddWritesWrappedSum : Prop :=
  (∀ d r, wordIs (.add d r) .add 6 d r) ∧ readsAs .add 6 .add ∧
  (∀ d r, assembles (['a', 'd', 'd', ' '] ++ regText d ++ [' '] ++ regText r) (.add d r) [d, r] []) ∧
  (∀ (s : State) (d r : Nat) (p q : Nat), s.regs[d]? = some p → s.regs[r]? = some q →
    exec (.add d r) s =
      .next { s with ip := s.ip + 1, regs := s.regs.set d ((p + q) % 2 ^ s.cfg.wordBits) }) ∧
  (∀ (s : State) (d r : Nat), s.numReg ≤ d ∨ s.numReg ≤ r →
    exec (.add d r) s = .next (faulted .invalidRegister s))

/-- R101: `sub` writes the difference modulo `2^WORD_BITS` of its two registers into the first. -/
def Obligations.SubWritesWrappedDifference : Prop :=
  (∀ d r, wordIs (.sub d r) .sub 7 d r) ∧ readsAs .sub 7 .sub ∧
  (∀ d r, assembles (['s', 'u', 'b', ' '] ++ regText d ++ [' '] ++ regText r) (.sub d r) [d, r] []) ∧
  (∀ (s : State) (d r : Nat) (p q : Nat), s.regs[d]? = some p → s.regs[r]? = some q →
    ∃ x : Nat, (x : Int) = ((p : Int) - q) % 2 ^ s.cfg.wordBits ∧
      exec (.sub d r) s = .next { s with ip := s.ip + 1, regs := s.regs.set d x }) ∧
  (∀ (s : State) (d r : Nat), s.numReg ≤ d ∨ s.numReg ≤ r →
    exec (.sub d r) s = .next (faulted .invalidRegister s))

/-- R110: `beq` goes to its absolute target when the whole register is zero, to `a + 1` otherwise. -/
def Obligations.BeqBranchesOnZero : Prop :=
  (∀ r v, wordIs (.beq r v) .beq 8 r v) ∧ readsAs .beq 8 .beq ∧
  (∀ r v, assembles (['b', 'e', 'q', ' '] ++ regText r ++ [' '] ++ decimal v) (.beq r v) [r] [v]) ∧
  (∀ r, assemblesLabel (['b', 'e', 'q', ' '] ++ regText r ++ [' ']) (.beq r) r) ∧
  (∀ (s : State) (r v : Nat) (x : Nat), s.regs[r]? = some x →
    exec (.beq r v) s = .next { s with ip := if x = 0 then v else s.ip + 1 }) ∧
  (∀ (s : State) (r v : Nat), s.numReg ≤ r →
    exec (.beq r v) s = .next (faulted .invalidRegister s))

/-- R111: `bne` goes to its absolute target when the register is not zero, to `a + 1` otherwise. -/
def Obligations.BneBranchesOnNonzero : Prop :=
  (∀ r v, wordIs (.bne r v) .bne 9 r v) ∧ readsAs .bne 9 .bne ∧
  (∀ r v, assembles (['b', 'n', 'e', ' '] ++ regText r ++ [' '] ++ decimal v) (.bne r v) [r] [v]) ∧
  (∀ r, assemblesLabel (['b', 'n', 'e', ' '] ++ regText r ++ [' ']) (.bne r) r) ∧
  (∀ (s : State) (r v : Nat) (x : Nat), s.regs[r]? = some x →
    exec (.bne r v) s = .next { s with ip := if x = 0 then s.ip + 1 else v }) ∧
  (∀ (s : State) (r v : Nat), s.numReg ≤ r →
    exec (.bne r v) s = .next (faulted .invalidRegister s))

/-- R120: `prr` appends its register's value to the output. -/
def Obligations.PrrEmitsRegister : Prop :=
  (∀ r, wordIs (.prr r) .prr 10 r 0) ∧ readsAs .prr 10 (fun r _ => .prr r) ∧
  (∀ r, assembles (['p', 'r', 'r', ' '] ++ regText r) (.prr r) [r] []) ∧
  (∀ (s : State) (r : Nat) (x : Nat), s.regs[r]? = some x →
    exec (.prr r) s = .next { s with ip := s.ip + 1, out := s.out ++ [x] }) ∧
  (∀ (s : State) (r : Nat), s.numReg ≤ r →
    exec (.prr r) s = .next (faulted .invalidRegister s))

/-- R121: `prm` appends the word at the address in its register to the output. -/
def Obligations.PrmEmitsWord : Prop :=
  (∀ r, wordIs (.prm r) .prm 11 r 0) ∧ readsAs .prm 11 (fun r _ => .prm r) ∧
  (∀ r, assembles (['p', 'r', 'm', ' '] ++ regText r) (.prm r) [r] []) ∧
  (∀ (s : State) (r : Nat) (addr : Nat), s.regs[r]? = some addr →
    (addr < s.cfg.ramLen →
      exec (.prm r) s = .next { s with ip := s.ip + 1, out := s.out ++ [s.mem.read addr] }) ∧
    (s.cfg.ramLen ≤ addr → exec (.prm r) s = .next (faulted .invalidAddress s))) ∧
  (∀ (s : State) (r : Nat), s.numReg ≤ r →
    exec (.prm r) s = .next (faulted .invalidRegister s))

/-- Reaching the sentinel. In the debugger build with a table entry it traps, holding the original
instruction; without one it raises `UnknownOpcode(a)` with `ip = a`; in the plain build, and whenever it reaches
`Execute`, it raises `UnknownOpcode(a)` with `ip = a + 1`. The sentinel word is `Encode(BRK_CODE, 0, 0)`, `0x00000F` in
the reference configuration. Rests on R130, R136, R140, R141, R145 (T2), R163, R167; that `exec .brk` is what the run
loop does at the sentinel is the model's reading, log 13. -/
def Obligations.BrkTrapsOrFaults : Prop :=
  wordIs .brk .brk 15 0 0 ∧ (∀ c, sentinel c = opcode c .brk) ∧ sentinel Config.reference = 0x00000F ∧
  readsAs .brk 15 (fun _ _ => .brk) ∧ assembles ['b', 'r', 'k'] .brk [] [] ∧
  (∀ s : State, s.cfg.build = .plain → exec .brk s = .next (faulted .unknownOpcode s)) ∧
  (∀ (s : State) (w : Nat), s.cfg.build = .debugger → lookupCell s.breaks s.ip = some w →
    exec .brk s = .next { s with runState := .stepping, ir := some (decodeFields s.cfg w) }) ∧
  (∀ s : State, s.cfg.build = .debugger → lookupCell s.breaks s.ip = none →
    exec .brk s = .next { s with fault := some ⟨.unknownOpcode, s.ip⟩ }) ∧
  (∀ (f : Fields) (s : State), s.cfg.wf = true → f.op = opcode s.cfg .brk →
    execute f s = .next (faulted .unknownOpcode s))

/-- R102: both sums wrap modulo `2^WORD_BITS` (16777216 in the reference configuration) without fault, the difference
of two words being `p - q` or `2^WORD_BITS + p - q`; and a program tests `p = q` by subtracting and branching on
zero. -/
def Obligations.ArithmeticWrapsAndTestsEquality : Prop :=
  (∀ (s : State) (d r p q : Nat), s.regs[d]? = some p → s.regs[r]? = some q → p < 2 ^ s.cfg.wordBits →
    q < 2 ^ s.cfg.wordBits →
    exec (.add d r) s =
      .next { s with ip := s.ip + 1, regs := s.regs.set d ((p + q) % 2 ^ s.cfg.wordBits) } ∧
    ∃ x : Nat, (x = if q ≤ p then p - q else 2 ^ s.cfg.wordBits + p - q) ∧ x < 2 ^ s.cfg.wordBits ∧
      exec (.sub d r) s = .next { s with ip := s.ip + 1, regs := s.regs.set d x } ∧
      ∀ target : Nat, exec (.beq d target) { s with ip := s.ip + 1, regs := s.regs.set d x } =
        .next { s with ip := if p = q then target else s.ip + 2, regs := s.regs.set d x }) ∧
  2 ^ Config.reference.wordBits = 16777216

/-! ### Checks and faults -/

/-- R84: the instruction raises `InvalidRegister(a)` exactly when a field its format uses as a register is not below
`NUM_REG`; no other field is checked. -/
def Obligations.RegisterIndexCheck : Prop :=
  ∀ (i : Instr) (s : State), i ≠ .brk → s.fault = none →
    (i.regsOk s.numReg = false ↔ exec i s = .next (faulted .invalidRegister s))

/-- R85: in one cycle the tests are made in the order `ip`, opcode, register, address; the first that fails raises
its fault and nothing is written; with all passed no fault is raised. -/
def Obligations.ChecksInOrder : Prop :=
  ∀ s : State, s.plainReady →
    (s.cfg.ramLen ≤ s.ip → step s = .next { s with fault := some ⟨.ipOutOfBounds, s.ip⟩ }) ∧
    (s.ip < s.cfg.ramLen →
      (s.instrAtIp = none ∨ s.instrAtIp = some .brk → step s = .next (faulted .unknownOpcode s)) ∧
      ∀ i, s.instrAtIp = some i → i ≠ .brk →
        (i.regsOk s.numReg = false → step s = .next (faulted .invalidRegister s)) ∧
        (i.regsOk s.numReg = true →
          (∀ r addr, addrReg i = some r → s.regs[r]? = some addr → s.cfg.ramLen ≤ addr →
            step s = .next (faulted .invalidAddress s)) ∧
          ((∀ r addr, addrReg i = some r → s.regs[r]? = some addr → addr < s.cfg.ramLen) →
            ∃ t, step s = .next t ∧ t.fault = none)))

/-- R162: a step that raises a fault has written no register, no RAM word and no output word. -/
def Obligations.FaultsArePrecise : Prop :=
  ∀ s t : State, step s = .next t → t.fault ≠ none →
    t.regs = s.regs ∧ t.mem = s.mem ∧ t.out = s.out ∧ t.breaks = s.breaks

/-- R163: the recorded address is the `ip` before the step; afterwards `ip` is that address after `IpOutOfBounds` and
after the `UnknownOpcode` of a sentinel without a table entry, and one past it after a fault inside `Execute`. -/
def Obligations.InstructionPointerAfterFault : Prop :=
  ∀ (s t : State) (r : FaultRecord), step s = .next t → t.fault = some r → r.addr = s.ip ∧
    (r.kind = .ipOutOfBounds → t.ip = r.addr) ∧
    (r.kind = .invalidRegister ∨ r.kind = .invalidAddress → t.ip = r.addr + 1) ∧
    (r.kind = .unknownOpcode →
      (s.atTop ∧ isSentinel s.cfg (s.mem.read s.ip) = true → t.ip = r.addr) ∧
      (¬(s.atTop ∧ isSentinel s.cfg (s.mem.read s.ip) = true) → t.ip = r.addr + 1))

/-- R17: the latch is written once and never cleared except by reset; with it set no step is enabled; a fault does
not make `run_state` FINISHED; after reset it is none. -/
def Obligations.FaultLatchIsFinal : Prop :=
  (∀ s t : State, step s = .next t → s.fault = none) ∧
  (∀ s t : State, step s = .next t → t.fault ≠ none → t.runState ≠ .finished) ∧
  (∀ (s t : State) (program : List Nat), loadProgram program s = .next t → t.fault = none) ∧
  State.reset.fault = none

/-- R201: a launch ends finished or faulted, never both, and then for good; it finishes by `hlt`, `ip` one past it, or
by `Quit` or `EndOfInput`, `ip` unmoved; a launch that has not ended takes a step, or is paused waiting for a
command. -/
def Obligations.LaunchEndsInOneOfTwoWays : Prop :=
  (∀ s t : State, s.ended → step s ≠ .next t) ∧
  (∀ s : State, s.Inv → ¬(s.fault ≠ none ∧ s.runState = .finished)) ∧
  (∀ s t : State, step s = .next t → t.runState = .finished → t.fault = none ∧
    (s.executing = some .hlt ∧ t.ip = s.ip + 1 ∨
      ∃ f rest, s.pausedWith f ∧ (s.cmds = .quit :: rest ∨ s.cmds = .endOfInput :: rest) ∧ t.ip = s.ip)) ∧
  (∀ s : State, s.Inv → ¬s.ended →
    (∃ t, step s = .next t) ∨ ∃ f, s.pausedWith f ∧ s.cmds = [] ∧ ∀ t, step s ≠ .next t)

/-- R31: a data access at or above `RAM_LEN` raises `InvalidAddress(a)` and changes nothing; below it a read gives
the whole word and a write replaces that word and no other. -/
def Obligations.DataAccessChecksRange : Prop :=
  ∀ (s : State) (addr v : Nat),
    (∀ k, (addr < s.cfg.ramLen → memRead addr s k = k (s.mem.read addr)) ∧
      (s.cfg.ramLen ≤ addr → memRead addr s k = .next (faulted .invalidAddress s))) ∧
    (∀ k, (addr < s.cfg.ramLen → ∃ m : Memory, memWrite addr v s k = k { s with mem := m } ∧
        m.read addr = v ∧ ∀ b, b ≠ addr → m.read b = s.mem.read b) ∧
      (s.cfg.ramLen ≤ addr → memWrite addr v s k = .next (faulted .invalidAddress s)))

/-! ### Rules of the whole machine -/

/-- A word stored at the next address is the word the next step executes. Rests on 20_memory.md R38, R40 and
41_data_movement.md R93. -/
def Obligations.StoreIsSeenByNextFetch : Prop :=
  ∀ (s : State) (v r : Nat) (x addr : Nat), s.plainReady → s.instrAtIp = some (.str v r) →
    s.regs[v]? = some x → s.regs[r]? = some addr → addr = s.ip + 1 → addr < s.cfg.ramLen →
    ∃ t, step s = .next t ∧ t.ip = addr ∧ t.mem.read t.ip = x ∧ step t = execute (decodeFields t.cfg x) t

/-- A RAM word changes only by a `str` to its address or by a breakpoint command on it, read in a pause. Rests on
10_state.md R15 (written by), 20_memory.md R30, R41. -/
def Obligations.RamChangesOnlyByStoreOrBreakpoint : Prop :=
  ∀ (s t : State) (b : Nat), step s = .next t → t.mem.read b ≠ s.mem.read b →
    (∃ v r addr, s.executing = some (.str v r) ∧ s.regs[r]? = some addr ∧ addr = b) ∨
    ∃ f rest, s.pausedWith f ∧ (s.cmds = .setBreak b :: rest ∨ s.cmds = .clearBreak b :: rest)

/-- A register changes only as the destination of the instruction executed. Rests on 10_state.md R11. -/
def Obligations.RegistersChangeOnlyAsDestination : Prop :=
  ∀ (s t : State) (k : Nat), step s = .next t → t.regs[k]? ≠ s.regs[k]? →
    ∃ i d, s.executing = some i ∧ destReg i = some d ∧ d = k

/-- R20: the output is append only: a step leaves it, or it executed `prr` or `prm` and appended one word; either of
them that does not fault appends one word; words already printed are neither removed nor read back, so a step does
the same with more of them before. Reset empties it. -/
def Obligations.OutputGrowsOnlyByPrinting : Prop :=
  (∀ s t : State, step s = .next t → t.out = s.out ∨
    ∃ r v, (s.executing = some (.prr r) ∨ s.executing = some (.prm r)) ∧ t.out = s.out ++ [v]) ∧
  (∀ (s t : State) (r : Nat), s.cfg.wf = true → s.executing = some (.prr r) ∨ s.executing = some (.prm r) →
    step s = .next t → t.fault = none → ∃ v, t.out = s.out ++ [v]) ∧
  (∀ (s : State) (before : List Nat), step (printedBefore before s) = mapNext (printedBefore before) (step s)) ∧
  (∀ (s t : State) program, loadProgram program s = .next t → t.out = []) ∧ State.reset.out = []

/-- No step writes a parameter: the build, `RAM_LEN`, `OP_SHIFT`, `WORD_BITS`, `HEX_WIDTH` and the opcode codes, which
are the field `cfg`, and `NUM_REG`, the length of the register file. Holding the parameters in the state is the
model's choice, log 1. Rests on 10_state.md R22. -/
def Obligations.ParametersNeverChange : Prop :=
  ∀ s t : State, step s = .next t → t.cfg = s.cfg ∧ t.numReg = s.numReg

/-- An instruction leaves `ip` at `a + 1`, or at the target of a branch whose condition holds; a pause does not
move it. Rests on 10_state.md R13. -/
def Obligations.InstructionPointerMoves : Prop :=
  (∀ (i : Instr) (s t : State), i ≠ .brk → exec i s = .next t → t.ip = s.ip + 1 ∨
    ∃ r target x, s.regs[r]? = some x ∧ t.ip = target ∧
      (i = .beq r target ∧ x = 0 ∨ i = .bne r target ∧ x ≠ 0)) ∧
  (∀ (s t : State) (f : Fields), step s = .next t → t.pausedWith f → t.ip = s.ip)

/-- Exactly one of `beq` and `bne` on the same register and target is taken, and the target is not checked: one at or
above `RAM_LEN` is written to `ip` and the next fetch raises `IpOutOfBounds` with it. Rests on 43_branches.md R111,
R112. -/
def Obligations.BranchesAreComplementaryAndUnchecked : Prop :=
  (∀ (s : State) (r v : Nat) (x : Nat), s.regs[r]? = some x →
    (exec (.beq r v) s = .next { s with ip := v } ∧ exec (.bne r v) s = .next { s with ip := s.ip + 1 }) ∨
    (exec (.bne r v) s = .next { s with ip := v } ∧ exec (.beq r v) s = .next { s with ip := s.ip + 1 })) ∧
  (∀ (s t : State) (r v : Nat), s.plainReady → s.ip < s.cfg.ramLen →
    s.instrAtIp = some (.beq r v) ∨ s.instrAtIp = some (.bne r v) → step s = .next t → t.fault = none →
    t.ip = v → s.cfg.ramLen ≤ v → step t = .next { t with fault := some ⟨.ipOutOfBounds, v⟩ })

/-- No instruction but the sentinel sees the breakpoint table: with another table it does the same. Rests on
20_memory.md R42. -/
def Obligations.InstructionsIgnoreBreakpointTable : Prop :=
  ∀ (i : Instr) (s : State) (b : BreakTable), i ≠ .brk →
    exec i (withBreaks b s) = mapNext (withBreaks b) (exec i s)

/-! ### The breakpoint unit -/

/-- R131: a sentinel is a word whose low `OP_SHIFT` bits (7..0 in the reference configuration) are `BRK_CODE`;
the run loop, set and clear all use this test. -/
def Obligations.OnePresenceTest : Prop :=
  (∀ (s : State) (b : Nat), hasSentinel s b = true ↔ s.mem.read b % 2 ^ s.cfg.opShift = opcode s.cfg .brk) ∧
  (∀ (s : State) (b : Nat), hasSentinel s b = true → setBreakpoint b s = s) ∧
  (∀ (s : State) (b : Nat), s.cfg.wf = true → hasSentinel s b = false →
    hasSentinel (setBreakpoint b s) b = true ∧ clearBreakpoint b s = s) ∧
  (∀ s : State, s.atTop → s.ip < s.cfg.ramLen →
    (hasSentinel s s.ip = true → step s = exec .brk s) ∧
    (hasSentinel s s.ip = false → s.runState = .stepping →
      step s = .next { s with ir := some (decodeFields s.cfg (s.mem.read s.ip)) }) ∧
    (hasSentinel s s.ip = false → s.runState = .running → step s = execute (decodeFields s.cfg (s.mem.read s.ip)) s))

/-- R132: the command `SetBreak(b)`, `b < RAM_LEN`, does nothing at a sentinel; elsewhere it saves the word and
writes `Encode(BRK_CODE, 0, 0)`, the bare code, `0x00000F` in the reference configuration. No other word, entry or
field changes. -/
def Obligations.SetBreakpointSavesAndPatches : Prop :=
  opcode Config.reference .brk = 0x00000F ∧
  ∀ (s : State) (f : Fields) (b : Nat) rest, s.pausedWith f → s.cmds = .setBreak b :: rest → b < s.cfg.ramLen →
    (hasSentinel s b = true → step s = .next { s with cmds := rest }) ∧
    (hasSentinel s b = false → ∃ (m : Memory) (tbl : BreakTable),
      step s = .next { s with cmds := rest, mem := m, breaks := tbl } ∧
      m.read b = opcode s.cfg .brk ∧ (∀ c, c ≠ b → m.read c = s.mem.read c) ∧
      lookupCell tbl b = some (s.mem.read b) ∧ ∀ c, c ≠ b → lookupCell tbl c = lookupCell s.breaks c)

/-- R133: the command `ClearBreak(b)`, `b < RAM_LEN`, restores the saved word and removes the entry when a sentinel
and an entry are there, and does nothing otherwise. -/
def Obligations.ClearBreakpointRestores : Prop :=
  ∀ (s : State) (f : Fields) (b : Nat) rest, s.pausedWith f → s.cmds = .clearBreak b :: rest → b < s.cfg.ramLen →
    (hasSentinel s b = false ∨ lookupCell s.breaks b = none → step s = .next { s with cmds := rest }) ∧
    (∀ w, hasSentinel s b = true → lookupCell s.breaks b = some w → ∃ (m : Memory) (tbl : BreakTable),
      step s = .next { s with cmds := rest, mem := m, breaks := tbl } ∧
      m.read b = w ∧ (∀ c, c ≠ b → m.read c = s.mem.read c) ∧
      lookupCell tbl b = none ∧ ∀ c, c ≠ b → lookupCell tbl c = lookupCell s.breaks c)

/-- R134: in every state of the machine in which the breakpoint invariant holds, set and clear keep it, are
idempotent, clear undoes set exactly, neither touches anything else, and no saved word has the sentinel's opcode. -/
def Obligations.SetAndClearLaws : Prop :=
  ∀ (s : State) (b : Nat), s.Inv → s.BreakInvariant → b < s.cfg.ramLen →
    (setBreakpoint b s).BreakInvariant ∧ (clearBreakpoint b s).BreakInvariant ∧
    setBreakpoint b (setBreakpoint b s) = setBreakpoint b s ∧
    clearBreakpoint b (clearBreakpoint b s) = clearBreakpoint b s ∧
    (lookupCell s.breaks b = none → clearBreakpoint b (setBreakpoint b s) = s) ∧
    (∀ t, t = setBreakpoint b s ∨ t = clearBreakpoint b s →
      t = { s with mem := t.mem, breaks := t.breaks } ∧ ∀ c, c ≠ b → t.mem.read c = s.mem.read c) ∧
    (∀ t, t = s ∨ t = setBreakpoint b s ∨ t = clearBreakpoint b s →
      ∀ c w, lookupCell t.breaks c = some w → w % 2 ^ s.cfg.opShift ≠ opcode s.cfg .brk)

/-- R135: a breakpoint command whose address is not below `RAM_LEN` changes nothing, is answered by a soft error,
and the pause goes on. -/
def Obligations.BreakpointAddressIsChecked : Prop :=
  ∀ (s : State) (f : Fields) (b : Nat) rest, s.pausedWith f → s.cfg.ramLen ≤ b →
    s.cmds = .setBreak b :: rest ∨ s.cmds = .clearBreak b :: rest →
    step s = .next { s with cmds := rest, rsp := s.rsp ++ [.softError] } ∧
    State.pausedWith { s with cmds := rest, rsp := s.rsp ++ [.softError] } f

/-- R136: the run loop at a sentinel with no table entry raises `UnknownOpcode(ip)` before any pause and with `ip`
unmoved. -/
def Obligations.SentinelWithoutEntryFaults : Prop :=
  ∀ s : State, s.atTop → s.ip < s.cfg.ramLen → hasSentinel s s.ip = true → lookupCell s.breaks s.ip = none →
    step s = .next { s with fault := some ⟨.unknownOpcode, s.ip⟩ }

/-- R137: at an address `b` with a stale entry the run loop executes the word in RAM, clear does nothing, set saves
the new word over the stale entry and patches again, and if a sentinel word is stored there the run loop takes the
stale entry as the original. -/
def Obligations.StaleEntryBehaviour : Prop :=
  ∀ (s : State) (b : Nat) (w : Nat), s.cfg.wf = true → lookupCell s.breaks b = some w → hasSentinel s b = false →
    (s.atTop → s.ip = b → b < s.cfg.ramLen → s.runState = .running →
      step s = execute (decodeFields s.cfg (s.mem.read b)) s) ∧
    clearBreakpoint b s = s ∧
    lookupCell (setBreakpoint b s).breaks b = some (s.mem.read b) ∧ hasSentinel (setBreakpoint b s) b = true ∧
    (∀ x : Nat, x % 2 ^ s.cfg.opShift = opcode s.cfg .brk → s.atTop → s.ip = b → b < s.cfg.ramLen →
      step { s with mem := s.mem.write b x } =
        .next { s with mem := s.mem.write b x, runState := .stepping, ir := some (decodeFields s.cfg w) })

/-! ### The run loop, the commands, the state machine -/

/-- R140: one iteration of the debugger build's run loop, case by case. -/
def Obligations.RunLoopIteration : Prop :=
  (∀ s : State, s.atTop →
    (s.cfg.ramLen ≤ s.ip → step s = .next { s with fault := some ⟨.ipOutOfBounds, s.ip⟩ }) ∧
    (s.ip < s.cfg.ramLen →
      ((decodeFields s.cfg (s.mem.read s.ip)).op = opcode s.cfg .brk →
        (lookupCell s.breaks s.ip = none → step s = .next { s with fault := some ⟨.unknownOpcode, s.ip⟩ }) ∧
        (∀ w, lookupCell s.breaks s.ip = some w →
          step s = .next { s with runState := .stepping, ir := some (decodeFields s.cfg w) })) ∧
      ((decodeFields s.cfg (s.mem.read s.ip)).op ≠ opcode s.cfg .brk →
        (s.runState = .stepping → step s = .next { s with ir := some (decodeFields s.cfg (s.mem.read s.ip)) }) ∧
        (s.runState = .running → step s = execute (decodeFields s.cfg (s.mem.read s.ip)) s)))) ∧
  (∀ (s : State) (f : Fields) rest, s.pausedWith f →
    (s.cmds = .step :: rest → step s = execute f { s with cmds := rest, ir := none }) ∧
    (s.cmds = .run :: rest → step s = execute f { s with cmds := rest, ir := none, runState := .running }) ∧
    (s.cmds = .quit :: rest ∨ s.cmds = .endOfInput :: rest →
      step s = .next { s with cmds := rest, ir := none, runState := .finished }))

/-- Away from a sentinel the debugger build in RUNNING takes the step of the plain build; and given `Run` at its
first prompt it takes the plain build's first step. Rests on 45_breakpoint_debug.md R140 (e), R141. -/
def Obligations.PlainBuildIsDebuggerRun : Prop :=
  (∀ s : State, s.atTop → s.runState = .running → (s.ip < s.cfg.ramLen → hasSentinel s s.ip = false) →
    step (asPlain s) = mapNext asPlain (step s)) ∧
  (∀ (c : Config) (numReg : Nat) (program : List Nat) (rest : List Command), 1 ≤ c.ramLen →
    isSentinel c (program.getD 0 0) = false →
    ∃ u, step (launch { c with build := .debugger } numReg program (.run :: rest)) = .next u ∧
      mapNext asPlain (step u) = step (launch { c with build := .plain } numReg program rest))

/-- R142 and R143: each command's effect, and which end the pause; with none available the core waits; a step reads a
command only in a pause, and then one. -/
def Obligations.CommandsOfTheInteractiveLoop : Prop :=
  (∀ (s : State) (f : Fields) (rest : List Command), s.pausedWith f →
    (s.cmds = [] → ∀ t, step s ≠ .next t) ∧
    (s.cmds = .empty :: rest → step s = .next { s with cmds := rest }) ∧
    (∀ text, s.cmds = .unknown text :: rest →
      step s = .next { s with cmds := rest, rsp := s.rsp ++ [.softError] }) ∧
    (s.cmds = .disassemble :: rest → ∃ r, step s = .next { s with cmds := rest, rsp := s.rsp ++ [r] }) ∧
    (s.cmds = .showMemory :: rest → ∃ r, step s = .next { s with cmds := rest, rsp := s.rsp ++ [r] }) ∧
    (s.cmds = .step :: rest → step s = execute f { s with cmds := rest, ir := none }) ∧
    (s.cmds = .run :: rest → step s = execute f { s with cmds := rest, ir := none, runState := .running }) ∧
    (∀ b, s.cmds = .setBreak b :: rest → step s = .next (if b < s.cfg.ramLen
      then setBreakpoint b { s with cmds := rest } else { s with cmds := rest, rsp := s.rsp ++ [.softError] })) ∧
    (∀ b, s.cmds = .clearBreak b :: rest → step s = .next (if b < s.cfg.ramLen
      then clearBreakpoint b { s with cmds := rest } else { s with cmds := rest, rsp := s.rsp ++ [.softError] })) ∧
    (s.cmds = .quit :: rest ∨ s.cmds = .endOfInput :: rest →
      step s = .next { s with cmds := rest, ir := none, runState := .finished })) ∧
  (∀ s t : State, step s = .next t →
    t.cmds = s.cmds ∧ (∀ f, ¬s.pausedWith f) ∨ ∃ f c, s.pausedWith f ∧ s.cmds = c :: t.cmds)

/-- R144: `Disassemble` answers with the inverse table's mnemonic, absent for an opcode of no row, and both argument
fields of the instruction held, and changes nothing; as text the parts are joined by ` | `, arguments in decimal. -/
def Obligations.DisassemblyShowsInstructionHeld : Prop :=
  (∀ (s : State) (f : Fields) rest, s.pausedWith f → s.cmds = .disassemble :: rest →
    step s = .next { s with cmds := rest, rsp := s.rsp ++ [.disassembly (mnemonicOf s.cfg f.op) f.arg0 f.arg1] }) ∧
  (∀ (s t : State) (w : Nat), s.atTop → s.ip < s.cfg.ramLen → hasSentinel s s.ip = true →
    lookupCell s.breaks s.ip = some w → step s = .next t → t.pausedWith (decodeFields s.cfg w)) ∧
  (∀ s t : State, s.atTop → s.ip < s.cfg.ramLen → hasSentinel s s.ip = false → s.runState = .stepping →
    step s = .next t → t.pausedWith (decodeFields s.cfg (s.mem.read s.ip))) ∧
  (∀ (m : Mnemonic) (a b : Nat), disassemblyText m a b =
    mnemonicText m ++ [' ', '|', ' '] ++ decimal a ++ [' ', '|', ' '] ++ decimal b) ∧
  disassemblyText .ldc 0 65 = ['l', 'd', 'c', ' ', '|', ' ', '0', ' ', '|', ' ', '6', '5']

/-- R145: the transitions of `run_state` in the debugger build: T0 to T5 happen as listed, and no other does. -/
def Obligations.RunStateTransitions : Prop :=
  (∀ (c : Config) numReg program cmds,
    (launch { c with build := .debugger } numReg program cmds).runState = .stepping) ∧
  (∀ s t : State, s.cfg.wf = true → s.cfg.build = .debugger → step s = .next t →
    s.runState ≠ .finished ∧
    (t.runState = .running → s.runState = .running ∨ ∃ f rest, s.pausedWith f ∧ s.cmds = .run :: rest) ∧
    (t.runState = .stepping → s.runState = .stepping ∨
      s.ip < s.cfg.ramLen ∧ hasSentinel s s.ip = true ∧ (lookupCell s.breaks s.ip).isSome = true) ∧
    (t.runState = .finished → s.executing = some .hlt ∨
      ∃ f rest, s.pausedWith f ∧ (s.cmds = .quit :: rest ∨ s.cmds = .endOfInput :: rest)) ∧
    (s.executing = some .hlt → t.runState = .finished) ∧
    (∀ f rest, s.pausedWith f → s.cmds = .run :: rest → s.executing ≠ some .hlt → t.runState = .running) ∧
    (∀ f rest, s.pausedWith f → s.cmds = .step :: rest → s.executing ≠ some .hlt → t.runState = .stepping) ∧
    (∀ f rest, s.pausedWith f → s.cmds = .quit :: rest ∨ s.cmds = .endOfInput :: rest → t.runState = .finished) ∧
    (s.atTop → s.ip < s.cfg.ramLen → hasSentinel s s.ip = true → (lookupCell s.breaks s.ip).isSome = true →
      t.runState = .stepping))

/-- R146: `ShowMemory` answers with `ip`, the registers, and RAM as it is up to the highest non-zero address, and
changes nothing; with every word zero the list is empty. -/
def Obligations.DumpShowsNonzeroPart : Prop :=
  ∀ (s : State) (f : Fields) rest, s.pausedWith f → s.cmds = .showMemory :: rest →
    ∃ ws : List Nat, step s = .next { s with cmds := rest, rsp := s.rsp ++ [.dump s.ip s.regs ws] } ∧
      ws.length ≤ s.cfg.ramLen ∧ (∀ a, a < ws.length → ws[a]? = some (s.mem.read a)) ∧
      (∀ w, ws.getLast? = some w → w ≠ 0) ∧ (∀ a, a < s.cfg.ramLen → ws.length ≤ a → s.mem.read a = 0)

/-- R147: `Step` lets exactly one instruction execute and the next iteration pauses again, unless it halted or
faulted; `Quit` and `EndOfInput` end the run at once, the instruction not executed and `ip` unmoved. -/
def Obligations.StepAndQuitExactly : Prop :=
  (∀ (s t : State) (f : Fields) rest, s.pausedWith f → s.cmds = .step :: rest → step s = .next t →
    execute f { s with cmds := rest, ir := none } = .next t ∧
    (t.fault = none → t.runState ≠ .finished → t.atTop ∧ t.runState = .stepping ∧ t.cmds = rest ∧
      (t.ip < t.cfg.ramLen → hasSentinel t t.ip = false ∨ (lookupCell t.breaks t.ip).isSome = true →
        ∃ u g, step t = .next u ∧ u.pausedWith g ∧ u = { t with ir := some g }))) ∧
  (∀ (s : State) (f : Fields) rest, s.pausedWith f → s.cmds = .quit :: rest ∨ s.cmds = .endOfInput :: rest →
    step s = .next { s with cmds := rest, ir := none, runState := .finished })

/-! ### Reset and the loader -/

/-- R190: `initialize(program)` leaves the program in low RAM and zeros above, `ip` 0, every register 0, `run_state`
by the build, no fault, no breakpoint, no output, `ir` not live; `State.reset` is the empty program's. -/
def Obligations.LoadGivesResetValues : Prop :=
  (∀ (s : State) (program : List Nat), program.length ≤ s.cfg.ramLen →
    (∀ w ∈ program, w < 2 ^ s.cfg.wordBits) → ∃ t, loadProgram program s = .next t ∧
    (∀ (a : Nat) w, program[a]? = some w → t.mem.read a = w) ∧ (∀ a, program.length ≤ a → t.mem.read a = 0) ∧
    t.ip = 0 ∧ t.numReg = s.numReg ∧ (∀ w ∈ t.regs, w = 0) ∧
    t.runState = (match s.cfg.build with | .debugger => .stepping | .plain => .running) ∧
    t.fault = none ∧ t.breaks = [] ∧ t.out = [] ∧ t.ir = none ∧ t.cfg = s.cfg) ∧
  loadProgram [] State.reset = .next State.reset

/-- R191: a program longer than RAM is refused, one of exactly `RAM_LEN` words accepted, and the empty program's first
fetch raises `UnknownOpcode(0)`, in the debugger build when the pause ends by `Step`. -/
def Obligations.LongProgramIsRefused : Prop :=
  (∀ (s : State) (program : List Nat), s.cfg.ramLen < program.length →
    loadProgram program s = .refused (.programTooLong program.length)) ∧
  (∀ (s : State) (program : List Nat), program.length = s.cfg.ramLen → (∀ w ∈ program, w < 2 ^ s.cfg.wordBits) →
    ∃ t, loadProgram program s = .next t ∧ ∀ a : Nat, a < s.cfg.ramLen → program[a]? = some (t.mem.read a)) ∧
  (∀ s t : State, s.cfg.wf = true → s.cfg.build = .plain → loadProgram [] s = .next t →
    step t = .next { t with ip := 1, fault := some ⟨.unknownOpcode, 0⟩ }) ∧
  (∀ (s t : State) rest, s.cfg.wf = true → s.cfg.build = .debugger → loadProgram [] s = .next t →
    t.cmds = .step :: rest → ∃ u, step t = .next u ∧
      step u = .next { t with cmds := rest, ip := 1, fault := some ⟨.unknownOpcode, 0⟩ })

/-- Reset and every loaded program meet the machine's invariant. The clauses of the invariant rest on R4, R12, R15,
R10, R16, R17, R18, R20, R21, R134 (e), R163, U29 and on the model's choices of log 2, log 3, log 12, log 15,
log 23. -/
def Obligations.LaunchMeetsInvariant : Prop :=
  State.reset.Inv ∧
  ∀ (s t : State) (program : List Nat), s.paramsOk → loadProgram program s = .next t → t.Inv

/-- Every step keeps the machine's invariant, from every state that meets it: every word of the state below
`2^WORD_BITS` (how the model holds a width that is configuration, log 2), RAM in canonical form, the held triple three
fields, and the rest of `State.Inv`. -/
def Obligations.StepKeepsInvariant : Prop :=
  ∀ s t : State, s.Inv → step s = .next t → t.Inv

/-! ### The assembler and the program file -/

/-- R71: a program-file line is a word as exactly `HEX_WIDTH` lower-case hexadecimal digits, most significant first, six
in the reference configuration, which is enough for every word there; the loader reads back exactly what was written,
the `k`-th line at address `k`, and refuses every other file, nothing loaded. -/
def Obligations.ProgramFileRoundTrip : Prop :=
  (∀ (c : Config) (w : Nat), w < 16 ^ c.hexWidth → ∃ ds : List Nat, ds.length = c.hexWidth ∧ (∀ d ∈ ds, d < 16) ∧
    ds.foldl (fun n d => 16 * n + d) 0 = w ∧ hexLine c w = ds.map fun d => hexDigits.getD d '0') ∧
  (∀ (c : Config) (l : Text) (w : Nat), parseHexLine c l = some w ↔
    l = hexLine c w ∧ w < 16 ^ c.hexWidth ∧ w < 2 ^ c.wordBits) ∧
  (∀ (c : Config) (ls : List Text) (ws : List Nat), parseProgram c ls = .ok ws ↔
    ls = serialize c ws ∧ ∀ w ∈ ws, w < 16 ^ c.hexWidth ∧ w < 2 ^ c.wordBits) ∧
  (∀ (ls : List Text) (s : State) l, l ∈ ls → parseHexLine s.cfg l = none → ∃ e, loadFile ls s = .error e) ∧
  (∀ (ws : List Nat) (s : State), (∀ w ∈ ws, w < 16 ^ s.cfg.hexWidth ∧ w < 2 ^ s.cfg.wordBits) →
    loadFile (serialize s.cfg ws) s = .ok (loadProgram ws s)) ∧
  (∀ (ls : List Text) (s t : State) (k : Nat) l, loadFile ls s = .ok (.next t) → ls[k]? = some l →
    parseHexLine s.cfg l = some (t.mem.read k)) ∧
  Config.reference.hexWidth = 6 ∧ 2 ^ Config.reference.wordBits = 16 ^ Config.reference.hexWidth ∧
  hexLine Config.reference 0x410002 = ['4', '1', '0', '0', '0', '2']

/-- A label names the number of instruction lines before it, and a name defined twice fails. Rests on 30_encoding.md
R64; that a label name holding white space is refused is the model's reading, log 18. -/
def Obligations.LabelsNameTheNextInstruction : Prop :=
  (∀ (before after : List Text) (name : Text) (labels : LabelTable),
    findLabels (before ++ (name ++ [':']) :: after) 0 [] = .ok labels →
    labels.lookup name = some (before.filter fun l => !isLabelLine l).length) ∧
  (∀ (before between after : List Text) (name : Text) (labels : LabelTable),
    findLabels (before ++ (name ++ [':']) :: between ++ (name ++ [':']) :: after) 0 [] ≠ .ok labels)

/-- Data allocations run upward from the base of data in the order of the directives, within RAM; in an assembled
source that base is the number of code instructions, and the lines are compiled with the names so bound. Rests on
30_encoding.md R65; the grammar of a directive is log 18. -/
def Obligations.DataFollowsTheCode : Prop :=
  (∀ (c : Config) (numReg : Nat) (source : List Text) (ws : List Nat) (before after : List Text) (l name : Text)
    (count : Nat), assemble c numReg source = .ok ws → dataLines (cleanLines source) = before ++ l :: after →
    parseDirective l = some (name, count) →
    ∃ labels : LabelTable,
      compileAll c numReg labels ((codeLines (cleanLines source)).filter fun l => !isLabelLine l) = .ok ws ∧
      labels.lookup name = some (ws.length + ((before.filterMap parseDirective).map Prod.snd).sum) ∧
      ws.length + ((before.filterMap parseDirective).map Prod.snd).sum + count ≤ c.ramLen) ∧
  (∀ (ramLen base : Nat) (before after : List Text) (l name : Text) (count : Nat) (labels labels' : LabelTable),
    addData ramLen (before ++ l :: after) base labels = .ok labels' → parseDirective l = some (name, count) →
    ∃ at' : Nat, labels'.lookup name = some at' ∧ at' + count ≤ ramLen ∧
      at' = base + ((before.filterMap parseDirective).map Prod.snd).sum) ∧
  (∀ (ramLen base : Nat) (l name : Text) (count : Nat) (rest : List Text) (labels : LabelTable),
    parseDirective l = some (name, count) →
    ((labels.lookup name).isSome = true → addData ramLen (l :: rest) base labels = .error (.duplicateLabel name)) ∧
    (labels.lookup name = none → ramLen < base + count →
      addData ramLen (l :: rest) base labels = .error (.outOfMemory name)))

/-- What the assembler gives is one word for each instruction line, every one a well-formed instruction of
`INSTR_BITS` bits. Rests on 30_encoding.md R66, R67, R68, R70; the grammar of a line is log 18. -/
def Obligations.AssembledWordsAreInstructions : Prop :=
  ∀ (c : Config) (numReg : Nat) (source : List Text) (ws : List Nat), c.wf = true → numReg ≤ 2 ^ c.opShift →
    assemble c numReg source = .ok ws →
    ws.length = ((codeLines (cleanLines source)).filter fun l => !isLabelLine l).length ∧
    ∀ w ∈ ws, w < 2 ^ c.instrBits ∧ ∃ i, decode c w = .ok i ∧ i.wf c numReg = true

/-! ### Where a step stops -/

/-- A step never refuses, and it stops exactly in the four conditions in which the core does nothing: the latch set,
FINISHED, a pause with no command available, and the plain build in STEPPING, which no launch reaches. Which
outcome stands for each is the model's choice, log 8, log 10, log 11. Rests on 10_state.md R16, R17,
40_cycle_and_halt.md R80, 45_breakpoint_debug.md R142. -/
def Obligations.StepStopsOnlyByName : Prop :=
  ∀ s : State,
    (∀ r, step s ≠ .refused r) ∧
    (∀ k a, step s = .fault (.latched k a) ↔ s.fault = some ⟨k, a⟩) ∧
    (step s = .fault .finished ↔ s.fault = none ∧ s.runState = .finished) ∧
    (step s = .fault .awaitingCommand ↔ (∃ f, s.pausedWith f) ∧ s.cmds = []) ∧
    (step s = .fault .plainStepping ↔ s.fault = none ∧ s.runState = .stepping ∧ s.cfg.build = .plain)
end

