-- ==== Sys2Proof/Laws/Cells.lean ====
section
/-! SUPPORT. The laws of lists of cells, of RAM and of the breakpoint table: a read after a write, and that
every operation keeps the canonical form. -/

namespace Sys2Proof.Machine

@[simp] theorem lookupCell_nil (a : Nat) : lookupCell [] a = none := rfl

@[simp] theorem lookupCell_cons (k : Nat) (w : Nat) (m : List Cell) (a : Nat) :
    lookupCell ((k, w) :: m) a = if k = a then some w else lookupCell m a := rfl

theorem mem_of_lookupCell {m : List Cell} {a : Nat} {w : Nat} (h : lookupCell m a = some w) :
    (a, w) ∈ m := by
  induction m with
  | nil => simp at h
  | cons c m ih =>
    obtain ⟨k, u⟩ := c
    rw [lookupCell_cons] at h
    split at h
    · simp_all
    · exact List.mem_cons_of_mem _ (ih h)

theorem lookupCell_eq_none {m : List Cell} {a : Nat} : lookupCell m a = none ↔ ∀ c ∈ m, c.1 ≠ a := by
  induction m with
  | nil => simp
  | cons c m ih =>
    obtain ⟨k, u⟩ := c
    rw [lookupCell_cons]
    split <;> simp_all

@[simp] theorem lookupCell_insertCell (m : List Cell) (a b : Nat) (v : Nat) :
    lookupCell (insertCell m a v) b = if a = b then some v else lookupCell m b := by
  induction m with
  | nil => simp [insertCell]
  | cons c m ih =>
    obtain ⟨k, u⟩ := c
    simp only [insertCell]
    split
    · simp
    · split
      · subst_vars
        simp only [lookupCell_cons]
        split <;> rfl
      · rename_i hne
        simp only [lookupCell_cons, ih]
        split
        · rename_i hkb
          rw [if_neg (fun h => hne (h.trans hkb.symm))]
        · rfl

@[simp] theorem lookupCell_eraseCell (m : List Cell) (a b : Nat) :
    lookupCell (eraseCell m a) b = if a = b then none else lookupCell m b := by
  induction m with
  | nil => simp [eraseCell]
  | cons c m ih =>
    obtain ⟨k, u⟩ := c
    by_cases hk : k = a
    · subst hk
      have : eraseCell ((k, u) :: m) k = eraseCell m k := by simp [eraseCell]
      rw [this, ih, lookupCell_cons]
      split <;> rfl
    · have : eraseCell ((k, u) :: m) a = (k, u) :: eraseCell m a := by simp [eraseCell, hk]
      rw [this, lookupCell_cons, lookupCell_cons, ih]
      by_cases hb : k = b
      · simp [hb, show ¬a = b from fun h => hk (hb.trans h.symm)]
      · simp [hb]

/-! ### Order and bounds -/

theorem cellsRising_iff {m : List Cell} : cellsRising m = true ↔ m.Pairwise fun c d => c.1 < d.1 := by
  simp [cellsRising]

theorem mem_insertCell {m : List Cell} {a : Nat} {v : Nat} {c : Cell} (h : c ∈ insertCell m a v) :
    c = (a, v) ∨ c ∈ m := by
  induction m with
  | nil => simpa [insertCell] using h
  | cons d m ih =>
    obtain ⟨k, u⟩ := d
    simp only [insertCell] at h
    split at h
    · simpa using h
    · split at h
      · rcases List.mem_cons.mp h with h | h
        · exact .inl h
        · exact .inr (List.mem_cons_of_mem _ h)
      · rcases List.mem_cons.mp h with h | h
        · exact .inr (by simp [h])
        · exact (ih h).imp_right (List.mem_cons_of_mem _)

theorem cellsRising_insertCell {m : List Cell} (h : cellsRising m = true) (a : Nat) (v : Nat) :
    cellsRising (insertCell m a v) = true := by
  rw [cellsRising_iff] at *
  induction m with
  | nil => simp [insertCell]
  | cons d m ih =>
    obtain ⟨k, u⟩ := d
    obtain ⟨hk, hm⟩ := List.pairwise_cons.mp h
    simp only [insertCell]
    split
    · rename_i hak
      refine List.pairwise_cons.mpr ⟨fun c hc => ?_, h⟩
      rcases List.mem_cons.mp hc with rfl | hc
      · exact hak
      · exact hak.trans (hk c hc)
    · split
      · rename_i hak
        exact List.pairwise_cons.mpr ⟨fun c hc => hak ▸ hk c hc, hm⟩
      · refine List.pairwise_cons.mpr ⟨fun c hc => ?_, ih hm⟩
        rcases mem_insertCell hc with rfl | hc
        · show k < a
          omega
        · exact hk c hc

theorem cellsRising_eraseCell {m : List Cell} (h : cellsRising m = true) (a : Nat) :
    cellsRising (eraseCell m a) = true := by
  rw [cellsRising_iff] at *
  exact h.filter _

theorem cellsBelow_iff {n : Nat} {m : List Cell} : cellsBelow n m = true ↔ ∀ c ∈ m, c.1 < n := by
  simp [cellsBelow]

theorem cellsBelow_insertCell {n : Nat} {m : List Cell} (h : cellsBelow n m = true) {a : Nat} (ha : a < n)
    (v : Nat) : cellsBelow n (insertCell m a v) = true := by
  rw [cellsBelow_iff] at *
  intro c hc
  rcases mem_insertCell hc with rfl | hc
  · exact ha
  · exact h c hc

theorem cellsBelow_eraseCell {n : Nat} {m : List Cell} (h : cellsBelow n m = true) (a : Nat) :
    cellsBelow n (eraseCell m a) = true := by
  rw [cellsBelow_iff] at *
  exact fun c hc => h c (List.mem_of_mem_filter hc)

/-- Two rising lists that list the same words are the same list. -/
theorem cells_ext {m m' : List Cell} (h : cellsRising m = true) (h' : cellsRising m' = true)
    (heq : ∀ a, lookupCell m a = lookupCell m' a) : m = m' := by
  rw [cellsRising_iff] at h h'
  induction m generalizing m' with
  | nil =>
    cases m' with
    | nil => rfl
    | cons d m' => obtain ⟨k', u'⟩ := d; have := heq k'; simp at this
  | cons c m ih =>
    obtain ⟨k, u⟩ := c
    obtain ⟨hk, hm⟩ := List.pairwise_cons.mp h
    cases m' with
    | nil => have := heq k; simp at this
    | cons d m' =>
      obtain ⟨k', u'⟩ := d
      obtain ⟨hk', hm'⟩ := List.pairwise_cons.mp h'
      have e1 : lookupCell ((k', u') :: m') k = some u := by rw [← heq]; simp
      have e2 : lookupCell ((k, u) :: m) k' = some u' := by rw [heq]; simp
      have hkk : k = k' := by
        by_contra hne
        rw [lookupCell_cons, if_neg (Ne.symm hne)] at e1
        rw [lookupCell_cons, if_neg hne] at e2
        have l1 : k' < k := hk' _ (mem_of_lookupCell e1)
        have l2 : k < k' := hk _ (mem_of_lookupCell e2)
        omega
      subst hkk
      have huu : u' = u := by simpa using e1
      subst huu
      congr 1
      refine ih hm hm' fun a => ?_
      have hn : lookupCell m k = none := lookupCell_eq_none.mpr fun c hc => by have := hk c hc; simp at this; omega
      have hn' : lookupCell m' k = none :=
        lookupCell_eq_none.mpr fun c hc => by have := hk' c hc; simp at this; omega
      by_cases ha : k = a
      · rw [← ha, hn, hn']
      · simpa [ha] using heq a

/-! ### RAM -/

@[simp] theorem Memory.read_nil (a : Nat) : Memory.read [] a = 0 := rfl

/-- A read after a write: the word written at that address, the old word at every other. -/
@[simp] theorem Memory.read_write (m : Memory) (a b : Nat) (v : Nat) :
    (m.write a v).read b = if a = b then v else m.read b := by
  simp only [Memory.read, Memory.write]
  split
  · rename_i hv
    rw [lookupCell_eraseCell]
    split <;> simp [hv]
  · rw [lookupCell_insertCell]
    split <;> simp

theorem Memory.wf_iff {m : Memory} : m.wf = true ↔ cellsRising m = true ∧ ∀ c ∈ m, c.2 ≠ 0 := by
  simp [Memory.wf]

@[simp] theorem Memory.wf_nil : Memory.wf [] = true := rfl

/-- Writing keeps the canonical form. -/
theorem Memory.wf_write {m : Memory} (h : m.wf = true) (a : Nat) (v : Nat) : (m.write a v).wf = true := by
  rw [Memory.wf_iff] at *
  obtain ⟨hr, hz⟩ := h
  simp only [Memory.write]
  split
  · exact ⟨cellsRising_eraseCell hr a, fun c hc => hz c (List.mem_of_mem_filter hc)⟩
  · rename_i hv
    refine ⟨cellsRising_insertCell hr a v, fun c hc => ?_⟩
    rcases mem_insertCell hc with rfl | hc
    · exact hv
    · exact hz c hc

/-- Writing keeps the bound on the listed addresses. -/
theorem Memory.below_write {n : Nat} {m : Memory} (h : cellsBelow n m = true) {a : Nat} (ha : a < n)
    (v : Nat) : cellsBelow n (m.write a v) = true := by
  simp only [Memory.write]
  split
  · exact cellsBelow_eraseCell h a
  · exact cellsBelow_insertCell h ha v

/-- A bound on the listed words bounds every read, 0 being what an unlisted address reads. -/
theorem Memory.read_lt {n : Nat} (hn : 0 < n) {m : Memory} (h : ∀ c ∈ m, c.2 < n) (a : Nat) : m.read a < n := by
  unfold Memory.read
  cases e : lookupCell m a with
  | none => exact hn
  | some w => exact h _ (mem_of_lookupCell e)

/-- Writing a word below the bound keeps the bound on the listed words. -/
theorem Memory.words_write {n : Nat} {m : Memory} (h : ∀ c ∈ m, c.2 < n) (a : Nat) {v : Nat} (hv : v < n) :
    ∀ c ∈ m.write a v, c.2 < n := by
  intro c hc
  simp only [Memory.write] at hc
  split at hc
  · exact h c (List.mem_of_mem_filter hc)
  · rcases mem_insertCell hc with rfl | hc
    · exact hv
    · exact h c hc

/-- Two canonical memories that read the same are the same memory. -/
theorem Memory.ext_read {m m' : Memory} (h : m.wf = true) (h' : m'.wf = true)
    (heq : ∀ a, m.read a = m'.read a) : m = m' := by
  rw [Memory.wf_iff] at h h'
  refine cells_ext h.1 h'.1 fun a => ?_
  have := heq a
  simp only [Memory.read] at this
  cases e : lookupCell m a with
  | none =>
    cases e' : lookupCell m' a with
    | none => rfl
    | some w => exact absurd (by simpa [e, e'] using this.symm) (h'.2 _ (mem_of_lookupCell e'))
  | some w =>
    cases e' : lookupCell m' a with
    | none => exact absurd (by simpa [e, e'] using this) (h.2 _ (mem_of_lookupCell e))
    | some w' => simpa [e, e'] using this

/-! ### The RAM of a loaded program -/

theorem memoryOf_lower (ws : List Nat) (a : Nat) : ∀ c ∈ memoryOf a ws, a ≤ c.1 := by
  induction ws generalizing a with
  | nil => simp [memoryOf]
  | cons w ws ih =>
    intro c hc
    simp only [memoryOf] at hc
    split at hc
    · have := ih (a + 1) c hc; omega
    · rcases List.mem_cons.mp hc with rfl | hc
      · exact Nat.le_refl _
      · have := ih (a + 1) c hc; omega

theorem memoryOf_below (ws : List Nat) (a : Nat) : cellsBelow (a + ws.length) (memoryOf a ws) = true := by
  rw [cellsBelow_iff]
  induction ws generalizing a with
  | nil => simp [memoryOf]
  | cons w ws ih =>
    intro c hc
    simp only [memoryOf] at hc
    simp only [List.length_cons]
    split at hc
    · have := ih (a + 1) c hc; omega
    · rcases List.mem_cons.mp hc with rfl | hc
      · simp only; omega
      · have := ih (a + 1) c hc; omega

/-- The RAM of a program lists only words of the program. -/
theorem memoryOf_words (ws : List Nat) (a : Nat) : ∀ c ∈ memoryOf a ws, c.2 ∈ ws := by
  induction ws generalizing a with
  | nil => simp [memoryOf]
  | cons w ws ih =>
    intro c hc
    simp only [memoryOf] at hc
    split at hc
    · exact List.mem_cons_of_mem _ (ih _ c hc)
    · rcases List.mem_cons.mp hc with rfl | hc
      · exact List.mem_cons_self
      · exact List.mem_cons_of_mem _ (ih _ c hc)

theorem memoryOf_wf (ws : List Nat) (a : Nat) : Memory.wf (memoryOf a ws) = true := by
  induction ws generalizing a with
  | nil => rfl
  | cons w ws ih =>
    simp only [memoryOf]
    split
    · exact ih (a + 1)
    · rename_i hw
      have h := Memory.wf_iff.mp (ih (a + 1))
      refine Memory.wf_iff.mpr ⟨cellsRising_iff.mpr (List.pairwise_cons.mpr ⟨fun c hc => ?_,
        cellsRising_iff.mp h.1⟩), fun c hc => ?_⟩
      · have := memoryOf_lower ws (a + 1) c hc; simp only; omega
      · rcases List.mem_cons.mp hc with rfl | hc
        · exact hw
        · exact h.2 c hc

/-- The RAM of a program reads the program's words in its range and 0 above. -/
theorem memoryOf_read (ws : List Nat) (a k : Nat) :
    Memory.read (memoryOf a ws) (a + k) = ws.getD k 0 := by
  induction ws generalizing a k with
  | nil => simp [memoryOf]
  | cons w ws ih =>
    have hlow : lookupCell (memoryOf (a + 1) ws) a = none :=
      lookupCell_eq_none.mpr fun c hc => by have := memoryOf_lower ws (a + 1) c hc; omega
    cases k with
    | zero =>
      simp only [memoryOf, Nat.add_zero]
      split
      · rename_i hw
        simp [Memory.read, hlow, hw]
      · simp [Memory.read]
    | succ k =>
      have e : a + (k + 1) = (a + 1) + k := by omega
      simp only [memoryOf]
      split
      · rw [e, ih]; simp
      · rw [show Memory.read ((a, w) :: memoryOf (a + 1) ws) (a + (k + 1))
            = Memory.read (memoryOf (a + 1) ws) (a + (k + 1)) by simp [Memory.read]]
        rw [e, ih]; simp

end Sys2Proof.Machine
end

