-- ==== Sys2Proof/Laws/Decode.lean ====
section
/-! SUPPORT. The small laws of the opcode table and of the three fields. -/

namespace Sys2Proof

variable {c : Config}

/-! ### The opcode table -/

theorem Config.codesOk_of_wf (h : c.wf = true) : c.codesOk = true := by
  simp only [Config.wf, Bool.and_eq_true] at h
  exact h.2

/-- What the constraints on a configuration say, apart from its codes. -/
theorem Config.bounds_of_wf (h : c.wf = true) :
    1 ≤ c.opShift ∧ 3 * c.opShift ≤ c.wordBits ∧ 1 ≤ c.ramLen ∧ c.ramLen ≤ 2 ^ c.wordBits := by
  simp only [Config.wf, Bool.and_eq_true, decide_eq_true_eq] at h
  exact ⟨h.1.1.1.1, h.1.1.1.2, h.1.1.2, h.1.2⟩

/-- The three fields fill no more than a word. -/
theorem Config.opShift_le_wordBits (h : c.wf = true) : c.opShift ≤ c.wordBits := by
  have := Config.bounds_of_wf h
  omega

theorem mem_allMnemonics (m : Mnemonic) : m ∈ allMnemonics := by cases m <;> decide

theorem opcode_range (h : c.codesOk = true) (m : Mnemonic) : 1 ≤ opcode c m ∧ opcode c m < 2 ^ c.opShift := by
  simp only [Config.codesOk, Bool.and_eq_true, List.all_eq_true, decide_eq_true_eq] at h
  exact h.1 m (mem_allMnemonics m)

/-- Codes are unique. -/
theorem opcode_inj (h : c.codesOk = true) {m m' : Mnemonic} (e : opcode c m = opcode c m') : m = m' := by
  simp only [Config.codesOk, Bool.and_eq_true, decide_eq_true_eq] at h
  exact List.inj_on_of_nodup_map h.2 (mem_allMnemonics m) (mem_allMnemonics m') e

/-- A row found from a code has that code. -/
theorem opcode_of_mnemonicOf {code : Nat} {m : Mnemonic} (h : mnemonicOf c code = some m) : opcode c m = code := by
  have := List.find?_some h
  simpa using this

theorem mnemonicOf_opcode (h : c.codesOk = true) (m : Mnemonic) : mnemonicOf c (opcode c m) = some m := by
  cases e : mnemonicOf c (opcode c m) with
  | none => exact absurd (List.find?_eq_none.mp e m (mem_allMnemonics m)) (by simp)
  | some m' => rw [opcode_inj h (opcode_of_mnemonicOf e)]

/-- The opcode 0 is of no row: codes are positive. -/
theorem mnemonicOf_zero (h : c.codesOk = true) : mnemonicOf c 0 = none := by
  cases e : mnemonicOf c 0 with
  | none => rfl
  | some m => have := (opcode_range h m).1; rw [opcode_of_mnemonicOf e] at this; exact absurd this (by decide)

/-- Configurations with the same codes have the same table. -/
theorem mnemonicOf_congr {c' : Config} (h : c.codes = c'.codes) (code : Nat) :
    mnemonicOf c code = mnemonicOf c' code := by
  unfold mnemonicOf
  congr
  funext m
  cases m <;> simp only [opcode, h]

/-- An instruction read from a triple has that triple's opcode. -/
theorem opcode_of_instrOf {f : Fields} {i : Instr} (h : instrOf c f = some i) : opcode c i.mnemonic = f.op := by
  unfold instrOf at h
  split at h <;> cases h <;> exact opcode_of_mnemonicOf ‹_›

/-- What `decode` gives is what the triple selects. -/
theorem decode_eq_ok {w : Nat} {i : Instr} : decode c w = .ok i ↔ instrOf c (decodeFields c w) = some i := by
  unfold decode
  split <;> simp_all

/-! ### The fields -/

/-- Each field of a triple fits. -/
def Fields.fits (c : Config) (f : Fields) : Prop :=
  f.op < 2 ^ c.opShift ∧ f.arg0 < 2 ^ c.opShift ∧ f.arg1 < 2 ^ c.opShift

theorem decodeFields_fits (c : Config) (w : Nat) : (decodeFields c w).fits c :=
  ⟨Nat.mod_lt _ (Nat.two_pow_pos _), Nat.mod_lt _ (Nat.two_pow_pos _), Nat.mod_lt _ (Nat.two_pow_pos _)⟩

/-- The packing formula in nested form. -/
theorem encodeFields_eq (c : Config) (f : Fields) :
    encodeFields c f = f.op + 2 ^ c.opShift * (f.arg0 + 2 ^ c.opShift * f.arg1) := by
  simp only [encodeFields, Nat.two_mul, Nat.pow_add]
  ring

theorem decodeFields_encodeFields {f : Fields} (h : f.fits c) : decodeFields c (encodeFields c f) = f := by
  obtain ⟨op, a, b⟩ := f
  obtain ⟨ho, ha, hb⟩ := h
  have hB := Nat.two_pow_pos c.opShift
  rw [encodeFields_eq]
  simp only [decodeFields] at *
  generalize 2 ^ c.opShift = B at *
  rw [Nat.add_mul_mod_self_left, Nat.mod_eq_of_lt ho, Nat.add_mul_div_left _ _ hB, Nat.div_eq_of_lt ho, Nat.zero_add,
    Nat.add_mul_mod_self_left, Nat.mod_eq_of_lt ha, Nat.add_mul_div_left _ _ hB, Nat.div_eq_of_lt ha, Nat.zero_add,
    Nat.mod_eq_of_lt hb]

/-- An encoding has `INSTR_BITS` bits. -/
theorem encodeFields_lt {f : Fields} (h : f.fits c) : encodeFields c f < 2 ^ c.instrBits := by
  obtain ⟨ho, ha, hb⟩ := h
  have e : 2 ^ c.instrBits = 2 ^ c.opShift * (2 ^ c.opShift * 2 ^ c.opShift) := by
    rw [Config.instrBits, show 3 * c.opShift = c.opShift + (c.opShift + c.opShift) by omega, Nat.pow_add, Nat.pow_add]
  rw [encodeFields_eq, e]
  generalize 2 ^ c.opShift = B at *
  calc f.op + B * (f.arg0 + B * f.arg1) < B * (f.arg0 + B * f.arg1 + 1) := by rw [Nat.mul_add B _ 1]; omega
    _ ≤ B * (B * B) := Nat.mul_le_mul_left _ (by
        calc f.arg0 + B * f.arg1 + 1 ≤ B * (f.arg1 + 1) := by rw [Nat.mul_add B _ 1]; omega
          _ ≤ B * B := Nat.mul_le_mul_left _ hb)

theorem encodeFields_decodeFields {w : Nat} (h : w < 2 ^ c.instrBits) : encodeFields c (decodeFields c w) = w := by
  have e : 2 ^ c.instrBits = 2 ^ c.opShift * 2 ^ c.opShift * 2 ^ c.opShift := by
    rw [Config.instrBits, show 3 * c.opShift = c.opShift + c.opShift + c.opShift by omega, Nat.pow_add, Nat.pow_add]
  have hB := Nat.two_pow_pos c.opShift
  rw [encodeFields_eq]
  simp only [decodeFields]
  rw [e] at h
  generalize 2 ^ c.opShift = B at *
  rw [Nat.mod_eq_of_lt (a := w / B / B) (by rw [Nat.div_div_eq_div_mul]; exact Nat.div_lt_of_lt_mul h),
    Nat.mod_add_div, Nat.mod_add_div]

/-- The triple of an instruction that fits fits. -/
theorem Instr.fields_fits (hc : c.codesOk = true) {i : Instr} (h : i.fits c = true) : (i.fields c).fits c := by
  have hB := Nat.two_pow_pos c.opShift
  have ho := fun m => (opcode_range hc m).2
  cases i <;> simp_all [Instr.fits, Instr.fields, Fields.fits, fieldOk]

/-- The operands of an instruction read from a triple that fits fit. -/
theorem fits_of_instrOf {f : Fields} {i : Instr} (hf : f.fits c) (h : instrOf c f = some i) : i.fits c = true := by
  obtain ⟨-, h0, h1⟩ := hf
  unfold instrOf at h
  split at h <;> cases h <;> simp [Instr.fits, fieldOk, h0, h1]

end Sys2Proof
end

