-- ==== Sys2Proof/Laws/State.lean ====
section
/-! SUPPORT. What each update of the state does to each field: one lemma per field per update. -/

namespace Sys2Proof.Machine

variable (s : State)

@[simp] theorem setReg_cfg (i : Nat) (v : Nat) : (setReg i v s).cfg = s.cfg := rfl
@[simp] theorem setReg_regs (i : Nat) (v : Nat) : (setReg i v s).regs = s.regs.set i v := rfl
@[simp] theorem setReg_ip (i : Nat) (v : Nat) : (setReg i v s).ip = s.ip := rfl
@[simp] theorem setReg_mem (i : Nat) (v : Nat) : (setReg i v s).mem = s.mem := rfl
@[simp] theorem setReg_runState (i : Nat) (v : Nat) : (setReg i v s).runState = s.runState := rfl
@[simp] theorem setReg_fault (i : Nat) (v : Nat) : (setReg i v s).fault = s.fault := rfl
@[simp] theorem setReg_breaks (i : Nat) (v : Nat) : (setReg i v s).breaks = s.breaks := rfl
@[simp] theorem setReg_out (i : Nat) (v : Nat) : (setReg i v s).out = s.out := rfl
@[simp] theorem setReg_ir (i : Nat) (v : Nat) : (setReg i v s).ir = s.ir := rfl
@[simp] theorem setReg_cmds (i : Nat) (v : Nat) : (setReg i v s).cmds = s.cmds := rfl
@[simp] theorem setReg_rsp (i : Nat) (v : Nat) : (setReg i v s).rsp = s.rsp := rfl

@[simp] theorem emit_cfg (v : Nat) : (emit v s).cfg = s.cfg := rfl
@[simp] theorem emit_regs (v : Nat) : (emit v s).regs = s.regs := rfl
@[simp] theorem emit_ip (v : Nat) : (emit v s).ip = s.ip := rfl
@[simp] theorem emit_mem (v : Nat) : (emit v s).mem = s.mem := rfl
@[simp] theorem emit_runState (v : Nat) : (emit v s).runState = s.runState := rfl
@[simp] theorem emit_fault (v : Nat) : (emit v s).fault = s.fault := rfl
@[simp] theorem emit_breaks (v : Nat) : (emit v s).breaks = s.breaks := rfl
@[simp] theorem emit_out (v : Nat) : (emit v s).out = s.out ++ [v] := rfl
@[simp] theorem emit_ir (v : Nat) : (emit v s).ir = s.ir := rfl
@[simp] theorem emit_cmds (v : Nat) : (emit v s).cmds = s.cmds := rfl
@[simp] theorem emit_rsp (v : Nat) : (emit v s).rsp = s.rsp := rfl

@[simp] theorem respond_cfg (r : Response) : (respond r s).cfg = s.cfg := rfl
@[simp] theorem respond_regs (r : Response) : (respond r s).regs = s.regs := rfl
@[simp] theorem respond_ip (r : Response) : (respond r s).ip = s.ip := rfl
@[simp] theorem respond_mem (r : Response) : (respond r s).mem = s.mem := rfl
@[simp] theorem respond_runState (r : Response) : (respond r s).runState = s.runState := rfl
@[simp] theorem respond_fault (r : Response) : (respond r s).fault = s.fault := rfl
@[simp] theorem respond_breaks (r : Response) : (respond r s).breaks = s.breaks := rfl
@[simp] theorem respond_out (r : Response) : (respond r s).out = s.out := rfl
@[simp] theorem respond_ir (r : Response) : (respond r s).ir = s.ir := rfl
@[simp] theorem respond_cmds (r : Response) : (respond r s).cmds = s.cmds := rfl
@[simp] theorem respond_rsp (r : Response) : (respond r s).rsp = s.rsp ++ [r] := rfl

@[simp] theorem raise_cfg (k : FaultKind) (v : Nat) : (raise k v s).cfg = s.cfg := rfl
@[simp] theorem raise_regs (k : FaultKind) (v : Nat) : (raise k v s).regs = s.regs := rfl
@[simp] theorem raise_ip (k : FaultKind) (v : Nat) : (raise k v s).ip = s.ip := rfl
@[simp] theorem raise_mem (k : FaultKind) (v : Nat) : (raise k v s).mem = s.mem := rfl
@[simp] theorem raise_runState (k : FaultKind) (v : Nat) : (raise k v s).runState = s.runState := rfl
@[simp] theorem raise_fault (k : FaultKind) (v : Nat) : (raise k v s).fault = some ⟨k, v⟩ := rfl
@[simp] theorem raise_breaks (k : FaultKind) (v : Nat) : (raise k v s).breaks = s.breaks := rfl
@[simp] theorem raise_out (k : FaultKind) (v : Nat) : (raise k v s).out = s.out := rfl
@[simp] theorem raise_ir (k : FaultKind) (v : Nat) : (raise k v s).ir = s.ir := rfl
@[simp] theorem raise_cmds (k : FaultKind) (v : Nat) : (raise k v s).cmds = s.cmds := rfl
@[simp] theorem raise_rsp (k : FaultKind) (v : Nat) : (raise k v s).rsp = s.rsp := rfl

@[simp] theorem advance_cfg : (advance s).cfg = s.cfg := rfl
@[simp] theorem advance_regs : (advance s).regs = s.regs := rfl
@[simp] theorem advance_ip : (advance s).ip = s.ip + 1 := rfl
@[simp] theorem advance_mem : (advance s).mem = s.mem := rfl
@[simp] theorem advance_runState : (advance s).runState = s.runState := rfl
@[simp] theorem advance_fault : (advance s).fault = s.fault := rfl
@[simp] theorem advance_breaks : (advance s).breaks = s.breaks := rfl
@[simp] theorem advance_out : (advance s).out = s.out := rfl
@[simp] theorem advance_ir : (advance s).ir = s.ir := rfl
@[simp] theorem advance_cmds : (advance s).cmds = s.cmds := rfl
@[simp] theorem advance_rsp : (advance s).rsp = s.rsp := rfl

@[simp] theorem pause_cfg (f : Fields) : (pause f s).cfg = s.cfg := rfl
@[simp] theorem pause_regs (f : Fields) : (pause f s).regs = s.regs := rfl
@[simp] theorem pause_ip (f : Fields) : (pause f s).ip = s.ip := rfl
@[simp] theorem pause_mem (f : Fields) : (pause f s).mem = s.mem := rfl
@[simp] theorem pause_runState (f : Fields) : (pause f s).runState = s.runState := rfl
@[simp] theorem pause_fault (f : Fields) : (pause f s).fault = s.fault := rfl
@[simp] theorem pause_breaks (f : Fields) : (pause f s).breaks = s.breaks := rfl
@[simp] theorem pause_out (f : Fields) : (pause f s).out = s.out := rfl
@[simp] theorem pause_ir (f : Fields) : (pause f s).ir = some f := rfl
@[simp] theorem pause_cmds (f : Fields) : (pause f s).cmds = s.cmds := rfl
@[simp] theorem pause_rsp (f : Fields) : (pause f s).rsp = s.rsp := rfl

@[simp] theorem trap_cfg (f : Fields) : (trap f s).cfg = s.cfg := rfl
@[simp] theorem trap_regs (f : Fields) : (trap f s).regs = s.regs := rfl
@[simp] theorem trap_ip (f : Fields) : (trap f s).ip = s.ip := rfl
@[simp] theorem trap_mem (f : Fields) : (trap f s).mem = s.mem := rfl
@[simp] theorem trap_runState (f : Fields) : (trap f s).runState = .stepping := rfl
@[simp] theorem trap_fault (f : Fields) : (trap f s).fault = s.fault := rfl
@[simp] theorem trap_breaks (f : Fields) : (trap f s).breaks = s.breaks := rfl
@[simp] theorem trap_out (f : Fields) : (trap f s).out = s.out := rfl
@[simp] theorem trap_ir (f : Fields) : (trap f s).ir = some f := rfl
@[simp] theorem trap_cmds (f : Fields) : (trap f s).cmds = s.cmds := rfl
@[simp] theorem trap_rsp (f : Fields) : (trap f s).rsp = s.rsp := rfl

@[simp] theorem resume_cfg (r : RunState) : (resume r s).cfg = s.cfg := rfl
@[simp] theorem resume_regs (r : RunState) : (resume r s).regs = s.regs := rfl
@[simp] theorem resume_ip (r : RunState) : (resume r s).ip = s.ip := rfl
@[simp] theorem resume_mem (r : RunState) : (resume r s).mem = s.mem := rfl
@[simp] theorem resume_runState (r : RunState) : (resume r s).runState = r := rfl
@[simp] theorem resume_fault (r : RunState) : (resume r s).fault = s.fault := rfl
@[simp] theorem resume_breaks (r : RunState) : (resume r s).breaks = s.breaks := rfl
@[simp] theorem resume_out (r : RunState) : (resume r s).out = s.out := rfl
@[simp] theorem resume_ir (r : RunState) : (resume r s).ir = none := rfl
@[simp] theorem resume_cmds (r : RunState) : (resume r s).cmds = s.cmds := rfl
@[simp] theorem resume_rsp (r : RunState) : (resume r s).rsp = s.rsp := rfl

end Sys2Proof.Machine
end

