-- ==== Sys2Proof/Laws/Breakpoint.lean ====
section
/-! SUPPORT. What setting and clearing a breakpoint can do. -/

namespace Sys2Proof.Machine

variable {s : State} {b c : Nat}

theorem setBreakpoint_of_true (h : hasSentinel s b = true) : setBreakpoint b s = s := by simp [setBreakpoint, h]

theorem setBreakpoint_of_false (h : hasSentinel s b = false) :
    setBreakpoint b s =
      { s with breaks := insertCell s.breaks b (s.mem.read b), mem := s.mem.write b (sentinel s.cfg) } := by
  simp [setBreakpoint, h]

theorem clearBreakpoint_of_false (h : hasSentinel s b = false) : clearBreakpoint b s = s := by
  simp [clearBreakpoint, h]

theorem clearBreakpoint_of_none (h : lookupCell s.breaks b = none) : clearBreakpoint b s = s := by
  simp [clearBreakpoint, h]

theorem clearBreakpoint_of_some {w : Nat} (h : hasSentinel s b = true) (hl : lookupCell s.breaks b = some w) :
    clearBreakpoint b s = { s with breaks := eraseCell s.breaks b, mem := s.mem.write b w } := by
  simp [clearBreakpoint, h, hl]

/-- The sentinel word is the bare code. -/
@[simp] theorem sentinel_eq (c : Config) : sentinel c = opcode c .brk := by
  simp [sentinel, encode, encodeFields, Instr.fields]

theorem isSentinel_sentinel {c : Config} (h : c.codesOk = true) : isSentinel c (sentinel c) = true := by
  simp [isSentinel, decodeFields, Nat.mod_eq_of_lt (opcode_range h .brk).2]

/-- The bare code is a word. -/
theorem sentinel_lt {c : Config} (h : c.wf = true) : sentinel c < 2 ^ c.wordBits := by
  rw [sentinel_eq]
  exact (opcode_range (Config.codesOk_of_wf h) .brk).2.trans_le
    (Nat.pow_le_pow_right (by decide) (Config.opShift_le_wordBits h))

theorem setBreakpoint_cfg (b : Nat) (s : State) : (setBreakpoint b s).cfg = s.cfg := by
  unfold setBreakpoint
  split <;> rfl

theorem hasSentinel_setBreakpoint (hc : s.cfg.codesOk = true) : hasSentinel (setBreakpoint b s) b = true := by
  cases h : hasSentinel s b with
  | true => rw [setBreakpoint_of_true h, h]
  | false =>
    rw [setBreakpoint_of_false h]
    simpa [hasSentinel] using isSentinel_sentinel hc

/-- Setting writes RAM and the table only. -/
theorem setBreakpoint_frame (b : Nat) (s : State) :
    ∃ m tbl, setBreakpoint b s = { s with mem := m, breaks := tbl } := by
  unfold setBreakpoint
  split
  · exact ⟨s.mem, s.breaks, rfl⟩
  · exact ⟨_, _, rfl⟩

/-- Clearing writes RAM and the table only. -/
theorem clearBreakpoint_frame (b : Nat) (s : State) :
    ∃ m tbl, clearBreakpoint b s = { s with mem := m, breaks := tbl } := by
  unfold clearBreakpoint
  split
  · split
    · exact ⟨_, _, rfl⟩
    · exact ⟨s.mem, s.breaks, rfl⟩
  · exact ⟨s.mem, s.breaks, rfl⟩

theorem setBreakpoint_read (h : c ≠ b) : (setBreakpoint b s).mem.read c = s.mem.read c := by
  unfold setBreakpoint
  split
  · rfl
  · simp [h.symm]

theorem clearBreakpoint_read (h : c ≠ b) : (clearBreakpoint b s).mem.read c = s.mem.read c := by
  unfold clearBreakpoint
  split
  · split
    · simp [h.symm]
    · rfl
  · rfl

/-- The command writes RAM, the table and the responses only. -/
theorem commandSetBreak_frame (b : Nat) (s : State) :
    ∃ m tbl r, commandSetBreak b s = { s with mem := m, breaks := tbl, rsp := r } := by
  unfold commandSetBreak
  split
  · obtain ⟨m, tbl, h⟩ := setBreakpoint_frame b s
    exact ⟨m, tbl, s.rsp, h⟩
  · exact ⟨s.mem, s.breaks, _, rfl⟩

/-- The command writes RAM, the table and the responses only. -/
theorem commandClearBreak_frame (b : Nat) (s : State) :
    ∃ m tbl r, commandClearBreak b s = { s with mem := m, breaks := tbl, rsp := r } := by
  unfold commandClearBreak
  split
  · obtain ⟨m, tbl, h⟩ := clearBreakpoint_frame b s
    exact ⟨m, tbl, s.rsp, h⟩
  · exact ⟨s.mem, s.breaks, _, rfl⟩

end Sys2Proof.Machine
end

