-- ==== Sys2Proof/Laws/Ops.lean ====
section
/-! SUPPORT. For each shared operation of the instructions: what it answers when its check passes, and all it
can do when it answers a next state. -/

namespace Sys2Proof.Machine

variable {s t : State}

@[simp] theorem next_inj {a b : State} : (Host.Outcome.next a : Result) = .next b ↔ a = b :=
  ⟨fun h => by injection h, fun h => h ▸ rfl⟩

@[simp] theorem executeFault_eq (k : FaultKind) (s : State) :
    executeFault k s = .next (raise k s.ip (advance s)) := rfl

/-! ### CheckReg -/

theorem checkReg_of_lt {i : Nat} {k : Result} (h : i < s.numReg) : checkReg i s k = k := if_pos h

theorem checkReg_of_le {i : Nat} {k : Result} (h : s.numReg ≤ i) :
    checkReg i s k = .next (raise .invalidRegister s.ip (advance s)) := if_neg (Nat.not_lt.mpr h)

theorem checkReg_next {i : Nat} {k : Result} (h : checkReg i s k = .next t) :
    i < s.numReg ∧ k = .next t ∨
      s.numReg ≤ i ∧ t = raise .invalidRegister s.ip (advance s) := by
  rcases Nat.lt_or_ge i s.numReg with hi | hi
  · exact .inl ⟨hi, by rwa [checkReg_of_lt hi] at h⟩
  · exact .inr ⟨hi, by rw [checkReg_of_le hi] at h; exact (next_inj.mp h).symm⟩

theorem readReg_of_some {i : Nat} {k : Nat → Result} {v : Nat} (h : s.regs[i]? = some v) :
    readReg i s k = k v := by simp [readReg, h]

theorem readReg_of_le {i : Nat} {k : Nat → Result} (h : s.numReg ≤ i) :
    readReg i s k = .next (raise .invalidRegister s.ip (advance s)) := by
  simp [readReg, List.getElem?_eq_none h]

theorem readReg_next {i : Nat} {k : Nat → Result} (h : readReg i s k = .next t) :
    (∃ v, s.regs[i]? = some v ∧ k v = .next t) ∨
      s.numReg ≤ i ∧ t = raise .invalidRegister s.ip (advance s) := by
  cases e : s.regs[i]? with
  | some v => exact .inl ⟨v, rfl, by rwa [readReg_of_some e] at h⟩
  | none =>
    have hi : s.numReg ≤ i := List.getElem?_eq_none_iff.mp e
    exact .inr ⟨hi, by rw [readReg_of_le hi] at h; exact (next_inj.mp h).symm⟩

/-- A read register is one of the file. -/
theorem lt_numReg_of_getElem? {i : Nat} {v : Nat} (h : s.regs[i]? = some v) : i < s.numReg :=
  (List.getElem?_eq_some_iff.mp h).1

/-! ### MemRead and MemWrite -/

theorem memRead_of_lt {addr : Nat} {k : Nat → Result} (h : addr < s.cfg.ramLen) :
    memRead addr s k = k (s.mem.read addr) := if_pos h

theorem memRead_of_le {addr : Nat} {k : Nat → Result} (h : s.cfg.ramLen ≤ addr) :
    memRead addr s k = .next (raise .invalidAddress s.ip (advance s)) := if_neg (Nat.not_lt.mpr h)

theorem memRead_next {addr : Nat} {k : Nat → Result} (h : memRead addr s k = .next t) :
    addr < s.cfg.ramLen ∧ k (s.mem.read addr) = .next t ∨
      s.cfg.ramLen ≤ addr ∧ t = raise .invalidAddress s.ip (advance s) := by
  rcases Nat.lt_or_ge addr s.cfg.ramLen with ha | ha
  · exact .inl ⟨ha, by rwa [memRead_of_lt ha] at h⟩
  · exact .inr ⟨ha, by rw [memRead_of_le ha] at h; exact (next_inj.mp h).symm⟩

theorem memWrite_of_lt {addr v : Nat} {k : State → Result} (h : addr < s.cfg.ramLen) :
    memWrite addr v s k = k { s with mem := s.mem.write addr v } := if_pos h

theorem memWrite_of_le {addr v : Nat} {k : State → Result} (h : s.cfg.ramLen ≤ addr) :
    memWrite addr v s k = .next (raise .invalidAddress s.ip (advance s)) := if_neg (Nat.not_lt.mpr h)

theorem memWrite_next {addr v : Nat} {k : State → Result} (h : memWrite addr v s k = .next t) :
    addr < s.cfg.ramLen ∧ k { s with mem := s.mem.write addr v } = .next t ∨
      s.cfg.ramLen ≤ addr ∧ t = raise .invalidAddress s.ip (advance s) := by
  rcases Nat.lt_or_ge addr s.cfg.ramLen with ha | ha
  · exact .inl ⟨ha, by rwa [memWrite_of_lt ha] at h⟩
  · exact .inr ⟨ha, by rw [memWrite_of_le ha] at h; exact (next_inj.mp h).symm⟩

/-! ### Arithmetic -/

theorem addWord_lt (c : Config) (p q : Nat) : addWord c p q < 2 ^ c.wordBits := Nat.mod_lt _ (Nat.two_pow_pos _)

/-- The difference as the spec writes it, on unsigned numbers. -/
theorem subWord_eq {c : Config} {p q : Nat} (hp : p < 2 ^ c.wordBits) (hq : q < 2 ^ c.wordBits) :
    subWord c p q = if q ≤ p then p - q else 2 ^ c.wordBits + p - q := by
  have e : ((2 : Int) ^ c.wordBits) = ((2 ^ c.wordBits : Nat) : Int) := by push_cast; rfl
  unfold subWord
  rw [e]
  generalize 2 ^ c.wordBits = M at *
  split
  · rw [Int.emod_eq_of_lt (by omega) (by omega)]; omega
  · rw [← Int.add_emod_right, Int.emod_eq_of_lt (by omega) (by omega)]; omega

theorem subWord_lt (c : Config) (p q : Nat) : subWord c p q < 2 ^ c.wordBits := by
  have e : ((2 : Int) ^ c.wordBits) = ((2 ^ c.wordBits : Nat) : Int) := by push_cast; rfl
  unfold subWord
  rw [e]
  have hM := Nat.two_pow_pos c.wordBits
  generalize 2 ^ c.wordBits = M at *
  have h1 := Int.emod_nonneg ((p : Int) - q) (b := (M : Int)) (by omega)
  have h2 := Int.emod_lt_of_pos ((p : Int) - q) (b := (M : Int)) (by omega)
  omega

@[simp] theorem valueOperand_eq (v : Nat) : valueOperand v = v := rfl

@[simp] theorem targetOperand_eq (v : Nat) : targetOperand v = v := rfl

end Sys2Proof.Machine
end

