-- ==== Sys2Proof/Laws/Exec.lean ====
section
/-! SUPPORT. All an instruction can do when it answers a next state. -/

namespace Sys2Proof.Machine

/-- What an instruction other than the sentinel has done to `s` when it did not fault. -/
inductive Effect (i : Instr) (s : State) : State → Prop where
  /-- It wrote one register, its arg0. -/
  | writesReg (d : Nat) (v : Nat) (hlt : d < s.numReg)
      (hi : (∃ w, i = .ldc d w ∧ v = valueOperand w) ∨
        (∃ r addr, i = .ldr d r ∧ s.regs[r]? = some addr ∧ addr < s.cfg.ramLen ∧
          v = s.mem.read addr) ∨
        (∃ r, i = .cpy d r ∧ s.regs[r]? = some v) ∨
        (∃ r p q, i = .add d r ∧ s.regs[d]? = some p ∧ s.regs[r]? = some q ∧ v = addWord s.cfg p q) ∨
        (∃ r p q, i = .sub d r ∧ s.regs[d]? = some p ∧ s.regs[r]? = some q ∧ v = subWord s.cfg p q)) :
      Effect i s (setReg d v (advance s))
  /-- It stored one word. -/
  | stores (v r : Nat) (val addr : Nat) (hi : i = .str v r) (hv : s.regs[v]? = some val)
      (hr : s.regs[r]? = some addr) (ha : addr < s.cfg.ramLen) :
      Effect i s (advance { s with mem := s.mem.write addr val })
  /-- A branch, taken. -/
  | taken (r target : Nat) (v : Nat) (hr : s.regs[r]? = some v)
      (hi : i = .beq r target ∧ isZero v = true ∨ i = .bne r target ∧ isZero v = false) :
      Effect i s { s with ip := targetOperand target }
  /-- A branch, not taken. -/
  | notTaken (r target : Nat) (v : Nat) (hr : s.regs[r]? = some v)
      (hi : i = .beq r target ∧ isZero v = false ∨ i = .bne r target ∧ isZero v = true) :
      Effect i s (advance s)
  /-- It printed one word. -/
  | prints (r : Nat) (v w : Nat) (hr : s.regs[r]? = some v)
      (hi : i = .prr r ∧ w = v ∨ i = .prm r ∧ v < s.cfg.ramLen ∧ w = s.mem.read v) :
      Effect i s (emit w (advance s))
  /-- It halted. -/
  | halts (hi : i = .hlt) : Effect i s { advance s with runState := .finished }

/-- What no effect touches. -/
theorem Effect.frame {i : Instr} {s t : State} (h : Effect i s t) :
    t.cfg = s.cfg ∧ t.fault = s.fault ∧ t.breaks = s.breaks ∧ t.ir = s.ir ∧ t.cmds = s.cmds ∧ t.rsp = s.rsp ∧
      t.numReg = s.numReg := by
  cases h <;> simp [State.numReg]

/-- `run_state` after an effect: FINISHED after `hlt`, unchanged otherwise. -/
theorem Effect.runState {i : Instr} {s t : State} (h : Effect i s t) :
    i = .hlt ∧ t.runState = .finished ∨ i ≠ .hlt ∧ t.runState = s.runState := by
  cases h with
  | writesReg d v hlt hi => exact .inr ⟨by rintro rfl; simp at hi, rfl⟩
  | stores v r val addr hi => exact .inr ⟨by simp [hi], rfl⟩
  | taken r target v hr hi => exact .inr ⟨by rintro rfl; simp at hi, rfl⟩
  | notTaken r target v hr hi => exact .inr ⟨by rintro rfl; simp at hi, rfl⟩
  | prints r v w hr hi => exact .inr ⟨by rintro rfl; simp at hi, rfl⟩
  | halts hi => exact .inl ⟨hi, rfl⟩

/-- An instruction other than the sentinel raises `InvalidRegister` or `InvalidAddress`, or has its effect. -/
theorem exec_next {i : Instr} {s t : State} (hb : i ≠ .brk) (h : exec i s = .next t) :
    (∃ k, (k = .invalidRegister ∨ k = .invalidAddress) ∧ t = raise k s.ip (advance s)) ∨ Effect i s t := by
  cases i with
  | hlt => exact .inr (next_inj.mp h ▸ .halts rfl)
  | ldc d v =>
    rcases checkReg_next h with ⟨hd, h⟩ | ⟨-, rfl⟩
    · exact .inr (next_inj.mp h ▸ .writesReg d _ hd (.inl ⟨v, rfl, rfl⟩))
    · exact .inl ⟨_, .inl rfl, rfl⟩
  | ldr d r =>
    rcases checkReg_next h with ⟨hd, h⟩ | ⟨-, rfl⟩
    · rcases readReg_next h with ⟨addr, hr, h⟩ | ⟨-, rfl⟩
      · rcases memRead_next h with ⟨ha, h⟩ | ⟨-, rfl⟩
        · exact .inr (next_inj.mp h ▸ .writesReg d _ hd (.inr (.inl ⟨r, addr, rfl, hr, ha, rfl⟩)))
        · exact .inl ⟨_, .inr rfl, rfl⟩
      · exact .inl ⟨_, .inl rfl, rfl⟩
    · exact .inl ⟨_, .inl rfl, rfl⟩
  | cpy d r =>
    rcases checkReg_next h with ⟨hd, h⟩ | ⟨-, rfl⟩
    · rcases readReg_next h with ⟨v, hr, h⟩ | ⟨-, rfl⟩
      · exact .inr (next_inj.mp h ▸ .writesReg d _ hd (.inr (.inr (.inl ⟨r, rfl, hr⟩))))
      · exact .inl ⟨_, .inl rfl, rfl⟩
    · exact .inl ⟨_, .inl rfl, rfl⟩
  | str v r =>
    rcases readReg_next h with ⟨val, hv, h⟩ | ⟨-, rfl⟩
    · rcases readReg_next h with ⟨addr, hr, h⟩ | ⟨-, rfl⟩
      · rcases memWrite_next h with ⟨ha, h⟩ | ⟨-, rfl⟩
        · exact .inr (next_inj.mp h ▸ .stores v r val addr rfl hv hr ha)
        · exact .inl ⟨_, .inr rfl, rfl⟩
      · exact .inl ⟨_, .inl rfl, rfl⟩
    · exact .inl ⟨_, .inl rfl, rfl⟩
  | add d r =>
    rcases readReg_next h with ⟨p, hp, h⟩ | ⟨-, rfl⟩
    · rcases readReg_next h with ⟨q, hq, h⟩ | ⟨-, rfl⟩
      · exact .inr (next_inj.mp h ▸ .writesReg d _ (lt_numReg_of_getElem? hp)
          (.inr (.inr (.inr (.inl ⟨r, p, q, rfl, hp, hq, rfl⟩)))))
      · exact .inl ⟨_, .inl rfl, rfl⟩
    · exact .inl ⟨_, .inl rfl, rfl⟩
  | sub d r =>
    rcases readReg_next h with ⟨p, hp, h⟩ | ⟨-, rfl⟩
    · rcases readReg_next h with ⟨q, hq, h⟩ | ⟨-, rfl⟩
      · exact .inr (next_inj.mp h ▸ .writesReg d _ (lt_numReg_of_getElem? hp)
          (.inr (.inr (.inr (.inr ⟨r, p, q, rfl, hp, hq, rfl⟩)))))
      · exact .inl ⟨_, .inl rfl, rfl⟩
    · exact .inl ⟨_, .inl rfl, rfl⟩
  | beq r target =>
    rcases readReg_next h with ⟨v, hr, h⟩ | ⟨-, rfl⟩
    · cases hz : isZero v with
      | true => rw [hz, if_pos rfl] at h; exact .inr (next_inj.mp h ▸ .taken r target v hr (.inl ⟨rfl, hz⟩))
      | false =>
        rw [hz, if_neg (by decide)] at h
        exact .inr (next_inj.mp h ▸ .notTaken r target v hr (.inl ⟨rfl, hz⟩))
    · exact .inl ⟨_, .inl rfl, rfl⟩
  | bne r target =>
    rcases readReg_next h with ⟨v, hr, h⟩ | ⟨-, rfl⟩
    · cases hz : isZero v with
      | true =>
        simp only [hz] at h
        exact .inr (next_inj.mp h ▸ .notTaken r target v hr (.inr ⟨rfl, hz⟩))
      | false =>
        simp only [hz] at h
        exact .inr (next_inj.mp h ▸ .taken r target v hr (.inr ⟨rfl, hz⟩))
    · exact .inl ⟨_, .inl rfl, rfl⟩
  | prr r =>
    rcases readReg_next h with ⟨v, hr, h⟩ | ⟨-, rfl⟩
    · exact .inr (next_inj.mp h ▸ .prints r v v hr (.inl ⟨rfl, rfl⟩))
    · exact .inl ⟨_, .inl rfl, rfl⟩
  | prm r =>
    rcases readReg_next h with ⟨v, hr, h⟩ | ⟨-, rfl⟩
    · rcases memRead_next h with ⟨ha, h⟩ | ⟨-, rfl⟩
      · exact .inr (next_inj.mp h ▸ .prints r v _ hr (.inr ⟨rfl, ha, rfl⟩))
      · exact .inl ⟨_, .inr rfl, rfl⟩
    · exact .inl ⟨_, .inl rfl, rfl⟩
  | brk => exact absurd rfl hb

end Sys2Proof.Machine
end

