-- ==== Sys2Proof/Laws/Loader.lean ====
section
/-! SUPPORT. What the loader can answer. -/

namespace Sys2Proof.Machine

variable {program : List Nat} {s t : State}

/-- A program that fits and holds only words gives its launch state. -/
theorem loadProgram_of_words (hl : program.length ≤ s.cfg.ramLen) (hw : ∀ w ∈ program, w < 2 ^ s.cfg.wordBits) :
    loadProgram program s = .next (launch s.cfg s.numReg program s.cmds) := by
  have : (program.find? fun w => decide (2 ^ s.cfg.wordBits ≤ w)) = none :=
    List.find?_eq_none.mpr fun w h => by simpa using hw w h
  simp [loadProgram, hl, this]

theorem loadProgram_of_long (hl : s.cfg.ramLen < program.length) :
    loadProgram program s = .refused (.programTooLong program.length) := if_neg (Nat.not_le.mpr hl)

/-- All a load that succeeds can have done. -/
theorem loadProgram_next (h : loadProgram program s = .next t) :
    program.length ≤ s.cfg.ramLen ∧ (∀ w ∈ program, w < 2 ^ s.cfg.wordBits) ∧
      t = launch s.cfg s.numReg program s.cmds := by
  unfold loadProgram at h
  split at h
  · rename_i hl
    split at h
    · rename_i e
      cases h
      exact ⟨hl, fun w hw => by simpa using List.find?_eq_none.mp e w hw, rfl⟩
    · cases h
  · cases h

end Sys2Proof.Machine
end

