-- ==== Sys2Proof/Laws/PerInstr.lean ====
section
/-! SUPPORT. Per instruction: in every configuration whose codes meet the constraints of R4, the triple an instruction
is laid out in selects that very instruction, by its own row's opcode. -/

namespace Sys2Proof.Laws.FieldLayout

/-- The triple of `i` carries the opcode of `i`'s row, and dispatch on it gives `i` back. -/
def Statement (i : Instr) : Prop :=
  ∀ c : Config, c.codesOk = true → (i.fields c).op = opcode c i.mnemonic ∧ instrOf c (i.fields c) = some i

/-- The common step: dispatch on a row's own code finds that row. -/
theorem of_row {i : Instr} (ho : ∀ c, (i.fields c).op = opcode c i.mnemonic)
    (hi : ∀ c, mnemonicOf c (i.fields c).op = some i.mnemonic → instrOf c (i.fields c) = some i) : Statement i :=
  fun c hc => ⟨ho c, hi c (ho c ▸ mnemonicOf_opcode hc _)⟩

theorem hlt : Statement .hlt := of_row (fun _ => rfl) fun _ h => by rw [instrOf, h]; rfl
theorem ldc (d v : Nat) : Statement (.ldc d v) := of_row (fun _ => rfl) fun _ h => by rw [instrOf, h]; rfl
theorem ldr (d s : Nat) : Statement (.ldr d s) := of_row (fun _ => rfl) fun _ h => by rw [instrOf, h]; rfl
theorem cpy (d s : Nat) : Statement (.cpy d s) := of_row (fun _ => rfl) fun _ h => by rw [instrOf, h]; rfl
theorem str (v s : Nat) : Statement (.str v s) := of_row (fun _ => rfl) fun _ h => by rw [instrOf, h]; rfl
theorem add (d s : Nat) : Statement (.add d s) := of_row (fun _ => rfl) fun _ h => by rw [instrOf, h]; rfl
theorem sub (d s : Nat) : Statement (.sub d s) := of_row (fun _ => rfl) fun _ h => by rw [instrOf, h]; rfl
theorem beq (t target : Nat) : Statement (.beq t target) := of_row (fun _ => rfl) fun _ h => by rw [instrOf, h]; rfl
theorem bne (t target : Nat) : Statement (.bne t target) := of_row (fun _ => rfl) fun _ h => by rw [instrOf, h]; rfl
theorem prr (s : Nat) : Statement (.prr s) := of_row (fun _ => rfl) fun _ h => by rw [instrOf, h]; rfl
theorem prm (s : Nat) : Statement (.prm s) := of_row (fun _ => rfl) fun _ h => by rw [instrOf, h]; rfl
theorem brk : Statement .brk := of_row (fun _ => rfl) fun _ h => by rw [instrOf, h]; rfl

end Sys2Proof.Laws.FieldLayout
end

