-- ==== Sys2Proof/Laws/Step.lean ====
section
/-! SUPPORT. What reaching a sentinel, `Execute` and one step can do: the inversion lemmas that claims about a
step cite. -/

namespace Sys2Proof.Machine

variable {s t : State}

/-! ### Execute -/

theorem execute_of_none {f : Fields} (h : instrOf s.cfg f = none) :
    execute f s = .next (raise .unknownOpcode s.ip (advance s)) := by simp [execute, h]

theorem execute_of_brk {f : Fields} (h : instrOf s.cfg f = some .brk) :
    execute f s = .next (raise .unknownOpcode s.ip (advance s)) := by simp [execute, h]

theorem execute_of_some {f : Fields} {i : Instr} (h : instrOf s.cfg f = some i) (hb : i ≠ .brk) :
    execute f s = exec i s := by
  unfold execute
  rw [h]
  cases i <;> first | rfl | exact absurd rfl hb

theorem execute_next {f : Fields} (h : execute f s = .next t) :
    t = raise .unknownOpcode s.ip (advance s) ∨
      ∃ i, i ≠ .brk ∧ instrOf s.cfg f = some i ∧ exec i s = .next t := by
  cases e : instrOf s.cfg f with
  | none => rw [execute_of_none e] at h; exact .inl (next_inj.mp h).symm
  | some i =>
    by_cases hb : i = .brk
    · rw [execute_of_brk (hb ▸ e)] at h; exact .inl (next_inj.mp h).symm
    · rw [execute_of_some e hb] at h; exact .inr ⟨i, hb, rfl, h⟩

/-- A triple of no row, or of the sentinel, raises `UnknownOpcode`; any other raises a fault of its checks or has its
instruction's effect. -/
theorem execute_cases {f : Fields} (h : execute f s = .next t) :
    (∃ k, k ≠ .ipOutOfBounds ∧ t = raise k s.ip (advance s)) ∨
      ∃ i, i ≠ .brk ∧ instrOf s.cfg f = some i ∧ Effect i s t := by
  rcases execute_next h with rfl | ⟨i, hb, hi, h⟩
  · exact .inl ⟨_, by decide, rfl⟩
  · rcases exec_next hb h with ⟨k, hk, rfl⟩ | h
    · exact .inl ⟨k, by rcases hk with rfl | rfl <;> decide, rfl⟩
    · exact .inr ⟨i, hb, hi, h⟩

/-! ### The sentinel -/

theorem isSentinel_iff {c : Config} (hc : c.codesOk = true) {w : Nat} :
    isSentinel c w = true ↔ instrOf c (decodeFields c w) = some .brk := by
  constructor
  · intro h
    have h : (decodeFields c w).op = opcode c .brk := by simpa [isSentinel] using h
    simp [instrOf, h, mnemonicOf_opcode hc]
  · intro h
    have := opcode_of_instrOf h
    simp [isSentinel, ← this, Instr.mnemonic]

theorem execBrk_plain (h : s.cfg.build = .plain) :
    execBrk s = .next (raise .unknownOpcode s.ip (advance s)) := by simp [execBrk, h]

theorem execBrk_of_some {w : Nat} (h : s.cfg.build = .debugger) (hw : lookupCell s.breaks s.ip = some w) :
    execBrk s = .next (trap (decodeFields s.cfg w) s) := by simp [execBrk, h, hw]

theorem execBrk_of_none (h : s.cfg.build = .debugger) (hw : lookupCell s.breaks s.ip = none) :
    execBrk s = .next (raise .unknownOpcode s.ip s) := by simp [execBrk, h, hw]

/-- The debugger build at a sentinel: the trap, or the fault where the table has no entry. -/
theorem execBrk_cases (hd : s.cfg.build = .debugger) (h : execBrk s = .next t) :
    (∃ w, lookupCell s.breaks s.ip = some w ∧ t = trap (decodeFields s.cfg w) s) ∨
      lookupCell s.breaks s.ip = none ∧ t = raise .unknownOpcode s.ip s := by
  cases e : lookupCell s.breaks s.ip with
  | some w => rw [execBrk_of_some hd e] at h; exact .inl ⟨w, rfl, (next_inj.mp h).symm⟩
  | none => rw [execBrk_of_none hd e] at h; exact .inr ⟨rfl, (next_inj.mp h).symm⟩

/-! ### Fetch -/

theorem fetch_of_lt {k : Nat → Result} (h : s.ip < s.cfg.ramLen) : fetch s k = k (s.mem.read s.ip) := if_pos h

theorem fetch_of_le {k : Nat → Result} (h : s.cfg.ramLen ≤ s.ip) :
    fetch s k = .next (raise .ipOutOfBounds s.ip s) := if_neg (Nat.not_lt.mpr h)

/-! ### The step on each kind of state -/

theorem step_plain (h : s.plainReady) : step s = plainCycle s := by
  obtain ⟨hb, hf, hr⟩ := h
  simp [step, runStep, hf, hr, hb]

theorem step_atTop (h : s.atTop) : step s = iterationTop s := by
  obtain ⟨hb, hf, hr | ⟨hr, hi⟩⟩ := h
  · simp [step, runStep, hf, hr, hb, debugStep]
  · simp [step, runStep, hf, hr, hb, debugStep, hi]

theorem step_paused {f : Fields} (h : s.pausedWith f) : step s = interact f s := by
  obtain ⟨hb, hf, hr, hi⟩ := h
  simp [step, runStep, hf, hr, hb, debugStep, hi]

theorem step_command {f : Fields} {c : Command} {rest : List Command} (h : s.pausedWith f)
    (hc : s.cmds = c :: rest) : step s = command c f { s with cmds := rest } := by
  rw [step_paused h, interact, hc]

/-- What one command of the interactive loop does. -/
theorem command_next {c : Command} {f : Fields} (h : command c f s = .next t) :
    ((c = .quit ∨ c = .endOfInput) ∧ t = resume .finished s) ∨
    (c = .step ∧ execute f (resume .stepping s) = .next t) ∨
    (c = .run ∧ execute f (resume .running s) = .next t) ∨
    (∃ b, c = .setBreak b ∧ t = commandSetBreak b s) ∨
    (∃ b, c = .clearBreak b ∧ t = commandClearBreak b s) ∨
    (c = .empty ∧ t = s) ∨
    ∃ r, t = respond r s ∧ ((∃ x, c = .unknown x) ∨ c = .disassemble ∨ c = .showMemory) := by
  cases c <;> simp [command] at h ⊢ <;> first | exact h.symm | exact h | exact ⟨_, h.symm⟩

/-- From where, and how, a step answers a next state. -/
inductive StepCase (s : State) : State → Prop where
  /-- The fetch is out of range. -/
  | outOfRange (h : s.plainReady ∨ s.atTop) (hip : s.cfg.ramLen ≤ s.ip) :
      StepCase s (raise .ipOutOfBounds s.ip s)
  /-- A cycle of the plain build, or of the debugger build in RUNNING away from a sentinel. -/
  | runs {t : State} (h : s.plainReady ∨ s.atTop ∧ s.runState = .running ∧ isSentinel s.cfg (s.mem.read s.ip) = false)
      (hip : s.ip < s.cfg.ramLen) (he : execute (decodeFields s.cfg (s.mem.read s.ip)) s = .next t) : StepCase s t
  /-- The debugger build reaches a sentinel. -/
  | sentinel {t : State} (h : s.atTop) (hip : s.ip < s.cfg.ramLen) (hs : isSentinel s.cfg (s.mem.read s.ip) = true)
      (he : execBrk s = .next t) : StepCase s t
  /-- The debugger build in STEPPING pauses before the instruction. -/
  | pauses (h : s.atTop) (hr : s.runState = .stepping) (hip : s.ip < s.cfg.ramLen)
      (hs : isSentinel s.cfg (s.mem.read s.ip) = false) : StepCase s (pause (decodeFields s.cfg (s.mem.read s.ip)) s)
  /-- The paused core reads a command. -/
  | reads {t : State} (f : Fields) (c : Command) (rest : List Command) (h : s.pausedWith f)
      (hc : s.cmds = c :: rest) (he : command c f { s with cmds := rest } = .next t) : StepCase s t

theorem plainCycle_next (hp : s.plainReady) (h : plainCycle s = .next t) : StepCase s t := by
  rcases Nat.lt_or_ge s.ip s.cfg.ramLen with hip | hip
  · rw [plainCycle, fetch_of_lt hip] at h
    exact .runs (.inl hp) hip h
  · rw [plainCycle, fetch_of_le hip] at h
    exact next_inj.mp h ▸ .outOfRange (.inl hp) hip

theorem iterationTop_next (ht : s.atTop) (h : iterationTop s = .next t) : StepCase s t := by
  rcases Nat.lt_or_ge s.ip s.cfg.ramLen with hip | hip
  · rw [iterationTop, fetch_of_lt hip] at h
    cases hs : isSentinel s.cfg (s.mem.read s.ip) with
    | true => rw [hs, if_pos rfl] at h; exact .sentinel ht hip hs h
    | false =>
      rw [hs, if_neg (by decide)] at h
      by_cases hr : s.runState = .stepping
      · rw [if_pos hr] at h
        exact next_inj.mp h ▸ .pauses ht hr hip hs
      · rw [if_neg hr] at h
        exact .runs (.inr ⟨ht, ht.2.2.resolve_right fun h => hr h.1, hs⟩) hip h
  · rw [iterationTop, fetch_of_le hip] at h
    exact next_inj.mp h ▸ .outOfRange (.inr ht) hip

/-- A state in which a step answers at all is one of three kinds. -/
theorem step_next (h : step s = .next t) : StepCase s t := by
  cases hf : s.fault with
  | some r => simp [step, runStep, hf] at h
  | none =>
    cases hr : s.runState with
    | finished => simp [step, runStep, hf, hr] at h
    | running =>
      cases hb : s.cfg.build with
      | plain =>
        have hp : s.plainReady := ⟨hb, hf, hr⟩
        exact plainCycle_next hp (step_plain hp ▸ h)
      | debugger =>
        have ht : s.atTop := ⟨hb, hf, .inl hr⟩
        exact iterationTop_next ht (step_atTop ht ▸ h)
    | stepping =>
      cases hb : s.cfg.build with
      | plain => simp [step, runStep, hf, hr, hb] at h
      | debugger =>
        cases hi : s.ir with
        | none =>
          have ht : s.atTop := ⟨hb, hf, .inr ⟨hr, hi⟩⟩
          exact iterationTop_next ht (step_atTop ht ▸ h)
        | some f =>
          have hp : s.pausedWith f := ⟨hb, hf, hr, hi⟩
          cases hc : s.cmds with
          | nil => simp [step_paused hp, interact, hc] at h
          | cons c rest => exact .reads f c rest hp hc (step_command hp hc ▸ h)

end Sys2Proof.Machine
end

