-- ==== Sys2Proof/Laws/Text.lean ====
section
/-! SUPPORT. The small laws of assembly text: decimals, tokens, mnemonics. -/

namespace Sys2Proof.Machine

theorem isDigit_of_mem_decimal (v : Nat) : ∀ c ∈ decimal v, c.isDigit = true :=
  fun _ h => Nat.isDigit_of_mem_toDigits (b := 10) (by decide) (by decide) h

theorem decimal_ne_nil (v : Nat) : decimal v ≠ [] := Nat.toDigits_ne_nil

/-- Reading a decimal gives the number it was written from. -/
@[simp] theorem parseDecimal_decimal (v : Nat) : parseDecimal (decimal v) = some v := by
  have h : (decimal v).foldl (fun n c => 10 * n + (c.toNat - 48)) 0 = v := by
    have := Nat.ofDigitChars_ten_toDigits (n := v)
    rwa [Nat.ofDigitChars_eq_foldl] at this
  simp [parseDecimal, h, decimal_ne_nil, List.all_eq_true.mpr (isDigit_of_mem_decimal v)]

theorem space_notMem_decimal (v : Nat) : ' ' ∉ decimal v := fun h => by
  have := isDigit_of_mem_decimal v _ h
  revert this
  decide

theorem space_notMem_regText (v : Nat) : ' ' ∉ regText v := by simp [regText, space_notMem_decimal]

theorem regText_ne_nil (v : Nat) : regText v ≠ [] := by simp [regText]

theorem space_notMem_mnemonicText (m : Mnemonic) : ' ' ∉ mnemonicText m := by cases m <;> decide

theorem mnemonicText_ne_nil (m : Mnemonic) : mnemonicText m ≠ [] := by cases m <;> decide

@[simp] theorem parseMnemonic_mnemonicText (m : Mnemonic) : parseMnemonic (mnemonicText m) = some m := by
  cases m <;> decide

theorem tokensFrom_append (w acc : Text) (h : ' ' ∉ w) (rest : Text) :
    tokensFrom acc (w ++ rest) = tokensFrom (w.reverse ++ acc) rest := by
  induction w generalizing acc with
  | nil => rfl
  | cons c w ih =>
    simp only [List.mem_cons, not_or] at h
    rw [List.cons_append, tokensFrom, if_neg (Ne.symm h.1), ih _ h.2]
    simp

/-- The last token of a line. -/
theorem tokensFrom_last (w : Text) (h : ' ' ∉ w) (hn : w ≠ []) : tokensFrom [] w = [w] := by
  have := tokensFrom_append w [] h []
  rw [List.append_nil] at this
  rw [this, tokensFrom]
  simp [hn]

/-- A token and a space. -/
theorem tokensFrom_cons (w : Text) (h : ' ' ∉ w) (hn : w ≠ []) (rest : Text) :
    tokensFrom [] (w ++ ' ' :: rest) = w :: tokensFrom [] rest := by
  rw [tokensFrom_append w [] h, tokensFrom]
  simp [hn]

theorem resolveReg_regText {numReg d : Nat} (h : d < numReg) : resolveReg numReg (regText d) = .ok d := by
  simp [resolveReg, regText, h]

theorem fieldValue_of_lt {c : Config} {v : Nat} (t : Text) (h : v < 2 ^ c.opShift) : fieldValue c t v = .ok v :=
  if_pos h

theorem fieldValue_of_le {c : Config} {v : Nat} (t : Text) (h : 2 ^ c.opShift ≤ v) :
    fieldValue c t v = .error (.valueOutOfRange t) := if_neg (Nat.not_lt.mpr h)

theorem resolveValue_decimal {c : Config} (labels : LabelTable) {v : Nat} (h : v < 2 ^ c.opShift) :
    resolveValue c labels (decimal v) = .ok v := by
  have hne : ∀ name, decimal v ≠ '@' :: name := by
    intro name h
    have := isDigit_of_mem_decimal v '@' (by rw [h]; simp)
    revert this
    decide
  unfold resolveValue
  split
  · rename_i h
    exact absurd h (hne _)
  · rw [parseDecimal_decimal]
    exact fieldValue_of_lt _ h

theorem resolveValue_label {c : Config} {labels : LabelTable} {name : Text} {v : Nat}
    (hl : labels.lookup name = some v) (h : v < 2 ^ c.opShift) : resolveValue c labels ('@' :: name) = .ok v := by
  simp [resolveValue, hl, fieldValue_of_lt _ h]

/-! ### What resolving and compiling can give -/

theorem resolveReg_ok {numReg r : Nat} {t : Text} (h : resolveReg numReg t = .ok r) : r < numReg := by
  unfold resolveReg at h
  repeat' split at h
  all_goals first | (cases h; assumption) | cases h

theorem fieldValue_ok {c : Config} {t : Text} {n v : Nat} (h : fieldValue c t n = .ok v) : v < 2 ^ c.opShift := by
  unfold fieldValue at h
  split at h
  · cases h; assumption
  · cases h

theorem resolveValue_ok {c : Config} {labels : LabelTable} {t : Text} {v : Nat}
    (h : resolveValue c labels t = .ok v) : v < 2 ^ c.opShift := by
  unfold resolveValue at h
  repeat' split at h
  all_goals first | exact fieldValue_ok h | cases h

/-- The triple that resolving the operands of a line gives, by the format. -/
theorem resolveOperands_ok {c : Config} {numReg : Nat} {labels : LabelTable} {line : Text} {m : Mnemonic}
    {operands : List Text} {f : Fields} (h : resolveOperands c numReg labels line m operands = .ok f) :
    (formatOf m = .noOperand ∧ f = ⟨opcode c m, 0, 0⟩) ∨
    (∃ r, formatOf m = .reg ∧ r < numReg ∧ f = ⟨opcode c m, r, 0⟩) ∨
    (∃ r q, formatOf m = .regReg ∧ r < numReg ∧ q < numReg ∧ f = ⟨opcode c m, r, q⟩) ∨
    (∃ r v, formatOf m = .regValue ∧ r < numReg ∧ v < 2 ^ c.opShift ∧ f = ⟨opcode c m, r, v⟩) := by
  unfold resolveOperands at h
  repeat' split at h
  all_goals first
    | cases h; done
    | (cases h; exact .inl ⟨‹_›, rfl⟩)
    | (cases h; exact .inr (.inl ⟨_, ‹_›, resolveReg_ok ‹_›, rfl⟩))
    | (cases h; exact .inr (.inr (.inl ⟨_, _, ‹_›, resolveReg_ok ‹_›, resolveReg_ok ‹_›, rfl⟩)))
    | (cases h; exact .inr (.inr (.inr ⟨_, _, ‹_›, resolveReg_ok ‹_›, resolveValue_ok ‹_›, rfl⟩)))

/-- A compiled line is the packing of its mnemonic's code and its resolved operands. -/
theorem compileLine_ok {c : Config} {numReg : Nat} {labels : LabelTable} {line : Text} {w : Nat}
    (h : compileLine c numReg labels line = .ok w) :
    ∃ m operands f, resolveOperands c numReg labels line m operands = .ok f ∧ w = encodeFields c f := by
  unfold compileLine at h
  repeat' split at h
  all_goals first | (cases h; exact ⟨_, _, _, ‹_›, rfl⟩) | cases h

end Sys2Proof.Machine
end

