-- ==== Sys2Proof/Tests/Slice0.lean ====
section
/-! SUPPORT. The WellFormed smoke, decode tests, one-step tests with expected values from 95_test_vectors.md, and a
witness for every obligation that has hypotheses. -/

open Sys2Proof Sys2Proof.Machine Sys2Proof.Claims

namespace Sys2Proof.Tests

/-! ### Small states -/

/-- The reference configuration. -/
abbrev ref : Config := Config.reference

/-- The plain build, RUNNING. -/
def cpu (regs : List Nat) (ip : Nat) (mem : Memory) : State :=
  { State.reset with regs := regs, ip := ip, mem := mem }

/-- The reference configuration in the debugger build. -/
def debugCfg : Config := { ref with build := .debugger }

/-- Another configuration that meets the constraints of R4. -/
def wide : Config :=
  { ref with opShift := 4, wordBits := 32, hexWidth := 8, codes := { referenceCodes with hlt := 15, brk := 1 } }

/-- The debugger build at the top of an iteration, in the given `run_state`. -/
def top (r : RunState) (ip : Nat) (mem : Memory) (breaks : BreakTable) : State :=
  { cpu [1, 2, 3, 4] ip mem with cfg := debugCfg, runState := r, breaks := breaks }

/-- The debugger build paused with the word `w` held and one command waiting. -/
def held (w : Nat) (c : Command) (mem : Memory) (breaks : BreakTable) : State :=
  { top .stepping 1 mem breaks with ir := some (decodeFields ref w), cmds := [c] }

/-- The state after a step, where there is one. -/
def after (s : State) : Option State :=
  match step s with
  | .next t => some t
  | .fault _ => none
  | .refused _ => none

theorem cpu_ready (regs : List Nat) (ip : Nat) (mem : Memory) : (cpu regs ip mem).plainReady := ⟨rfl, rfl, rfl⟩

theorem top_stepping (ip : Nat) (mem : Memory) (breaks : BreakTable) : (top .stepping ip mem breaks).atTop :=
  ⟨rfl, rfl, .inr ⟨rfl, rfl⟩⟩

theorem top_running (ip : Nat) (mem : Memory) (breaks : BreakTable) : (top .running ip mem breaks).atTop :=
  ⟨rfl, rfl, .inl rfl⟩

theorem held_paused (w : Nat) (c : Command) (mem : Memory) (breaks : BreakTable) :
    (held w c mem breaks).pausedWith (decodeFields ref w) := ⟨rfl, rfl, rfl, rfl⟩

/-! ### WellFormed refuses an ill-formed term at each check: a register 4 of 4, a value 256 of 8 bits -/

/-- Well-formed on the reference machine. -/
def good (i : Instr) : Bool := i.wf ref 4

theorem test_wf_ldc : good (.ldc 4 0) = false ∧ good (.ldc 3 256) = false ∧ good (.ldc 3 255) = true := by decide
theorem test_wf_ldr : good (.ldr 4 0) = false ∧ good (.ldr 0 4) = false := by decide
theorem test_wf_cpy : good (.cpy 4 0) = false ∧ good (.cpy 0 4) = false := by decide
theorem test_wf_str : good (.str 4 0) = false ∧ good (.str 0 4) = false := by decide
theorem test_wf_add : good (.add 4 0) = false ∧ good (.add 0 255) = false := by decide
theorem test_wf_sub : good (.sub 4 0) = false ∧ good (.sub 0 4) = false := by decide
theorem test_wf_beq : good (.beq 4 0) = false ∧ good (.beq 3 256) = false ∧ good (.beq 3 255) = true := by decide
theorem test_wf_bne : good (.bne 4 0) = false ∧ good (.bne 0 256) = false := by decide
theorem test_wf_prr : good (.prr 4) = false := by decide
theorem test_wf_prm : good (.prm 4) = false := by decide

/-- Where there are more registers than a field can name, the operand must fit the field too. -/
theorem test_fits :
    [Instr.ldc 256 0, .ldr 0 256, .cpy 256 0, .str 0 256, .add 256 0, .sub 0 256, .beq 256 0, .bne 256 0, .prr 256,
      .prm 256].map (fun i => (i.regsOk 257, i.fits ref)) = List.replicate 10 (true, false) := by decide

/-- Each constraint of R4 on a configuration is checked. -/
theorem test_config_wf :
    ref.wf = true ∧ wide.wf = true ∧ { ref with opShift := 0 }.wf = false ∧
    { ref with wordBits := 23 }.wf = false ∧ { ref with ramLen := 0 }.wf = false ∧
    { ref with ramLen := 2 ^ 24 + 1 }.wf = false ∧
    { ref with codes := { referenceCodes with hlt := 0 } }.wf = false ∧
    { ref with codes := { referenceCodes with brk := 256 } }.wf = false ∧
    { ref with codes := { referenceCodes with prm := 10 } }.wf = false := by decide

/-! ### Another configuration: 4-bit fields, words of 32 bits, `hlt` and `brk` with each other's code -/

theorem test_wide_fields :
    decodeFields wide 0xFFFF3210 = ⟨0, 1, 2⟩ ∧ encodeFields wide ⟨2, 1, 13⟩ = 0xD12 ∧
    decode wide 0xABCD0D12 = .ok (.ldc 1 13) ∧ decode wide 0xF = .ok .hlt ∧ decode wide 1 = .ok .brk := by decide

/-- The sum wraps at 32 bits; the program file has eight digits. -/
theorem test_wide_words :
    (after { cpu [0xFFFFFFFF, 2] 0 [(0, 0x106)] with cfg := wide }).map State.regs = some [1, 2] ∧
    hexLine wide 0xD12 = ['0', '0', '0', '0', '0', 'd', '1', '2'] ∧
    compileLine wide 2 [] ['l', 'd', 'c', ' ', 'R', '1', ' ', '1', '6'] = .error (.valueOutOfRange ['1', '6']) := by
  decide

/-! ### Decode: words written out from 30_encoding.md R51 and R56 (opcode lowest), vectors EN1 to EN14 -/

theorem test_decode_hlt : decode ref 0b00000000_00000000_00000001 = .ok .hlt := by decide
theorem test_decode_ldc : decode ref 0b11111111_00000011_00000010 = .ok (.ldc 3 255) := by decide
theorem test_decode_ldr : decode ref 0b00000001_00000010_00000011 = .ok (.ldr 2 1) := by decide
theorem test_decode_cpy : decode ref 0b00000011_00000000_00000100 = .ok (.cpy 0 3) := by decide
theorem test_decode_str : decode ref 0b00000000_00000001_00000101 = .ok (.str 1 0) := by decide
theorem test_decode_add : decode ref 0b00000000_00000010_00000110 = .ok (.add 2 0) := by decide
theorem test_decode_sub : decode ref 0b00000001_00000000_00000111 = .ok (.sub 0 1) := by decide
theorem test_decode_beq : decode ref 0b00000010_00000000_00001000 = .ok (.beq 0 2) := by decide
theorem test_decode_bne : decode ref 0b00000011_00000000_00001001 = .ok (.bne 0 3) := by decide
theorem test_decode_prr : decode ref 0b00000000_00000010_00001010 = .ok (.prr 2) := by decide
theorem test_decode_prm : decode ref 0b00000000_00000000_00001011 = .ok (.prm 0) := by decide
theorem test_decode_brk : decode ref 0b00000000_00000000_00001111 = .ok .brk := by decide
theorem test_decode_unused_fields : decode ref 0x123401 = .ok .hlt ∧ decode ref 0xFF000A = .ok (.prr 0) := by decide
theorem test_decode_opcode_zero : decode ref 0x000000 = .error (.unknownOpcode 0) := by decide
theorem test_decode_opcode_255 : decode ref 0xFFFFFF = .error (.unknownOpcode 255) := by decide
theorem test_decode_fields_order : decodeFields ref 0x030201 = ⟨1, 2, 3⟩ ∧
    encodeFields ref ⟨171, 205, 239⟩ = 0xEFCDAB := by
  decide

/-! ### One step: vectors HL, MV, AR, BR, OU -/

/-- HL3: `hlt` in the last word. -/
theorem test_hlt_last_word : (after (cpu [0, 0, 0, 0] 255 [(255, 0x000001)])).map
    (fun t => (t.ip, t.runState, t.fault)) = some (256, .finished, none) := by decide

/-- HL4: opcode 0. -/
theorem test_opcode_zero_faults : (after (cpu [1, 2, 3, 4] 10 [])).map
    (fun t => (t.ip, t.runState, t.fault)) = some (11, .running, some ⟨.unknownOpcode, 10⟩) := by decide

/-- HL9: a fetch at 256. -/
theorem test_fetch_out_of_range : (after (cpu [1, 2, 3, 4] 256 [])).map (fun t => (t.ip, t.fault)) =
    some (256, some ⟨.ipOutOfBounds, 256⟩) := by decide

/-- HL10 and HL11: nothing is enabled. -/
theorem test_ended_takes_no_step :
    after { cpu [0] 0 [(0, 1)] with runState := .finished } = none ∧
    after { cpu [0] 0 [(0, 1)] with fault := some ⟨.invalidAddress, 3⟩ } = none := by decide

/-- MV1: the upper bits are cleared. -/
theorem test_ldc_clears_upper : (after (cpu [0, 0, 0, 0xABCDEF] 10 [(10, 0xFF0302)])).map
    (fun t => (t.regs, t.ip)) = some ([0, 0, 0, 0x0000FF], 11) := by decide

/-- MV3: arg0 = 4. -/
theorem test_ldc_register_4 : (after (cpu [1, 2, 3, 4] 10 [(10, 0x090402)])).map
    (fun t => (t.regs, t.ip, t.fault)) = some ([1, 2, 3, 4], 11, some ⟨.invalidRegister, 10⟩) := by decide

/-- MV6: source and destination are the same register. -/
theorem test_ldr_same_register : (after (cpu [7, 0, 0, 0] 10 [(7, 0x123456), (10, 0x000003)])).map State.regs =
    some [0x123456, 0, 0, 0] := by decide

/-- MV8: the address is 256. -/
theorem test_ldr_address_256 : (after (cpu [256, 5, 0, 0] 10 [(10, 0x000103)])).map
    (fun t => (t.regs, t.fault)) = some ([256, 5, 0, 0], some ⟨.invalidAddress, 10⟩) := by decide

/-- MV12. -/
theorem test_cpy_direction : (after (cpu [0, 0, 0, 0x00ABCD] 10 [(10, 0x030004)])).map State.regs =
    some [0x00ABCD, 0, 0, 0x00ABCD] := by decide

/-- MV14: arg1 = 4. -/
theorem test_cpy_source_4 : (after (cpu [0, 9, 0, 0] 10 [(10, 0x040104)])).map
    (fun t => (t.regs, t.fault)) = some ([0, 9, 0, 0], some ⟨.invalidRegister, 10⟩) := by decide

/-- MV17: all 24 bits stored at the last address. -/
theorem test_str_last_word : (after (cpu [255, 0xFFFFFF, 0, 0] 10 [(10, 0x000105)])).map
    (fun t => (t.mem, t.ip)) = some ([(10, 0x000105), (255, 0xFFFFFF)], 11) := by decide

/-- MV22: the register check comes before the address check. -/
theorem test_str_register_before_address : (after (cpu [256, 42, 0, 0] 10 [(10, 0x000405)])).map State.fault =
    some (some ⟨.invalidRegister, 10⟩) := by decide

/-- AR2: the sum wraps. -/
theorem test_add_wraps : (after (cpu [0xFFFFFF, 1, 0, 0] 0 [(0, 0x010006)])).map
    (fun t => (t.regs, t.fault)) = some ([0, 1, 0, 0], none) := by decide

/-- AR1: the destination is arg0. -/
theorem test_add_destination : (after (cpu [3, 0, 3, 0] 0 [(0, 0x000206)])).map State.regs =
    some [3, 0, 6, 0] := by decide

/-- AR10: the difference wraps, in the order arg0 - arg1. -/
theorem test_sub_wraps : (after (cpu [5, 7, 0, 0] 0 [(0, 0x010007)])).map State.regs =
    some [0xFFFFFE, 7, 0, 0] := by decide

/-- AR13: arg0 = 200. -/
theorem test_sub_register_200 : (after (cpu [0, 1, 0, 0] 0 [(0, 0x01C807)])).map State.fault =
    some (some ⟨.invalidRegister, 0⟩) := by decide

/-- BR5: taken, the largest target. -/
theorem test_beq_taken : (after (cpu [0, 0, 0, 0] 10 [(10, 0xFF0208)])).map State.ip = some 255 := by decide

/-- BR4: all 24 bits are tested. -/
theorem test_beq_high_bit : (after (cpu [0x010000, 0, 0, 0] 10 [(10, 0x630008)])).map State.ip = some 11 := by
  decide

/-- BR7. -/
theorem test_bne_taken : (after (cpu [2, 0, 0, 0] 5 [(5, 0x030009)])).map State.ip = some 3 := by decide

/-- BR8. -/
theorem test_bne_not_taken : (after (cpu [0, 0, 0, 0] 5 [(5, 0x030009)])).map State.ip = some 6 := by decide

/-- The two prints of section 2.6: oldest first. -/
theorem test_prr_order : (after { cpu [1, 2, 0, 0] 11 [(11, 0x00010A)] with out := [1] }).map State.out =
    some [1, 2] := by decide

/-- OU4: arg0 = 4. -/
theorem test_prr_register_4 : (after (cpu [5, 0, 0, 0] 10 [(10, 0x00040A)])).map
    (fun t => (t.out, t.fault)) = some ([], some ⟨.invalidRegister, 10⟩) := by decide

/-- OU6: prints its own word. -/
theorem test_prm_own_word : (after (cpu [0, 10, 0, 0] 10 [(10, 0x00010B)])).map State.out = some [267] := by decide

/-- OU8: the address is 256. -/
theorem test_prm_address_256 : (after (cpu [0, 256, 0, 0] 10 [(10, 0x00010B)])).map
    (fun t => (t.out, t.fault)) = some ([], some ⟨.invalidAddress, 10⟩) := by decide

/-! ### The breakpoint unit and the run loop: vectors BP and DB -/

/-- HL8: `brk` in the plain build. -/
theorem test_brk_plain : (after (cpu [1, 2, 3, 4] 10 [(10, 0x00000F)])).map (fun t => (t.ip, t.fault)) =
    some (11, some ⟨.unknownOpcode, 10⟩) := by decide

/-- BP11: a sentinel without an entry. -/
theorem test_brk_no_entry : (after (top .stepping 1 [(1, 0x00000F)] [])).map (fun t => (t.ip, t.fault, t.ir)) =
    some (1, some ⟨.unknownOpcode, 1⟩, none) := by decide

/-- Scenario 5: the trap at address 1 holds the original instruction. -/
theorem test_trap_holds_original : (after (top .running 1 [(1, 0x00000F)] [(1, 0x410002)])).map
    (fun t => (t.ip, t.runState, t.ir)) = some (1, .stepping, some ⟨2, 0, 65⟩) := by decide

/-- Scenario 5: `Step` executes the original. -/
theorem test_step_executes_original :
    (after (held 0x410002 .step [(1, 0x00000F)] [(1, 0x410002)])).map (fun t => (t.regs, t.ip, t.mem)) =
      some ([65, 2, 3, 4], 2, [(1, 0x00000F)]) := by decide

/-- BP5: two set, one cleared. -/
theorem test_set_and_clear :
    (clearBreakpoint 0 (setBreakpoint 2 (setBreakpoint 0
      (top .stepping 0 [(0, 0x370002), (1, 0x410002), (2, 0x000001)] [])))).mem =
        [(0, 0x370002), (1, 0x410002), (2, 0x00000F)] := by decide

/-- BP12 and BP13: a stale entry. -/
theorem test_stale_entry :
    (clearBreakpoint 3 (top .stepping 0 [(3, 0x000001)] [(3, 0x00000A)])).breaks = [(3, 0x00000A)] ∧
    (setBreakpoint 3 (top .stepping 0 [(3, 0x000001)] [(3, 0x00000A)])).breaks = [(3, 0x000001)] := by decide

/-- BP7: out of range. -/
theorem test_set_break_256 : (after (held 0x000001 (.setBreak 256) [] [])).map (fun t => (t.breaks, t.rsp)) =
    some ([], [.softError]) := by decide

/-- DB5: the dump. -/
theorem test_dump :
    dump (top .stepping 0 [(0, 0x010002), (1, 0x020102), (2, 0x000001)] []) =
      .dump 0 [1, 2, 3, 4] [0x010002, 0x020102, 0x000001] := by decide +kernel

/-- DB3: `Quit` does not execute the instruction held. -/
theorem test_quit : (after (held 0x410002 .quit [] [])).map (fun t => (t.regs, t.ip, t.runState)) =
    some ([1, 2, 3, 4], 1, .finished) := by decide

/-! ### The loader, the assembler, the program file: vectors IN and AS -/

/-- IN5. -/
theorem test_long_program :
    (match loadProgram (List.replicate 257 0) State.reset with
      | .next _ => false
      | .fault _ => false
      | .refused r => decide (r = .programTooLong 257)) = true := by decide +kernel

/-- IN1. -/
theorem test_load : (launch debugCfg 4 [0x370002, 0, 0x000001] []).mem = [(0, 0x370002), (2, 0x000001)] ∧
    (launch debugCfg 4 [0x370002, 0, 0x000001] []).runState = .stepping := by decide

/-- IN7 and IN8. -/
theorem test_program_file :
    parseHexLine ref ['4', '1', '0', '0', '0'] = none ∧ parseHexLine ref ['4', '1', '0', '0', '0', 'g'] = none ∧
    parseHexLine ref ['0', '0', '0', '2', '0', 'A'] = none ∧
    parseHexLine ref ['0', '0', '0', '2', '0', 'a'] = some 0x00020A := by decide

/-- Scenario 3: a forward label. -/
theorem test_assemble_forward_label :
    assemble ref 4 [['b', 'e', 'q', ' ', 'R', '0', ' ', '@', 'e'], ['l', 'd', 'c', ' ', 'R', '0', ' ', '1'],
      ['e', ':'], ['h', 'l', 't']] = .ok [0x020008, 0x010002, 0x000001] := by decide

/-- Scenario 6: a duplicate label. -/
theorem test_assemble_duplicate_label :
    assemble ref 4 [['a', ':'], ['a', ':'], ['h', 'l', 't']] = .error (.duplicateLabel ['a']) := by decide

/-- AS6 and AS7: the end of RAM. -/
theorem test_assemble_data_bound :
    assemble ref 4 [['h', 'l', 't'], dataDivider, ['a', ':', ' ', '2', '5', '5']] = .ok [0x000001] ∧
    assemble ref 4 [['h', 'l', 't'], dataDivider, ['a', ':', ' ', '2', '5', '6']] = .error (.outOfMemory ['a']) := by
  decide

/-- A directive of the colon alone binds the empty name; one with white space in the name is malformed (log 18). -/
theorem test_directive_names :
    parseDirective [':', ' ', '3'] = some ([], 3) ∧ parseDirective ['a', Char.ofNat 9, ':', ' ', '3'] = none := by
  decide

/-- A number that is no word of RAM (log 23). -/
theorem test_word_out_of_range :
    loadProgram [1, 2 ^ 24] State.reset = .refused (.wordOutOfRange (2 ^ 24)) := rfl

/-- AS11. -/
theorem test_assemble_refused :
    compileLine ref 4 [] ['l', 'd', 'c', ' ', 'R', '0', ' ', '2', '5', '6'] =
      .error (.valueOutOfRange ['2', '5', '6']) ∧
    compileLine ref 4 [] ['a', 'd', 'd', ' ', 'R', '0', ' ', '1'] = .error (.invalidRegister ['1']) ∧
    compileLine ref 4 [] ['h', 'l', 't', ' ', 'R', '0'] =
      .error (.wrongOperandCount ['h', 'l', 't', ' ', 'R', '0']) := by decide

/-! ### The invariant holds somewhere -/

theorem reset_inv : State.reset.Inv where
  params := ⟨by decide, by decide⟩
  words := by unfold State.wordsOk; decide
  mem := ⟨by decide, by decide⟩
  breaks := ⟨by decide, by decide, fun _ _ h => by cases h⟩
  ip := by unfold State.ipOk; decide
  ir := fun _ h => by cases h
  plain := fun _ => by decide
  fault := fun _ h => by cases h
  ending := fun h => absurd rfl h

/-- The largest `ip` of the reference configuration. -/
theorem end_inv : (cpu [0, 0, 0, 0] 256 []).Inv where
  params := ⟨by decide, by decide⟩
  words := by unfold State.wordsOk; decide
  mem := ⟨by decide, by decide⟩
  breaks := ⟨by decide, by decide, fun _ _ h => by cases h⟩
  ip := by unfold State.ipOk; decide
  ir := fun _ h => by cases h
  plain := fun _ => by decide
  fault := fun _ h => by cases h
  ending := fun h => absurd rfl h

/-- A debugger state of four words of RAM with a breakpoint set at address 1. -/
def small : State :=
  { top .running 1 [(0, 0x370002), (1, 0x00000F)] [(1, 0x410002)] with cfg := { debugCfg with ramLen := 4 } }

theorem small_breaks (b : Nat) (w : Nat) (h : lookupCell small.breaks b = some w) : isSentinel small.cfg w = false := by
  rw [show small.breaks = [(1, 0x410002)] from rfl, lookupCell_cons] at h
  split at h
  · cases h
    decide
  · cases h

theorem small_inv : small.Inv where
  params := ⟨by decide, by decide⟩
  words := by unfold State.wordsOk; decide
  mem := ⟨by decide, by decide⟩
  breaks := ⟨by decide, by decide, small_breaks⟩
  ip := by unfold State.ipOk; decide
  ir := fun _ h => by cases h
  plain := fun h => by cases h
  fault := fun _ h => by cases h
  ending := fun h => absurd rfl h

theorem small_breakInvariant : small.BreakInvariant := by
  show ∀ b, b < 4 → _
  decide

/-! ### Witnesses: the hypotheses of each obligation are met, each clause at a boundary value -/

/-- The premise `cfg.wf = true` holds of every state used below, whatever its other fields, and of two
configurations. -/
theorem witness_wf (regs : List Nat) (r : RunState) (ip w : Nat) (c : Command) (mem : Memory) (b : BreakTable) :
    ref.wf = true ∧ wide.wf = true ∧ (cpu regs ip mem).cfg.wf = true ∧ (top r ip mem b).cfg.wf = true ∧
    (held w c mem b).cfg.wf = true ∧ small.cfg.wf = true :=
  ⟨by decide, by decide, by change ref.wf = true; decide, by change debugCfg.wf = true; decide,
    by change debugCfg.wf = true; decide, by decide⟩

theorem witness_DecodeOfEncodeIsIdentity :
    (Instr.bne 255 255).fits ref = true ∧ (Instr.ldc 15 0).fits wide = true := by decide

theorem witness_FieldAndAssemblyRoundTrips :
    (Instr.ldc 3 255).wf ref 4 = true ∧ (Instr.add 255 255).wf ref 256 = true ∧
    255 < 2 ^ ref.opShift ∧ 0xFFFFFF < 2 ^ (3 * ref.opShift) := by decide

theorem witness_PackingFormulaAndFields :
    parseDecimal ['2', '5', '6'] = some 256 ∧ List.lookup ['a'] [(['a'], 256)] = some 256 ∧
    2 ^ ref.opShift ≤ 256 := by decide

theorem witness_OpcodeTableAndInverse :
    opcode wide .hlt = opcode wide .hlt ∧ mnemonicOf wide 15 = some .hlt ∧ opcode wide .brk = 1 := by decide

theorem witness_UnusedFieldsAreIgnored :
    (mnemonicOf ref (decodeFields ref 0x000001).op = some .hlt ∧
      (decodeFields ref 0x123401).op = (decodeFields ref 0x000001).op ∧ formatOf .hlt = .noOperand) ∧
    (mnemonicOf ref (decodeFields ref 0x00020A).op = some .prr ∧
      (decodeFields ref 0xFF020A).op = (decodeFields ref 0x00020A).op ∧ formatOf .prr = .reg ∧
      (decodeFields ref 0xFF020A).arg0 = (decodeFields ref 0x00020A).arg0) ∧
    (4 ≤ 2 ^ ref.opShift ∧
      compileLine ref 4 [] ['p', 'r', 'r', ' ', 'R', '2'] = .ok 0x00020A) := by decide

theorem witness_ExecuteSelectsByOpcode :
    Mnemonic.prm ≠ .brk ∧ 11 = opcode ref .prm ∧
    (∀ m, m ≠ .brk → 15 ≠ opcode ref m) ∧ (∀ m, m ≠ .brk → 0 ≠ opcode ref m) :=
  ⟨by decide, rfl, fun m h => by cases m <;> first | exact absurd rfl h | decide,
    fun m _ => by cases m <;> decide⟩

theorem witness_StepRunsDecodedInstruction_plain :
    (cpu [0, 0, 0, 0] 255 [(255, 0x000001)]).plainReady ∧ 255 < (cpu [] 255 []).cfg.ramLen ∧
    decode ref (Memory.read [(255, 0x000001)] 255) = .ok .hlt := ⟨cpu_ready _ _ _, by decide, by decide⟩

theorem witness_StepRunsDecodedInstruction_top :
    ((top .running 1 [(1, 0x000001)] []).atTop ∧ decode ref (Memory.read [(1, 0x000001)] 1) = .ok .hlt) ∧
    ((top .stepping 1 [(1, 0x000001)] []).atTop ∧ (top .stepping 1 [(1, 0x000001)] []).runState = .stepping) ∧
    ((top .running 1 [(1, 0x00000F)] []).atTop ∧ decode ref (Memory.read [(1, 0x00000F)] 1) = .ok .brk) :=
  ⟨⟨top_running _ _ _, by decide⟩, ⟨top_stepping _ _ _, rfl⟩, ⟨top_running _ _ _, by decide⟩⟩

theorem witness_StepRunsDecodedInstruction_held :
    (held 0x410002 .step [] []).pausedWith (decodeFields ref 0x410002) ∧
    (held 0x410002 .run [] []).pausedWith (decodeFields ref 0x410002) ∧
    instrOf ref (decodeFields ref 0x410002) = some (.ldc 0 65) := ⟨held_paused _ _ _ _, held_paused _ _ _ _, by decide⟩

theorem witness_StepRunsDecodedInstruction_place :
    State.reset.cfg.wf = true ∧ 0x410002 < 2 ^ State.reset.cfg.instrBits ∧
    decode State.reset.cfg 0x410002 = .ok (.ldc 0 65) ∧
    (after (State.reset.withFetchWord 24 0x410002)).map State.regs = some [65, 0, 0, 0] := by decide

theorem witness_FetchChecksInstructionPointer :
    ((cpu [0] 255 []).ip < (cpu [0] 255 []).cfg.ramLen) ∧
    ((cpu [0] 256 []).plainReady ∧ (cpu [0] 256 []).cfg.ramLen ≤ (cpu [0] 256 []).ip) ∧
    ((top .stepping 256 [] []).atTop ∧ (top .stepping 256 [] []).cfg.ramLen ≤ (top .stepping 256 [] []).ip) ∧
    ((cpu [0, 0, 0, 0] 256 []).Inv ∧ (cpu [0, 0, 0, 0] 256 []).cfg.ramLen = 256 ∧
      (cpu [0, 0, 0, 0] 256 []).cfg.opShift = 8) :=
  ⟨by decide, ⟨cpu_ready _ _ _, by decide⟩, ⟨top_stepping _ _ _, by decide⟩, ⟨end_inv, rfl, rfl⟩⟩

theorem witness_HltFinishesTheRun :
    exec .hlt State.reset = .next { State.reset with ip := 1, runState := .finished } ∧
    (held 0x123401 .step [] []).pausedWith (decodeFields ref 0x123401) ∧ 
    (decodeFields ref 0x123401).op = opcode debugCfg .hlt ∧
    (held 0x123401 .step [] []).cmds = [.step] ∧ (held 0x123401 .run [] []).cmds = [.run] :=
  ⟨rfl, held_paused _ _ _ _, rfl, rfl, rfl⟩

/-- The last register, a label in range, a label name without a space: what the assembly clauses ask for. -/
theorem witness_assembly :
    (∀ r ∈ ([3, 0] : List Nat), r < 4) ∧ (∀ v ∈ ([255] : List Nat), v < 2 ^ ref.opShift) ∧
    3 < 4 ∧ ' ' ∉ ['e', 'n', 'd'] ∧
    List.lookup ['e', 'n', 'd'] [(['e', 'n', 'd'], 255)] = some 255 := by decide

/-- A word of each opcode, as `readsAs` asks for. -/
theorem witness_readsAs :
    (∀ op ∈ [1, 2, 3, 4, 5, 6, 7, 8, 9, 10, 11, 15], (0xABCD00 + op) % 256 = op) ∧
    ∀ m ∈ allMnemonics, (0xABCD00 + opcode wide m) % 2 ^ wide.opShift = opcode wide m := by decide

theorem witness_LdcLoadsConstant :
    3 < (cpu [1, 2, 3, 4] 0 []).numReg ∧ (cpu [1, 2, 3, 4] 0 []).numReg ≤ 4 := by
  decide

/-- An address register at 255 and one at 256, the last register and the first absent one. -/
theorem witness_LdrLoadsWord :
    (3 < (cpu [255, 256, 0, 0] 0 []).numReg ∧
      (cpu [255, 256, 0, 0] 0 []).regs[0]? = some 255 ∧ 255 < 256) ∧
    ((cpu [255, 256, 0, 0] 0 []).regs[1]? = some 256 ∧ 256 ≤ 256) ∧
    (cpu [255, 256, 0, 0] 0 []).numReg ≤ 4 := by decide

theorem witness_CpyCopiesRegister :
    3 < (cpu [1, 2, 3, 4] 0 []).numReg ∧
    (cpu [1, 2, 3, 4] 0 []).regs[3]? = some 4 ∧
    (cpu [1, 2, 3, 4] 0 []).numReg ≤ 4 := by decide

theorem witness_StrStoresWord :
    ((cpu [255, 256, 7, 0] 0 []).regs[2]? = some 7 ∧
      (cpu [255, 256, 7, 0] 0 []).regs[0]? = some 255 ∧
      255 < (cpu [255, 256, 7, 0] 0 []).cfg.ramLen) ∧
    ((cpu [255, 256, 7, 0] 0 []).regs[1]? = some 256 ∧
      (cpu [255, 256, 7, 0] 0 []).cfg.ramLen ≤ 256) ∧
    (cpu [255, 256, 7, 0] 0 []).mem.wf = true ∧
    (cpu [255, 256, 7, 0] 0 []).numReg ≤ 4 := by decide

/-- For `add`, `sub` and `ArithmeticWrapsAndTestsEquality`: two registers with a value, and an absent one. -/
theorem witness_AddWritesWrappedSum :
    (cpu [0xFFFFFF, 1, 0, 0] 0 []).regs[0]? = some 0xFFFFFF ∧
    (cpu [0xFFFFFF, 1, 0, 0] 0 []).regs[1]? = some 1 ∧
    (cpu [0xFFFFFF, 1, 0, 0] 0 []).numReg ≤ 4 := by decide

theorem witness_SubWritesWrappedDifference :
    (cpu [0, 1, 0, 0] 0 []).regs[0]? = some 0 ∧
    (cpu [0, 1, 0, 0] 0 []).regs[1]? = some 1 ∧
    (cpu [0, 1, 0, 0] 0 []).numReg ≤ 4 := by decide

theorem witness_ArithmeticWrapsAndTestsEquality :
    (cpu [5, 5, 7, 0] 0 []).regs[0]? = some 5 ∧
    (cpu [5, 5, 7, 0] 0 []).regs[1]? = some 5 ∧
    (cpu [5, 5, 7, 0] 0 []).regs[2]? = some 7 ∧ 7 < 2 ^ (cpu [5, 5, 7, 0] 0 []).cfg.wordBits := by decide

theorem witness_BeqBranchesOnZero :
    (cpu [0, 0x010000, 0, 0] 0 []).regs[0]? = some 0 ∧
    (cpu [0, 0x010000, 0, 0] 0 []).regs[1]? = some 0x010000 ∧
    (cpu [0, 0x010000, 0, 0] 0 []).numReg ≤ 4 := by decide

theorem witness_BneBranchesOnNonzero :
    (cpu [0, 0xFFFFFF, 0, 0] 0 []).regs[0]? = some 0 ∧
    (cpu [0, 0xFFFFFF, 0, 0] 0 []).regs[1]? = some 0xFFFFFF ∧
    (cpu [0, 0xFFFFFF, 0, 0] 0 []).numReg ≤ 4 := by decide

theorem witness_PrrEmitsRegister :
    (cpu [1, 2, 3, 4] 0 []).regs[3]? = some 4 ∧
    (cpu [1, 2, 3, 4] 0 []).numReg ≤ 4 := by decide

theorem witness_PrmEmitsWord :
    ((cpu [255, 256, 0, 0] 0 []).regs[0]? = some 255 ∧
      255 < (cpu [255, 256, 0, 0] 0 []).cfg.ramLen) ∧
    ((cpu [255, 256, 0, 0] 0 []).regs[1]? = some 256 ∧
      (cpu [255, 256, 0, 0] 0 []).cfg.ramLen ≤ 256) ∧
    (cpu [255, 256, 0, 0] 0 []).numReg ≤ 4 := by decide

theorem witness_BrkTrapsOrFaults :
    State.reset.cfg.build = .plain ∧
    (small.cfg.build = .debugger ∧ lookupCell small.breaks small.ip = some 0x410002) ∧
    lookupCell (top .running 0 [] []).breaks 0 = none ∧
    (decodeFields ref 0x12340F).op = opcode ref .brk := by decide

theorem witness_RegisterIndexCheck :
    Instr.ldc 4 0 ≠ .brk ∧ State.reset.fault = none ∧ (Instr.ldc 4 0).regsOk State.reset.numReg = false := by decide

theorem witness_ChecksInOrder :
    ((cpu [256, 0] 256 []).plainReady ∧ (cpu [256, 0] 256 []).cfg.ramLen ≤ 256) ∧
    (cpu [256, 0] 255 []).instrAtIp = none ∧ (cpu [256, 0] 255 [(255, 15)]).instrAtIp = some .brk ∧
    ((cpu [256, 0] 255 [(255, 0x000203)]).instrAtIp = some (.ldr 2 0) ∧ (Instr.ldr 2 0).regsOk 2 = false) ∧
    ((cpu [256, 0] 255 [(255, 0x000103)]).instrAtIp = some (.ldr 1 0) ∧ (Instr.ldr 1 0).regsOk 2 = true ∧
      addrReg (.ldr 1 0) = some 0 ∧ (cpu [256, 0] 255 []).regs[0]? = some 256) ∧
    (cpu [256, 0] 255 [(255, 0x010003)]).instrAtIp = some (.ldr 0 1) :=
  ⟨⟨cpu_ready _ _ _, by decide⟩, by decide, by decide, by decide, by decide, by decide⟩

/-- A step that faults, for `FaultsArePrecise` and `FaultLatchIsFinal`. -/
theorem witness_FaultsArePrecise :
    step (cpu [1, 2] 3 []) = .next { cpu [1, 2] 4 [] with fault := some ⟨.unknownOpcode, 3⟩ } := rfl

/-- Each kind of fault, each place of `ip`. -/
theorem witness_InstructionPointerAfterFault :
    (after (cpu [1] 256 [])).map State.fault = some (some ⟨.ipOutOfBounds, 256⟩) ∧
    (after (cpu [1] 0 [(0, 0x000102)])).map State.fault = some (some ⟨.invalidRegister, 0⟩) ∧
    (after (cpu [256] 0 [(0, 0x000003)])).map State.fault = some (some ⟨.invalidAddress, 0⟩) ∧
    (after (top .running 255 [(255, 15)] [])).map State.fault = some (some ⟨.unknownOpcode, 255⟩) ∧
    (after (cpu [1] 255 [(255, 15)])).map State.fault = some (some ⟨.unknownOpcode, 255⟩) := by decide

theorem witness_FaultLatchIsFinal :
    loadProgram [1] State.reset = .next { State.reset with mem := [(0, 1)] } := rfl

theorem witness_LaunchEndsInOneOfTwoWays :
    { State.reset with runState := .finished }.ended ∧
    { State.reset with fault := some ⟨.invalidAddress, 3⟩ }.ended ∧ (State.reset.Inv ∧ ¬State.reset.ended) ∧
    (after (cpu [0] 255 [(255, 1)])).map State.runState = some .finished ∧
    (after (held 0x410002 .endOfInput [] [])).map State.runState = some .finished :=
  ⟨.inr rfl, .inl nofun, ⟨reset_inv, fun h => h.elim (fun h => h rfl) nofun⟩, by decide, by decide⟩

theorem witness_DataAccessChecksRange :
    255 < State.reset.cfg.ramLen ∧ State.reset.cfg.ramLen ≤ 256 := by decide

theorem witness_StoreIsSeenByNextFetch :
    (cpu [11, 1, 0, 0] 10 [(10, 0x000105)]).plainReady ∧
    (cpu [11, 1, 0, 0] 10 [(10, 0x000105)]).instrAtIp = some (.str 1 0) ∧ 11 = 10 + 1 :=
  ⟨cpu_ready _ _ _, by decide, by decide⟩

theorem witness_RamChangesOnlyByStoreOrBreakpoint :
    (after (cpu [255, 7] 0 [(0, 0x000105)])).map (fun t => t.mem.read 255) = some 7 ∧
    (after (held 1 (.setBreak 255) [] [])).map (fun t => t.mem.read 255) = some 15 := by decide

theorem witness_RegistersChangeOnlyAsDestination :
    (after (cpu [0, 0, 0, 9] 0 [(0, 0x050302)])).map (fun t => t.regs[3]?) = some (some 5) ∧
    (cpu [0, 0, 0, 9] 0 [(0, 0x050302)]).regs[3]? = some 9 := by decide

theorem witness_OutputGrowsOnlyByPrinting :
    (after (cpu [6] 0 [(0, 0x00000A)])).map (fun t => (t.out, t.fault)) = some ([6], none) ∧
    (cpu [6] 0 [(0, 0x00000A)]).executing = some (.prr 0) ∧
    (cpu [0] 0 [(0, 0x00000B)]).executing = some (.prm 0) ∧
    loadProgram [] State.reset = .next State.reset := ⟨by decide, by decide, by decide, rfl⟩

theorem witness_ParametersNeverChange :
    step (cpu [0] 0 [(0, 1)]) = .next { cpu [0] 1 [(0, 1)] with runState := .finished } := rfl

theorem witness_InstructionPointerMoves :
    exec (.beq 0 7) (cpu [0] 3 []) = .next (cpu [0] 7 []) ∧
    step (top .stepping 1 [(1, 1)] []) = .next { top .stepping 1 [(1, 1)] [] with ir := some ⟨1, 0, 0⟩ } ∧
    { top .stepping 1 [(1, 1)] [] with ir := some ⟨1, 0, 0⟩ }.pausedWith ⟨1, 0, 0⟩ :=
  ⟨rfl, rfl, rfl, rfl, rfl, rfl⟩

/-- A branch to 255 in a RAM of 16 words. -/
theorem witness_BranchesAreComplementaryAndUnchecked :
    (cpu [0] 0 []).regs[0]? = some 0 ∧
    { cpu [0] 0 [(0, 0xFF0008)] with cfg := { ref with ramLen := 16 } }.plainReady ∧
    { cpu [0] 0 [(0, 0xFF0008)] with cfg := { ref with ramLen := 16 } }.instrAtIp = some (.beq 0 255) ∧
    (after { cpu [0] 0 [(0, 0xFF0008)] with cfg := { ref with ramLen := 16 } }).map (fun t => (t.ip, t.fault)) =
      some (255, none) :=
  ⟨by decide, ⟨rfl, rfl, rfl⟩, by decide, by decide⟩

theorem witness_InstructionsIgnoreBreakpointTable : Instr.add 0 1 ≠ .brk := by decide

theorem witness_OnePresenceTest :
    hasSentinel (top .stepping 1 [(1, 0x12340F)] []) 1 = true ∧
    hasSentinel (top .stepping 1 [(1, 0x000F00)] []) 1 = false ∧
    hasSentinel (top .running 1 [(1, 0x000010)] []) 1 = false := by decide

theorem witness_SetBreakpointSavesAndPatches :
    (held 1 (.setBreak 255) [] []).pausedWith (decodeFields ref 1) ∧
    (held 1 (.setBreak 255) [] []).cmds = [.setBreak 255] ∧
    255 < (held 1 (.setBreak 255) [] []).cfg.ramLen ∧ hasSentinel (held 1 (.setBreak 255) [] []) 255 = false ∧
    hasSentinel (held 1 (.setBreak 255) [(255, 15)] []) 255 = true :=
  ⟨held_paused _ _ _ _, rfl, by decide, by decide, by decide⟩

theorem witness_ClearBreakpointRestores :
    (held 1 (.clearBreak 255) [(255, 15)] [(255, 0)]).pausedWith (decodeFields ref 1) ∧
    hasSentinel (held 1 (.clearBreak 255) [(255, 15)] [(255, 0)]) 255 = true ∧
    lookupCell (held 1 (.clearBreak 255) [(255, 15)] [(255, 0)]).breaks 255 = some 0 ∧
    hasSentinel (held 1 (.clearBreak 255) [] []) 255 = false ∧
    lookupCell (held 1 (.clearBreak 255) [(255, 15)] []).breaks 255 = none :=
  ⟨held_paused _ _ _ _, by decide, by decide, by decide, by decide⟩

theorem witness_SetAndClearLaws :
    small.Inv ∧ small.BreakInvariant ∧ 3 < small.cfg.ramLen ∧ lookupCell small.breaks 3 = none ∧
    lookupCell small.breaks 1 = some 0x410002 :=
  ⟨small_inv, small_breakInvariant, by decide, by decide, by decide⟩

theorem witness_BreakpointAddressIsChecked :
    (held 1 (.setBreak 256) [] []).pausedWith (decodeFields ref 1) ∧
    (held 1 (.clearBreak 256) [] []).pausedWith (decodeFields ref 1) ∧
    (held 1 (.clearBreak 256) [] []).cfg.ramLen ≤ 256 := ⟨held_paused _ _ _ _, held_paused _ _ _ _, by decide⟩

theorem witness_SentinelWithoutEntryFaults :
    (top .running 255 [(255, 15)] []).atTop ∧ hasSentinel (top .running 255 [(255, 15)] []) 255 = true ∧
    lookupCell (top .running 255 [(255, 15)] []).breaks 255 = none := ⟨top_running _ _ _, by decide, by decide⟩

theorem witness_StaleEntryBehaviour :
    (top .running 3 [(3, 1)] [(3, 10)]).atTop ∧ lookupCell (top .running 3 [(3, 1)] [(3, 10)]).breaks 3 = some 10 ∧
    hasSentinel (top .running 3 [(3, 1)] [(3, 10)]) 3 = false ∧
    0x12340F % 2 ^ debugCfg.opShift = opcode debugCfg .brk :=
  ⟨top_running _ _ _, by decide, by decide, by decide⟩

theorem witness_RunLoopIteration :
    (top .running 256 [] []).atTop ∧
    ((top .running 1 [(1, 15)] [(1, 1)]).atTop ∧ (decodeFields ref (Memory.read [(1, 15)] 1)).op = opcode ref .brk ∧
      lookupCell (top .running 1 [(1, 15)] [(1, 1)]).breaks 1 = some 1) ∧
    ((top .stepping 1 [] []).atTop ∧ (decodeFields ref (Memory.read [] 1)).op ≠ opcode ref .brk) ∧
    ((held 1 .step [] []).pausedWith (decodeFields ref 1) ∧ (held 1 .step [] []).cmds = [.step]) ∧
    ((held 1 .run [] []).pausedWith (decodeFields ref 1) ∧ (held 1 .run [] []).cmds = [.run]) ∧
    ((held 1 .quit [] []).pausedWith (decodeFields ref 1) ∧ (held 1 .quit [] []).cmds = [.quit]) ∧
    ((held 1 .endOfInput [] []).pausedWith (decodeFields ref 1) ∧ (held 1 .endOfInput [] []).cmds = [.endOfInput]) :=
  ⟨top_running _ _ _, ⟨top_running _ _ _, by decide, by decide⟩, ⟨top_stepping _ _ _, by decide⟩,
    ⟨held_paused _ _ _ _, rfl⟩, ⟨held_paused _ _ _ _, rfl⟩, ⟨held_paused _ _ _ _, rfl⟩, ⟨held_paused _ _ _ _, rfl⟩⟩

theorem witness_PlainBuildIsDebuggerRun :
    ((top .running 255 [(255, 1)] []).atTop ∧ hasSentinel (top .running 255 [(255, 1)] []) 255 = false) ∧
    (top .running 256 [] []).atTop ∧ (1 ≤ 256 ∧ isSentinel ref (List.getD [0x000001] 0 0) = false) :=
  ⟨⟨top_running _ _ _, by decide⟩, top_running _ _ _, by decide⟩

theorem witness_CommandsOfTheInteractiveLoop :
    ({ held 1 .step [] [] with cmds := [] }.pausedWith (decodeFields ref 1)) ∧
    (held 1 .empty [] []).pausedWith (decodeFields ref 1) ∧
    (held 1 (.unknown ['x']) [] []).pausedWith (decodeFields ref 1) ∧
    (held 1 .disassemble [] []).pausedWith (decodeFields ref 1) ∧
    (held 1 .showMemory [] []).pausedWith (decodeFields ref 1) ∧
    (after (held 1 .empty [] [])).map State.cmds = some [] ∧ (after (cpu [0] 0 [])).isSome = true :=
  ⟨⟨rfl, rfl, rfl, rfl⟩, held_paused _ _ _ _, held_paused _ _ _ _, held_paused _ _ _ _, held_paused _ _ _ _,
    by decide, by decide⟩

theorem witness_DisassemblyShowsInstructionHeld :
    ((held 0x01020C .disassemble [] []).pausedWith (decodeFields ref 0x01020C) ∧
      (after (held 0x01020C .disassemble [] [])).map State.rsp = some [.disassembly none 2 1]) ∧
    ((top .running 1 [(1, 15)] [(1, 0x410002)]).atTop ∧
      hasSentinel (top .running 1 [(1, 15)] [(1, 0x410002)]) 1 = true ∧
      (after (top .running 1 [(1, 15)] [(1, 0x410002)])).isSome = true) ∧
    ((top .stepping 255 [] []).atTop ∧ hasSentinel (top .stepping 255 [] []) 255 = false ∧
      (after (top .stepping 255 [] [])).isSome = true) :=
  ⟨⟨held_paused _ _ _ _, by decide⟩, ⟨top_running _ _ _, by decide, by decide⟩, top_stepping _ _ _, by decide,
    by decide⟩

/-- A step of each transition T1 to T5 of R145, and the two ways of FINISHED. -/
theorem witness_RunStateTransitions :
    (after (held 0x410002 .run [] [])).map State.runState = some .running ∧
    (after (top .running 1 [(1, 15)] [(1, 1)])).map State.runState = some .stepping ∧
    (after (held 1 .quit [] [])).map State.runState = some .finished ∧
    (after (top .running 1 [(1, 1)] [])).map State.runState = some .finished ∧
    (after (held 0x410002 .step [] [])).map State.runState = some .stepping ∧
    (held 0x410002 .step [] []).executing = some (.ldc 0 65) ∧
    (held 0x000001 .step [] []).executing = some .hlt := by decide

theorem witness_DumpShowsNonzeroPart :
    (held 1 .showMemory [(255, 9)] []).pausedWith (decodeFields ref 1) ∧
    (held 1 .showMemory [(255, 9)] []).cmds = [.showMemory] := ⟨held_paused _ _ _ _, rfl⟩

theorem witness_StepAndQuitExactly :
    (held 0x410002 .step [(1, 0x410002)] []).pausedWith (decodeFields ref 0x410002) ∧
    (after (held 0x410002 .step [(1, 0x410002)] [])).map (fun t => (t.fault, t.runState, t.ip, hasSentinel t t.ip)) =
      some (none, .stepping, 2, false) ∧
    (after (held 0x410002 .step [(2, 15)] [(2, 1)])).map
      (fun t => (hasSentinel t t.ip, (lookupCell t.breaks t.ip).isSome)) = some (true, true) :=
  ⟨held_paused _ _ _ _, by decide, by decide⟩

theorem witness_LoadGivesResetValues :
    [0x370002, 0, 0x000001].length ≤ State.reset.cfg.ramLen ∧
    (∀ w ∈ [0x370002, 0, 0x000001], w < 2 ^ State.reset.cfg.wordBits) ∧
    ([0x370002, 0, 0x000001] : List Nat)[2]? = some 1 := by decide

theorem witness_LongProgramIsRefused :
    State.reset.cfg.ramLen < (List.replicate 257 (0 : Nat)).length ∧
    ((List.replicate 256 (0 : Nat)).length = State.reset.cfg.ramLen ∧
      ∀ w ∈ List.replicate 256 (0 : Nat), w < 2 ^ State.reset.cfg.wordBits) ∧
    loadProgram [] State.reset = .next State.reset ∧
    ((held 0 .step [] []).cfg.build = .debugger ∧
      loadProgram [] (held 0 .step [] []) = .next (launch debugCfg 4 [] [.step]) ∧
      (launch debugCfg 4 [] [.step]).cmds = [.step]) :=
  ⟨by rw [List.length_replicate]; decide,
    ⟨by rw [List.length_replicate]; decide, fun w h => by rw [List.eq_of_mem_replicate h]; decide⟩, rfl, rfl, rfl, rfl⟩

theorem witness_LaunchMeetsInvariant :
    State.reset.paramsOk ∧ loadProgram [1] State.reset = .next { State.reset with mem := [(0, 1)] } :=
  ⟨⟨by decide, by decide⟩, rfl⟩

theorem witness_StepKeepsInvariant :
    small.Inv ∧ step small = .next { small with runState := .stepping, ir := some ⟨2, 0, 65⟩ } := ⟨small_inv, rfl⟩

theorem witness_ProgramFileRoundTrip :
    parseHexLine ref ['4', '1', '0', '0', '0', '2'] = some 0x410002 ∧
    parseProgram ref [['0', '0', '0', '0', '0', '1']] = .ok [0x000001] ∧
    0x410002 < 16 ^ ref.hexWidth ∧ 0x410002 < 2 ^ ref.wordBits ∧
    parseHexLine ref ['0', 'x', '4', '1', '0', '0', '0', '2'] = none := by decide

theorem witness_ProgramFileRoundTrip_load :
    loadFile [['0', '0', '0', '0', '0', '1']] State.reset = .ok (.next { State.reset with mem := [(0, 1)] }) := rfl

theorem witness_AssembledWordsAreInstructions :
    4 ≤ 2 ^ ref.opShift ∧
    assemble ref 4 [['b', 'r', 'k'], ['p', 'r', 'm', ' ', 'R', '3']] = .ok [0x00000F, 0x00030B] := by decide

theorem witness_LabelsNameTheNextInstruction :
    findLabels ([['h', 'l', 't']] ++ (['e'] ++ [':']) :: []) 0 [] = .ok [(['e'], 1)] := by decide

/-- AS9: the bases of four directives in a row, the last of them after a size of 0. -/
theorem witness_DataFollowsTheCode :
    addData 256 [['a', ':', ' ', '2'], ['b', ':', ' ', '3'], ['c', ':', ' ', '0'], ['d', ':', ' ', '1']] 1 [] =
      .ok [(['d'], 6), (['c'], 6), (['b'], 3), (['a'], 1)] ∧
    parseDirective ['a', ':', ' ', '2', '5', '6'] = some (['a'], 256) ∧ 256 < 1 + 256 ∧
    List.lookup ['a'] ([(['a'], 0)] : LabelTable) = some 0 := by decide

/-- One instruction, then data: the second directive is bound past the first. -/
theorem witness_DataFollowsTheCode_assemble :
    assemble ref 4
      [['l', 'd', 'c', ' ', 'R', '0', ' ', '@', 'b'], dataDivider, ['a', ':', ' ', '2'], ['b', ':', ' ', '3']] =
        .ok [0x030002] ∧
    dataLines (cleanLines
      [['l', 'd', 'c', ' ', 'R', '0', ' ', '@', 'b'], dataDivider, ['a', ':', ' ', '2'], ['b', ':', ' ', '3']]) =
        [['a', ':', ' ', '2']] ++ ['b', ':', ' ', '3'] :: [] ∧
    parseDirective ['b', ':', ' ', '3'] = some (['b'], 3) := by decide

/-- Each stop happens somewhere. -/
theorem witness_StepStopsOnlyByName :
    step { State.reset with fault := some ⟨.invalidAddress, 3⟩ } = .fault (.latched .invalidAddress 3) ∧
    step { State.reset with runState := .finished } = .fault .finished ∧
    step { held 1 .step [] [] with cmds := [] } = .fault .awaitingCommand ∧
    step { State.reset with runState := .stepping } = .fault .plainStepping := ⟨rfl, rfl, rfl, rfl⟩

end Sys2Proof.Tests
end

/-! SUPPORT. The kinds of state a step finds, and what it answers in each. -/

namespace Sys2Proof.Machine

variable {s t : State}

/-! ### Where a step stops -/

theorem step_latched {r : FaultRecord} (h : s.fault = some r) : step s = .fault (.latched r.kind r.addr) := by
  simp [step, runStep, h]

theorem step_finished (hf : s.fault = none) (hr : s.runState = .finished) : step s = .fault .finished := by
  simp [step, runStep, hf, hr]

theorem step_plainStepping (hf : s.fault = none) (hr : s.runState = .stepping) (hb : s.cfg.build = .plain) :
    step s = .fault .plainStepping := by
  simp [step, runStep, hf, hr, hb]

theorem step_awaiting {f : Fields} (h : s.pausedWith f) (hc : s.cmds = []) : step s = .fault .awaitingCommand := by
  rw [step_paused h, interact, hc]

/-- The core can take a step (R80, R140, R142). -/
inductive State.Enabled (s : State) : Prop where
  /-- A cycle of the plain build. -/
  | cycle (h : s.plainReady)
  /-- An iteration of the debugger build's run loop. -/
  | iteration (h : s.atTop)
  /-- A command of the interactive loop. -/
  | reads (f : Fields) (c : Command) (rest : List Command) (h : s.pausedWith f) (hc : s.cmds = c :: rest)

/-- What a step finds: one of the four conditions of log 8 in which the core does nothing, or a step to take. -/
inductive State.Kind (s : State) : Prop where
  | latched (r : FaultRecord) (hf : s.fault = some r)
  | finished (hf : s.fault = none) (hr : s.runState = .finished)
  | plainStepping (hf : s.fault = none) (hr : s.runState = .stepping) (hb : s.cfg.build = .plain)
  | awaiting (f : Fields) (h : s.pausedWith f) (hc : s.cmds = [])
  | enabled (h : s.Enabled)

/-- The five kinds are all the states there are. -/
theorem State.kind (s : State) : s.Kind := by
  cases hf : s.fault with
  | some r => exact .latched r hf
  | none =>
    cases hr : s.runState with
    | finished => exact .finished hf hr
    | running =>
      cases hb : s.cfg.build with
      | plain => exact .enabled (.cycle ⟨hb, hf, hr⟩)
      | debugger => exact .enabled (.iteration ⟨hb, hf, .inl hr⟩)
    | stepping =>
      cases hb : s.cfg.build with
      | plain => exact .plainStepping hf hr hb
      | debugger =>
        cases hi : s.ir with
        | none => exact .enabled (.iteration ⟨hb, hf, .inr ⟨hr, hi⟩⟩)
        | some f =>
          have hp : s.pausedWith f := ⟨hb, hf, hr, hi⟩
          cases hc : s.cmds with
          | nil => exact .awaiting f hp hc
          | cons c rest => exact .enabled (.reads f c rest hp hc)

/-! ### An enabled step answers a next state -/

/-- The outcome is a next state, not a stop and not a refusal. -/
def Answers (r : Result) : Prop := ∃ t, r = .next t

@[simp] theorem answers_next (t : State) : Answers (.next t) := ⟨t, rfl⟩

theorem answers_checkReg {i : Nat} {k : Result} (hk : Answers k) : Answers (checkReg i s k) := by
  rcases Nat.lt_or_ge i s.numReg with hi | hi
  · rwa [checkReg_of_lt hi]
  · rw [checkReg_of_le hi]; exact answers_next _

theorem answers_readReg {i : Nat} {k : Nat → Result} (hk : ∀ v, Answers (k v)) : Answers (readReg i s k) := by
  cases e : s.regs[i]? with
  | some v => rw [readReg_of_some e]; exact hk v
  | none => rw [readReg_of_le (List.getElem?_eq_none_iff.mp e)]; exact answers_next _

theorem answers_memRead {addr : Nat} {k : Nat → Result} (hk : ∀ v, Answers (k v)) : Answers (memRead addr s k) := by
  rcases Nat.lt_or_ge addr s.cfg.ramLen with ha | ha
  · rw [memRead_of_lt ha]; exact hk _
  · rw [memRead_of_le ha]; exact answers_next _

theorem answers_memWrite {addr v : Nat} {k : State → Result} (hk : ∀ u, Answers (k u)) :
    Answers (memWrite addr v s k) := by
  rcases Nat.lt_or_ge addr s.cfg.ramLen with ha | ha
  · rw [memWrite_of_lt ha]; exact hk _
  · rw [memWrite_of_le ha]; exact answers_next _

theorem answers_execBrk (s : State) : Answers (execBrk s) := by
  cases hb : s.cfg.build with
  | plain => rw [execBrk_plain hb]; exact answers_next _
  | debugger =>
    cases hl : lookupCell s.breaks s.ip with
    | some w => rw [execBrk_of_some hb hl]; exact answers_next _
    | none => rw [execBrk_of_none hb hl]; exact answers_next _

/-- Every instruction answers a next state: each of its checks does, passed or failed. -/
theorem answers_exec (i : Instr) (s : State) : Answers (exec i s) := by
  cases i with
  | hlt => exact answers_next _
  | ldc => exact answers_checkReg (answers_next _)
  | ldr => exact answers_checkReg (answers_readReg fun _ => answers_memRead fun _ => answers_next _)
  | cpy => exact answers_checkReg (answers_readReg fun _ => answers_next _)
  | str => exact answers_readReg fun _ => answers_readReg fun _ => answers_memWrite fun _ => answers_next _
  | add => exact answers_readReg fun _ => answers_readReg fun _ => answers_next _
  | sub => exact answers_readReg fun _ => answers_readReg fun _ => answers_next _
  | beq => exact answers_readReg fun _ => answers_next _
  | bne => exact answers_readReg fun _ => answers_next _
  | prr => exact answers_readReg fun _ => answers_next _
  | prm => exact answers_readReg fun _ => answers_memRead fun _ => answers_next _
  | brk => exact answers_execBrk s

theorem answers_execute (f : Fields) (s : State) : Answers (execute f s) := by
  cases e : instrOf s.cfg f with
  | none => rw [execute_of_none e]; exact answers_next _
  | some i =>
    by_cases hb : i = .brk
    · rw [execute_of_brk (hb ▸ e)]; exact answers_next _
    · rw [execute_of_some e hb]; exact answers_exec i s

theorem answers_fetch {k : Nat → Result} (hk : ∀ w, Answers (k w)) : Answers (fetch s k) := by
  rcases Nat.lt_or_ge s.ip s.cfg.ramLen with hip | hip
  · rw [fetch_of_lt hip]; exact hk _
  · rw [fetch_of_le hip]; exact answers_next _

theorem answers_plainCycle (s : State) : Answers (plainCycle s) := answers_fetch fun _ => answers_execute _ s

theorem answers_iterationTop (s : State) : Answers (iterationTop s) :=
  answers_fetch fun w => by
    split
    · exact answers_execBrk s
    · split
      · exact answers_next _
      · exact answers_execute _ s

theorem answers_command (c : Command) (f : Fields) (s : State) : Answers (command c f s) := by
  cases c with
  | step => exact answers_execute f _
  | run => exact answers_execute f _
  | _ => exact answers_next _

theorem State.Enabled.answers (h : s.Enabled) : Answers (step s) := by
  cases h with
  | cycle h => rw [step_plain h]; exact answers_plainCycle s
  | iteration h => rw [step_atTop h]; exact answers_iterationTop s
  | reads f c rest h hc => rw [step_command h hc]; exact answers_command c f _

/-- An enabled state is in none of the four conditions in which the core does nothing. -/
theorem State.Enabled.not_stopped (h : s.Enabled) :
    s.fault = none ∧ s.runState ≠ .finished ∧ ¬(s.runState = .stepping ∧ s.cfg.build = .plain) ∧
      ¬((∃ f, s.pausedWith f) ∧ s.cmds = []) := by
  cases h with
  | cycle h =>
    obtain ⟨hb, hf, hr⟩ := h
    simp [State.pausedWith, hf, hr]
  | iteration h =>
    obtain ⟨hb, hf, hr | ⟨hr, hi⟩⟩ := h
    · simp [State.pausedWith, hf, hr]
    · simp [State.pausedWith, hb, hf, hr, hi]
  | reads f c rest h hc =>
    obtain ⟨hb, hf, hr, -⟩ := h
    simp [hb, hf, hr, hc]

theorem State.Enabled.runState_ne_finished (h : s.Enabled) : s.runState ≠ .finished := by
  obtain ⟨-, hr, -⟩ := h.not_stopped
  exact hr

/-- Settles O60: the four stopping conditions and the enabled states are all there is, and exclude each other. -/
theorem stepStopsOnlyByName : Obligations.StepStopsOnlyByName := by
  unfold Obligations.StepStopsOnlyByName
  intro s
  cases s.kind with
  | latched r hf => cases r; simp [step_latched hf, hf, State.pausedWith]
  | finished hf hr => simp [step_finished hf hr, hf, hr, State.pausedWith]
  | plainStepping hf hr hb => simp [step_plainStepping hf hr hb, hf, hr, hb, State.pausedWith]
  | awaiting f hp hc =>
    have hstep := step_awaiting hp hc
    obtain ⟨hb, hf, hr, hi⟩ := hp
    simp [hstep, hb, hf, hr, hi, hc, State.pausedWith]
  | enabled h =>
    obtain ⟨t, ht⟩ := h.answers
    obtain ⟨hf, hr, hb, hp⟩ := h.not_stopped
    rw [ht]
    exact ⟨nofun, fun k a => ⟨nofun, fun h => by simp [hf] at h⟩, ⟨nofun, fun ⟨_, h⟩ => absurd h hr⟩,
      ⟨nofun, fun h => absurd h hp⟩, ⟨nofun, fun ⟨_, h⟩ => absurd h hb⟩⟩

end Sys2Proof.Machine

/-! SUPPORT. What an answered step has done: it raised a fault, had an instruction's effect, or only moved the
control state. -/

namespace Sys2Proof.Machine

variable {s t u : State}

/-! ### The instruction that is handed to Execute -/

theorem executing_of_running (h : s.plainReady ∨ s.atTop ∧ s.runState = .running) : s.executing = s.instrAtIp := by
  rcases h with ⟨-, hf, hr⟩ | ⟨⟨-, hf, -⟩, hr⟩ <;> simp [State.executing, hf, hr]

theorem executing_of_resuming {f : Fields} {c : Command} {rest : List Command} (h : s.pausedWith f)
    (hc : s.cmds = c :: rest) (hx : c = .step ∨ c = .run) : s.executing = instrOf s.cfg f := by
  obtain ⟨hb, hf, hr, hi⟩ := h
  rcases hx with rfl | rfl <;> simp [State.executing, hb, hf, hr, hi, hc]

/-- `executing` is `some` in two kinds of state: running, and in a pause that reads `Step` or `Run`. -/
theorem executing_eq_some {i : Instr} (h : s.executing = some i) :
    ((s.plainReady ∨ s.atTop ∧ s.runState = .running) ∧ s.instrAtIp = some i) ∨
      ∃ f c rest, s.pausedWith f ∧ s.cmds = c :: rest ∧ (c = .step ∨ c = .run) ∧ instrOf s.cfg f = some i := by
  unfold State.executing at h
  split at h
  · rename_i hf hr
    refine .inl ⟨?_, h⟩
    cases hb : s.cfg.build with
    | plain => exact .inl ⟨hb, hf, hr⟩
    | debugger => exact .inr ⟨⟨hb, hf, .inl hr⟩, hr⟩
  · rename_i hf hr hb
    split at h
    · rename_i hi hc
      exact .inr ⟨_, _, _, ⟨hb, hf, hr, hi⟩, hc, .inl rfl, h⟩
    · rename_i hi hc
      exact .inr ⟨_, _, _, ⟨hb, hf, hr, hi⟩, hc, .inr rfl, h⟩
    · cases h
  · cases h

/-- `u` is the state in which a step of `s` enters `Execute`: `s` itself when running, and in a pause the state that
`Step` or `Run` leaves the interactive loop in (R140, R142). -/
inductive HandsOver (s : State) : State → Prop where
  | running (h : s.plainReady ∨ s.atTop ∧ s.runState = .running) : HandsOver s s
  | step {f : Fields} {rest : List Command} (h : s.pausedWith f) (hc : s.cmds = .step :: rest) :
      HandsOver s (resume .stepping { s with cmds := rest })
  | run {f : Fields} {rest : List Command} (h : s.pausedWith f) (hc : s.cmds = .run :: rest) :
      HandsOver s (resume .running { s with cmds := rest })

/-- Entering `Execute` moves the control state only, and not to FINISHED. -/
theorem HandsOver.frame (h : HandsOver s u) :
    u.cfg = s.cfg ∧ u.regs = s.regs ∧ u.ip = s.ip ∧ u.mem = s.mem ∧ u.fault = s.fault ∧ u.breaks = s.breaks ∧
      u.out = s.out ∧ u.runState ≠ .finished := by
  cases h with
  | running h => rcases h with ⟨-, -, hr⟩ | ⟨-, hr⟩ <;> simp [hr]
  | step h hc => simp
  | run h hc => simp

/-- A step that hands an instruction to `Execute` is that instruction's `exec`. -/
theorem step_of_executing {i : Instr} (hc : s.cfg.codesOk = true) (hb : i ≠ .brk) (h : s.executing = some i) :
    ∃ u, HandsOver s u ∧ step s = exec i u := by
  rcases executing_eq_some h with ⟨hr, hi⟩ | ⟨f, c, rest, hp, hcmd, hx, hi⟩
  · refine ⟨s, .running hr, ?_⟩
    unfold State.instrAtIp at hi
    split at hi
    · rename_i hip
      rcases hr with hp | ⟨ht, hr⟩
      · rw [step_plain hp, plainCycle, fetch_of_lt hip, execute_of_some hi hb]
      · have hs : ¬isSentinel s.cfg (s.mem.read s.ip) = true := fun hs => by
          rw [isSentinel_iff hc, hi] at hs
          exact hb (Option.some.inj hs)
        rw [step_atTop ht, iterationTop, fetch_of_lt hip, if_neg hs, hr, if_neg (by decide), execute_of_some hi hb]
    · cases hi
  · rcases hx with rfl | rfl
    · exact ⟨_, .step hp hcmd, by rw [step_command hp hcmd]; exact execute_of_some hi hb⟩
    · exact ⟨_, .run hp hcmd, by rw [step_command hp hcmd]; exact execute_of_some hi hb⟩

/-! ### What an answered step has done -/

/-- What a step that answers has done. -/
inductive StepOutcome (s : State) : State → Prop where
  /-- It raised a fault before `Execute`. -/
  | faultsBefore (k : FaultKind) (h : s.runState ≠ .finished) : StepOutcome s (raise k s.ip s)
  /-- It raised a fault inside `Execute`. -/
  | faultsInside (k : FaultKind) {u : State} (h : HandsOver s u) : StepOutcome s (raise k u.ip (advance u))
  /-- It had the effect of the instruction executed. -/
  | executes (i : Instr) {u t : State} (hi : s.executing = some i) (h : HandsOver s u) (he : Effect i u t) :
      StepOutcome s t
  /-- It only moved the state of the debugger. -/
  | controls {t : State} (hr : t.regs = s.regs) (ho : t.out = s.out) (hf : t.fault = s.fault) : StepOutcome s t

theorem execute_outcome {f : Fields} (hu : HandsOver s u) (hi : s.executing = instrOf s.cfg f)
    (h : execute f u = .next t) : StepOutcome s t := by
  rcases execute_cases h with ⟨k, -, rfl⟩ | ⟨i, -, hf, he⟩
  · exact .faultsInside k hu
  · exact .executes i (by rw [hi, ← hu.frame.1, hf]) hu he

theorem command_outcome {f : Fields} {c : Command} {rest : List Command} (hp : s.pausedWith f)
    (hc : s.cmds = c :: rest) (h : command c f { s with cmds := rest } = .next t) : StepOutcome s t := by
  rcases command_next h with ⟨-, rfl⟩ | ⟨rfl, h⟩ | ⟨rfl, h⟩ | ⟨b, -, rfl⟩ | ⟨b, -, rfl⟩ | ⟨-, rfl⟩ | ⟨r, rfl, -⟩
  · exact .controls rfl rfl rfl
  · exact execute_outcome (.step hp hc) (executing_of_resuming hp hc (.inl rfl)) h
  · exact execute_outcome (.run hp hc) (executing_of_resuming hp hc (.inr rfl)) h
  · obtain ⟨m, tbl, r, e⟩ := commandSetBreak_frame b { s with cmds := rest }
    exact e ▸ .controls rfl rfl rfl
  · obtain ⟨m, tbl, r, e⟩ := commandClearBreak_frame b { s with cmds := rest }
    exact e ▸ .controls rfl rfl rfl
  · exact .controls rfl rfl rfl
  · exact .controls rfl rfl rfl

theorem StepCase.outcome (h : StepCase s t) : StepOutcome s t := by
  cases h with
  | outOfRange h hip =>
    exact .faultsBefore _ (h.elim State.Enabled.cycle State.Enabled.iteration).runState_ne_finished
  | runs h hip he =>
    have hr : s.plainReady ∨ s.atTop ∧ s.runState = .running := h.imp_right fun ⟨ht, hr, _⟩ => ⟨ht, hr⟩
    refine execute_outcome (.running hr) ?_ he
    rw [executing_of_running hr, State.instrAtIp, if_pos hip]
  | sentinel h hip hs he =>
    rcases execBrk_cases h.1 he with ⟨w, -, rfl⟩ | ⟨-, rfl⟩
    · exact .controls rfl rfl rfl
    · exact .faultsBefore _ (State.Enabled.iteration h).runState_ne_finished
  | pauses h hr hip hs => exact .controls rfl rfl rfl
  | reads f c rest h hc he => exact command_outcome h hc he

theorem step_outcome (h : step s = .next t) : StepOutcome s t := (step_next h).outcome

/-! ### The fault latch -/

/-- No step is enabled with the latch set. -/
theorem fault_eq_none_of_step (h : step s = .next t) : s.fault = none := by
  cases hf : s.fault with
  | none => rfl
  | some r => rw [step_latched hf] at h; cases h

/-- A step that faults does not finish the run. -/
theorem runState_ne_finished_of_fault (h : step s = .next t) (ht : t.fault ≠ none) : t.runState ≠ .finished := by
  have hs := fault_eq_none_of_step h
  cases step_outcome h with
  | faultsBefore k hr => exact hr
  | faultsInside k hu =>
    obtain ⟨-, -, -, -, -, -, -, hr⟩ := hu.frame
    exact hr
  | executes i hi hu he =>
    obtain ⟨-, -, -, -, huf, -, -, -⟩ := hu.frame
    obtain ⟨-, hf, -⟩ := he.frame
    exact absurd (hf.trans (huf.trans hs)) ht
  | controls hr ho hf => exact absurd (hf.trans hs) ht

/-- Settles O27: a latched state has no step, and a step that latches keeps a `run_state` that was not FINISHED. -/
theorem faultLatchIsFinal : Obligations.FaultLatchIsFinal := by
  unfold Obligations.FaultLatchIsFinal
  refine ⟨fun s t => fault_eq_none_of_step, fun s t => runState_ne_finished_of_fault, fun s t program h => ?_, rfl⟩
  obtain ⟨-, -, rfl⟩ := loadProgram_next h
  rfl

end Sys2Proof.Machine

/-! SUPPORT. Two runs compared: a change of the state that an instruction neither sees nor undoes is carried through
it. -/

namespace Sys2Proof.Machine

@[simp] theorem mapNext_next (g : State → State) (t : State) : mapNext g (.next t) = .next (g t) := rfl

/-- A change carried through both branches of a test is carried through the test. -/
theorem mapNext_ite {g : State → State} {p : Prop} [Decidable p] {a b a' b' : Result} (ha : a' = mapNext g a)
    (hb : b' = mapNext g b) : (if p then a' else b') = mapNext g (if p then a else b) := by
  rw [ha, hb, apply_ite (mapNext g)]

/-- The change `g` leaves all that an instruction reads as it is, and commutes with all that it writes. -/
structure Unseen (g : State → State) : Prop where
  regs (s : State) : (g s).regs = s.regs
  ip (s : State) : (g s).ip = s.ip
  mem (s : State) : (g s).mem = s.mem
  ramLen (s : State) : (g s).cfg.ramLen = s.cfg.ramLen
  wordBits (s : State) : (g s).cfg.wordBits = s.cfg.wordBits
  setReg (i v : Nat) (s : State) : g (setReg i v s) = setReg i v (g s)
  emit (v : Nat) (s : State) : g (emit v s) = emit v (g s)
  raise (k : FaultKind) (v : Nat) (s : State) : g (raise k v s) = raise k v (g s)
  advance (s : State) : g (advance s) = advance (g s)
  jump (a : Nat) (s : State) : g { s with ip := a } = { g s with ip := a }
  store (m : Memory) (s : State) : g { s with mem := m } = { g s with mem := m }
  halt (s : State) : g { s with runState := .finished } = { g s with runState := .finished }

section
variable {g : State → State} (hg : Unseen g) {s : State}
include hg

theorem Unseen.executeFault (k : FaultKind) (s : State) :
    executeFault k (g s) = mapNext g (executeFault k s) := by
  rw [executeFault_eq, executeFault_eq, mapNext_next, hg.raise, hg.advance, hg.ip]

theorem Unseen.checkReg {i : Nat} {k k' : Result} (hk : k' = mapNext g k) :
    checkReg i (g s) k' = mapNext g (checkReg i s k) := by
  unfold Machine.checkReg
  rw [State.numReg, hg.regs]
  split
  · exact hk
  · exact hg.executeFault _ s

theorem Unseen.readReg {i : Nat} {k k' : Nat → Result} (hk : ∀ v, k' v = mapNext g (k v)) :
    readReg i (g s) k' = mapNext g (readReg i s k) := by
  unfold Machine.readReg
  rw [hg.regs]
  split
  · exact hk _
  · exact hg.executeFault _ s

theorem Unseen.memRead {addr : Nat} {k k' : Nat → Result} (hk : ∀ v, k' v = mapNext g (k v)) :
    memRead addr (g s) k' = mapNext g (memRead addr s k) := by
  unfold Machine.memRead
  rw [hg.ramLen, hg.mem]
  split
  · exact hk _
  · exact hg.executeFault _ s

theorem Unseen.memWrite {addr v : Nat} {k k' : State → Result} (hk : ∀ u, k' (g u) = mapNext g (k u)) :
    memWrite addr v (g s) k' = mapNext g (memWrite addr v s k) := by
  unfold Machine.memWrite
  rw [hg.ramLen, hg.mem, ← hg.store]
  split
  · exact hk _
  · exact hg.executeFault _ s

theorem Unseen.addWord (s : State) : addWord (g s).cfg = addWord s.cfg := by
  funext p q
  rw [Machine.addWord, Machine.addWord, hg.wordBits]

theorem Unseen.subWord (s : State) : subWord (g s).cfg = subWord s.cfg := by
  funext p q
  rw [Machine.subWord, Machine.subWord, hg.wordBits]

/-- The shape that ends `ldc`, `ldr`, `cpy`, `add` and `sub`. -/
theorem Unseen.writesReg (d v : Nat) (s : State) :
    (.next (Machine.setReg d v (Machine.advance (g s))) : Result) =
      mapNext g (.next (Machine.setReg d v (Machine.advance s))) := by
  rw [mapNext_next, hg.setReg, hg.advance]

/-- The shape that ends `prr` and `prm`. -/
theorem Unseen.prints (v : Nat) (s : State) :
    (.next (Machine.emit v (Machine.advance (g s))) : Result) =
      mapNext g (.next (Machine.emit v (Machine.advance s))) := by
  rw [mapNext_next, hg.emit, hg.advance]

theorem Unseen.accumulate (f : Nat → Nat → Nat) (d r : Nat) (s : State) :
    accumulate f d r (g s) = mapNext g (accumulate f d r s) :=
  hg.readReg fun _ => hg.readReg fun _ => hg.writesReg d _ s

theorem Unseen.branchOn (cond : Nat → Bool) (t target : Nat) (s : State) :
    branchOn cond t target (g s) = mapNext g (branchOn cond t target s) :=
  hg.readReg fun v => by
    rw [mapNext_next, ← hg.jump, ← hg.advance]
    split <;> rfl

/-- An instruction other than the sentinel carries the change through. -/
theorem Unseen.exec {i : Instr} (hb : i ≠ .brk) (s : State) : exec i (g s) = mapNext g (exec i s) := by
  cases i with
  | hlt =>
    show execHlt (g s) = mapNext g (execHlt s)
    rw [execHlt, execHlt, mapNext_next, ← hg.advance]
    exact congrArg _ (hg.halt (Machine.advance s)).symm
  | ldc d v => exact hg.checkReg (hg.writesReg d _ s)
  | ldr d r => exact hg.checkReg (hg.readReg fun _ => hg.memRead fun _ => hg.writesReg d _ s)
  | cpy d r => exact hg.checkReg (hg.readReg fun _ => hg.writesReg d _ s)
  | str v r =>
    exact hg.readReg fun _ => hg.readReg fun _ => hg.memWrite fun u => by rw [mapNext_next, hg.advance]
  | add d r =>
    show Machine.accumulate (Machine.addWord (g s).cfg) d r (g s) = _
    rw [hg.addWord]
    exact hg.accumulate _ d r s
  | sub d r =>
    show Machine.accumulate (Machine.subWord (g s).cfg) d r (g s) = _
    rw [hg.subWord]
    exact hg.accumulate _ d r s
  | beq t target => exact hg.branchOn _ t target s
  | bne t target => exact hg.branchOn _ t target s
  | prr r => exact hg.readReg fun v => hg.prints v s
  | prm r => exact hg.readReg fun _ => hg.memRead fun v => hg.prints v s
  | brk => exact absurd rfl hb

end

end Sys2Proof.Machine

/-! SUPPORT. The output: what an instruction appends, and that no step reads it back. -/

namespace Sys2Proof.Machine

variable {s t : State}

/-! ### What is appended -/

/-- An effect leaves the output, or is that of `prr` or `prm`. -/
theorem Effect.out_eq_or_print {i : Instr} (h : Effect i s t) :
    t.out = s.out ∨ ∃ r v, (i = .prr r ∨ i = .prm r) ∧ t.out = s.out ++ [v] := by
  cases h with
  | prints r v w hr hi => exact .inr ⟨r, w, hi.imp (fun h => h.1) (fun h => h.1), rfl⟩
  | _ => exact .inl rfl

/-- `prr` and `prm` append one word when they have their effect. -/
theorem Effect.out_of_print {i : Instr} {r : Nat} (hi : i = .prr r ∨ i = .prm r) (h : Effect i s t) :
    ∃ v, t.out = s.out ++ [v] := by
  cases h with
  | prints r v w hr hi => exact ⟨w, rfl⟩
  | writesReg d v hd h => rcases hi with rfl | rfl <;> simp at h
  | stores v r val addr h => rcases hi with rfl | rfl <;> cases h
  | taken r target v hr h => rcases hi with rfl | rfl <;> simp at h
  | notTaken r target v hr h => rcases hi with rfl | rfl <;> simp at h
  | halts h => rcases hi with rfl | rfl <;> cases h

/-- A step leaves the output, or executed `prr` or `prm` and appended one word. -/
theorem out_of_step (h : step s = .next t) :
    t.out = s.out ∨ ∃ r v, (s.executing = some (.prr r) ∨ s.executing = some (.prm r)) ∧ t.out = s.out ++ [v] := by
  cases step_outcome h with
  | faultsBefore k hr => exact .inl rfl
  | faultsInside k hu =>
    obtain ⟨-, -, -, -, -, -, ho, -⟩ := hu.frame
    exact .inl ho
  | executes i hi hu he =>
    obtain ⟨-, -, -, -, -, -, ho, -⟩ := hu.frame
    rw [hi, ← ho]
    exact he.out_eq_or_print.imp_right fun ⟨r, v, hp, hv⟩ => ⟨r, v, by simpa using hp, hv⟩
  | controls hr ho hf => exact .inl ho

/-- `prr` and `prm` append one word unless they fault. -/
theorem out_of_print_step {r : Nat} (hc : s.cfg.codesOk = true)
    (hx : s.executing = some (.prr r) ∨ s.executing = some (.prm r)) (h : step s = .next t) (hf : t.fault = none) :
    ∃ v, t.out = s.out ++ [v] := by
  obtain ⟨i, hi, hp, hb⟩ : ∃ i, s.executing = some i ∧ (i = .prr r ∨ i = .prm r) ∧ i ≠ .brk := by
    rcases hx with hx | hx
    · exact ⟨_, hx, .inl rfl, nofun⟩
    · exact ⟨_, hx, .inr rfl, nofun⟩
  obtain ⟨u, hu, he⟩ := step_of_executing hc hb hi
  obtain ⟨-, -, -, -, -, -, ho, -⟩ := hu.frame
  rw [← ho]
  rcases exec_next hb (he ▸ h) with ⟨k, -, rfl⟩ | he
  · cases hf
  · exact he.out_of_print hp

/-! ### The words printed before are not read back -/

section
variable (before : List Nat)

/-- No instruction sees the words printed before: a word it prints goes after them. -/
theorem unseen_printedBefore : Unseen (printedBefore before) where
  regs _ := rfl
  ip _ := rfl
  mem _ := rfl
  ramLen _ := rfl
  wordBits _ := rfl
  setReg _ _ _ := rfl
  emit v s := by simp [printedBefore, emit]
  raise _ _ _ := rfl
  advance _ := rfl
  jump _ _ := rfl
  store _ _ := rfl
  halt _ := rfl

theorem execBrk_printedBefore (s : State) :
    execBrk (printedBefore before s) = mapNext (printedBefore before) (execBrk s) := by
  cases hb : s.cfg.build with
  | plain => rw [execBrk_plain hb, execBrk_plain (s := printedBefore before s) hb]; rfl
  | debugger =>
    cases hl : lookupCell s.breaks s.ip with
    | some w => rw [execBrk_of_some hb hl, execBrk_of_some (s := printedBefore before s) hb hl]; rfl
    | none => rw [execBrk_of_none hb hl, execBrk_of_none (s := printedBefore before s) hb hl]; rfl

theorem execute_printedBefore (f : Fields) (s : State) :
    execute f (printedBefore before s) = mapNext (printedBefore before) (execute f s) := by
  cases e : instrOf s.cfg f with
  | none => rw [execute_of_none e, execute_of_none (s := printedBefore before s) e]; rfl
  | some i =>
    by_cases hb : i = .brk
    · subst hb
      rw [execute_of_brk e, execute_of_brk (s := printedBefore before s) e]; rfl
    · rw [execute_of_some e hb, execute_of_some (s := printedBefore before s) e hb]
      exact (unseen_printedBefore before).exec hb s

theorem fetch_printedBefore {k k' : Nat → Result} (hk : ∀ w, k' w = mapNext (printedBefore before) (k w)) :
    fetch (printedBefore before s) k' = mapNext (printedBefore before) (fetch s k) :=
  mapNext_ite (hk _) rfl

theorem plainCycle_printedBefore (s : State) :
    plainCycle (printedBefore before s) = mapNext (printedBefore before) (plainCycle s) :=
  fetch_printedBefore before fun _ => execute_printedBefore before _ s

theorem iterationTop_printedBefore (s : State) :
    iterationTop (printedBefore before s) = mapNext (printedBefore before) (iterationTop s) :=
  fetch_printedBefore before fun _ =>
    mapNext_ite (execBrk_printedBefore before s) (mapNext_ite rfl (execute_printedBefore before _ s))

theorem setBreakpoint_printedBefore (b : Nat) (s : State) :
    setBreakpoint b (printedBefore before s) = printedBefore before (setBreakpoint b s) := by
  cases h : hasSentinel s b with
  | true => rw [setBreakpoint_of_true h, setBreakpoint_of_true (s := printedBefore before s) h]
  | false => rw [setBreakpoint_of_false h, setBreakpoint_of_false (s := printedBefore before s) h]; rfl

theorem clearBreakpoint_printedBefore (b : Nat) (s : State) :
    clearBreakpoint b (printedBefore before s) = printedBefore before (clearBreakpoint b s) := by
  cases h : hasSentinel s b with
  | false => rw [clearBreakpoint_of_false h, clearBreakpoint_of_false (s := printedBefore before s) h]
  | true =>
    cases hl : lookupCell s.breaks b with
    | none => rw [clearBreakpoint_of_none hl, clearBreakpoint_of_none (s := printedBefore before s) hl]
    | some w => rw [clearBreakpoint_of_some h hl, clearBreakpoint_of_some (s := printedBefore before s) h hl]; rfl

theorem command_printedBefore (c : Command) (f : Fields) (s : State) :
    command c f (printedBefore before s) = mapNext (printedBefore before) (command c f s) := by
  cases c with
  | step => exact execute_printedBefore before f (resume .stepping s)
  | run => exact execute_printedBefore before f (resume .running s)
  | setBreak b =>
    show .next (commandSetBreak b _) = Host.Outcome.next (printedBefore before (commandSetBreak b s))
    rw [commandSetBreak, commandSetBreak, setBreakpoint_printedBefore, apply_ite (printedBefore before)]
    rfl
  | clearBreak b =>
    show .next (commandClearBreak b _) = Host.Outcome.next (printedBefore before (commandClearBreak b s))
    rw [commandClearBreak, commandClearBreak, clearBreakpoint_printedBefore, apply_ite (printedBefore before)]
    rfl
  | _ => rfl

/-- A step does the same with more words printed before. -/
theorem step_printedBefore (s : State) :
    step (printedBefore before s) = mapNext (printedBefore before) (step s) := by
  cases s.kind with
  | latched r hf => rw [step_latched hf, step_latched (s := printedBefore before s) hf]; rfl
  | finished hf hr => rw [step_finished hf hr, step_finished (s := printedBefore before s) hf hr]; rfl
  | plainStepping hf hr hb =>
    rw [step_plainStepping hf hr hb, step_plainStepping (s := printedBefore before s) hf hr hb]; rfl
  | awaiting f hp hc => rw [step_awaiting hp hc, step_awaiting (s := printedBefore before s) hp hc]; rfl
  | enabled h =>
    cases h with
    | cycle hp =>
      rw [step_plain hp, step_plain (s := printedBefore before s) hp]
      exact plainCycle_printedBefore before s
    | iteration ht =>
      rw [step_atTop ht, step_atTop (s := printedBefore before s) ht]
      exact iterationTop_printedBefore before s
    | reads f c rest hp hc =>
      rw [step_command hp hc, step_command (s := printedBefore before s) hp hc]
      exact command_printedBefore before c f { s with cmds := rest }

end

/-- Settles O33: of the instructions' effects only that of `prr` and `prm` touches the output, and no operation of a
step reads it. -/
theorem outputGrowsOnlyByPrinting : Obligations.OutputGrowsOnlyByPrinting := by
  unfold Obligations.OutputGrowsOnlyByPrinting
  refine ⟨fun s t => out_of_step, fun s t r hwf => out_of_print_step (Config.codesOk_of_wf hwf),
    fun s before => step_printedBefore before s, fun s t program h => ?_, rfl⟩
  obtain ⟨-, -, rfl⟩ := loadProgram_next h
  rfl

end Sys2Proof.Machine

/-! SUPPORT. RAM: the range checks of fetch and data access (20_memory.md R31, R32), and what writes a word. -/

namespace Sys2Proof.Machine

variable {s t u : State} {b : Nat}

/-! ### The range checks -/

/-- The fault of `Execute` as `executeFault` builds it is the one the claims name. -/
theorem raise_advance (k : FaultKind) (s : State) : raise k s.ip (advance s) = faulted k s := rfl

/-- Settles O29: each access is decided by its range check, and a store in range is read back. -/
theorem dataAccessChecksRange : Obligations.DataAccessChecksRange := by
  unfold Obligations.DataAccessChecksRange
  intro s addr v
  refine ⟨fun k => ⟨memRead_of_lt, fun ha => ?_⟩, fun k => ⟨fun ha => ?_, fun ha => ?_⟩⟩
  · rw [memRead_of_le ha, raise_advance]
  · exact ⟨s.mem.write addr v, memWrite_of_lt ha, by simp, fun b hb => by simp [hb.symm]⟩
  · rw [memWrite_of_le ha, raise_advance]

/-- Both builds fetch before anything else, so an out-of-range `ip` is all that either looks at. -/
theorem step_of_ramLen_le_ip (h : s.plainReady ∨ s.atTop) (hip : s.cfg.ramLen ≤ s.ip) :
    step s = .next (raise .ipOutOfBounds s.ip s) := by
  rcases h with hp | ht
  · rw [step_plain hp, plainCycle, fetch_of_le hip]
  · rw [step_atTop ht, iterationTop, fetch_of_le hip]

/-- Where every branch target is in range, `ip` leaves the range by one word only (R12, R112). -/
theorem State.Inv.ip_le_ramLen (h : s.Inv) (ht : 2 ^ s.cfg.opShift ≤ s.cfg.ramLen) : s.ip ≤ s.cfg.ramLen := by
  have hip : s.ip ≤ max s.cfg.ramLen (2 ^ s.cfg.opShift - 1) := h.ip
  omega

/-- Settles O9: the fetch is decided by its range check in both builds, and the invariant bounds `ip` by 256. -/
theorem fetchChecksInstructionPointer : Obligations.FetchChecksInstructionPointer := by
  unfold Obligations.FetchChecksInstructionPointer
  refine ⟨fun s k => fetch_of_lt, fun s => step_of_ramLen_le_ip, fun s hinv hlen hshift hip => ?_⟩
  have hle : s.ip ≤ s.cfg.ramLen := hinv.ip_le_ramLen (by rw [hlen, hshift]; decide)
  omega

/-! ### What writes a word of RAM -/

/-- The next step hands `Execute` a `str` whose address register holds `b`. -/
def State.StoresTo (s : State) (b : Nat) : Prop :=
  ∃ v r, s.executing = some (.str v r) ∧ s.regs[r]? = some b

/-- The next step reads, in a pause, a breakpoint command on `b`. -/
def State.ReadsBreakpointCommand (s : State) (b : Nat) : Prop :=
  ∃ f rest, s.pausedWith f ∧ (s.cmds = .setBreak b :: rest ∨ s.cmds = .clearBreak b :: rest)

/-- Of the effects only that of `str` changes a word, and only the word at its address. -/
theorem Effect.str_of_read_ne {i : Instr} (h : Effect i s t) (hne : t.mem.read b ≠ s.mem.read b) :
    ∃ v r, i = .str v r ∧ s.regs[r]? = some b := by
  cases h with
  | stores v r val addr hi hv hr ha =>
    by_cases hb : addr = b
    · exact ⟨v, r, hi, hb ▸ hr⟩
    · exact absurd (by simp [hb]) hne
  | _ => exact absurd rfl hne

/-- The command on `c` leaves every word but that at `c`, in range (R132) or not (R135). -/
theorem commandSetBreak_read {c : Nat} (h : b ≠ c) : (commandSetBreak c s).mem.read b = s.mem.read b := by
  unfold commandSetBreak
  split
  · exact setBreakpoint_read h
  · rfl

/-- The command on `c` leaves every word but that at `c`, in range (R133) or not (R135). -/
theorem commandClearBreak_read {c : Nat} (h : b ≠ c) : (commandClearBreak c s).mem.read b = s.mem.read b := by
  unfold commandClearBreak
  split
  · exact clearBreakpoint_read h
  · rfl

/-- `Execute` writes RAM only where it is handed a `str`, the state it is entered in having the same registers. -/
theorem storesTo_of_execute {f : Fields} (hu : HandsOver s u) (hi : s.executing = instrOf s.cfg f)
    (h : execute f u = .next t) (hne : t.mem.read b ≠ s.mem.read b) : s.StoresTo b := by
  obtain ⟨hcfg, hregs, -, hmem, -⟩ := hu.frame
  rw [← hmem] at hne
  rcases execute_cases h with ⟨k, -, rfl⟩ | ⟨i, -, hf, he⟩
  · exact absurd rfl hne
  · obtain ⟨v, r, rfl, hr⟩ := he.str_of_read_ne hne
    exact ⟨v, r, by rw [hi, ← hcfg, hf], hregs ▸ hr⟩

/-- A command writes RAM by the instruction it resumes, or is a breakpoint command on that word. -/
theorem storesTo_or_breakpoint_of_command {f : Fields} {c : Command} {rest : List Command} (hp : s.pausedWith f)
    (hc : s.cmds = c :: rest) (h : command c f { s with cmds := rest } = .next t)
    (hne : t.mem.read b ≠ s.mem.read b) : s.StoresTo b ∨ s.ReadsBreakpointCommand b := by
  rcases command_next h with ⟨-, rfl⟩ | ⟨rfl, h⟩ | ⟨rfl, h⟩ | ⟨d, rfl, rfl⟩ | ⟨d, rfl, rfl⟩ | ⟨-, rfl⟩ | ⟨r, rfl, -⟩
  · exact absurd rfl hne
  · exact .inl (storesTo_of_execute (.step hp hc) (executing_of_resuming hp hc (.inl rfl)) h hne)
  · exact .inl (storesTo_of_execute (.run hp hc) (executing_of_resuming hp hc (.inr rfl)) h hne)
  · by_cases hb : b = d
    · exact .inr ⟨f, rest, hp, .inl (hb ▸ hc)⟩
    · exact absurd (commandSetBreak_read hb) hne
  · by_cases hb : b = d
    · exact .inr ⟨f, rest, hp, .inr (hb ▸ hc)⟩
    · exact absurd (commandClearBreak_read hb) hne
  · exact absurd rfl hne
  · exact absurd rfl hne

theorem StepCase.storesTo_or_breakpoint (h : StepCase s t) (hne : t.mem.read b ≠ s.mem.read b) :
    s.StoresTo b ∨ s.ReadsBreakpointCommand b := by
  cases h with
  | outOfRange h hip => exact absurd rfl hne
  | runs h hip he =>
    have hr : s.plainReady ∨ s.atTop ∧ s.runState = .running := h.imp_right fun ⟨ht, hr, _⟩ => ⟨ht, hr⟩
    exact .inl (storesTo_of_execute (.running hr) (by rw [executing_of_running hr, State.instrAtIp, if_pos hip]) he hne)
  | sentinel h hip hs he =>
    rcases execBrk_cases h.1 he with ⟨w, -, rfl⟩ | ⟨-, rfl⟩
    · exact absurd rfl hne
    · exact absurd rfl hne
  | pauses h hr hip hs => exact absurd rfl hne
  | reads f c rest hp hc he => exact storesTo_or_breakpoint_of_command hp hc he hne

/-- Settles O31: of the kinds of step only `Execute` of a `str` and the two breakpoint commands write RAM. -/
theorem ramChangesOnlyByStoreOrBreakpoint : Obligations.RamChangesOnlyByStoreOrBreakpoint := by
  unfold Obligations.RamChangesOnlyByStoreOrBreakpoint
  intro s t b h hne
  exact ((step_next h).storesTo_or_breakpoint hne).imp_left fun ⟨v, r, hx, hr⟩ => ⟨v, r, b, hx, hr, rfl⟩

end Sys2Proof.Machine

/-! SUPPORT. The encoding of an instruction: decoding it, the fields its format leaves unused, and the table read in
both directions (30_encoding.md sections 1 to 3). -/

namespace Sys2Proof

variable {c : Config} {i : Instr}

/-! ### Encode, then decode -/

/-- Dispatch on the triple of an instruction gives that instruction. -/
theorem instrOf_fields (hc : c.codesOk = true) (i : Instr) : instrOf c (i.fields c) = some i := by
  cases i with
  | hlt => exact (Laws.FieldLayout.hlt c hc).2
  | ldc d v => exact (Laws.FieldLayout.ldc d v c hc).2
  | ldr d s => exact (Laws.FieldLayout.ldr d s c hc).2
  | cpy d s => exact (Laws.FieldLayout.cpy d s c hc).2
  | str v s => exact (Laws.FieldLayout.str v s c hc).2
  | add d s => exact (Laws.FieldLayout.add d s c hc).2
  | sub d s => exact (Laws.FieldLayout.sub d s c hc).2
  | beq t target => exact (Laws.FieldLayout.beq t target c hc).2
  | bne t target => exact (Laws.FieldLayout.bne t target c hc).2
  | prr s => exact (Laws.FieldLayout.prr s c hc).2
  | prm s => exact (Laws.FieldLayout.prm s c hc).2
  | brk => exact (Laws.FieldLayout.brk c hc).2

theorem decodeFields_encode (hc : c.codesOk = true) (hf : i.fits c = true) :
    decodeFields c (encode c i) = i.fields c := decodeFields_encodeFields (Instr.fields_fits hc hf)

theorem decode_encode (hc : c.codesOk = true) (hf : i.fits c = true) : decode c (encode c i) = .ok i :=
  decode_eq_ok.mpr (by rw [decodeFields_encode hc hf, instrOf_fields hc])

theorem encode_lt (hc : c.codesOk = true) (hf : i.fits c = true) : encode c i < 2 ^ c.instrBits :=
  encodeFields_lt (Instr.fields_fits hc hf)

theorem Instr.fits_of_wf {numReg : Nat} (h : i.wf c numReg = true) : i.fits c = true := (Bool.and_eq_true_iff.mp h).2

theorem Config.reference_wf : Config.reference.wf = true := by decide

/-- An instruction word of the reference configuration has 24 bits, so the opcode table's numbering of them reads it
as the decoder does. -/
theorem decodeTableWord_encode (hf : i.fits Config.reference = true) :
    decodeTableWord 24 (encode Config.reference i) = some i := by
  have hc := Config.codesOk_of_wf Config.reference_wf
  have hlt : encode Config.reference i < 2 ^ 24 := encode_lt hc hf
  rw [decodeTableWord, Nat.mod_mod, Nat.mod_eq_of_lt hlt, decode_encode hc hf]

/-- Settles O1: the triple of a fitting instruction survives packing, and dispatch on it finds the instruction. -/
theorem decodeOfEncodeIsIdentity : Obligations.DecodeOfEncodeIsIdentity := by
  unfold Obligations.DecodeOfEncodeIsIdentity
  refine ⟨fun c i hwf hf => ?_, fun i hf => decodeTableWord_encode hf⟩
  have hc := Config.codesOk_of_wf hwf
  obtain ⟨-, hbits, -, -⟩ := Config.bounds_of_wf hwf
  exact ⟨(encode_lt hc hf).trans_le (Nat.pow_le_pow_right (by decide) hbits), decode_encode hc hf⟩

/-! ### The packing formula and the three fields -/

/-- The decoder reads the low `INSTR_BITS` bits only. -/
theorem decodeFields_mod (c : Config) (w : Nat) : decodeFields c (w % 2 ^ (3 * c.opShift)) = decodeFields c w := by
  have e : 2 ^ (3 * c.opShift) = 2 ^ c.opShift * (2 ^ c.opShift * 2 ^ c.opShift) := by ring
  simp only [decodeFields, e, Nat.mod_mul_right_mod, Nat.mod_mul_right_div_self, Nat.mod_mod]

/-- The highest field, as one division. -/
theorem decodeFields_arg1 (c : Config) (w : Nat) :
    (decodeFields c w).arg1 = w / 2 ^ (2 * c.opShift) % 2 ^ c.opShift := by
  rw [decodeFields, Nat.div_div_eq_div_mul, ← Nat.pow_add, ← Nat.two_mul]

/-! ### The fields a format does not use -/

/-- The triple of an instruction holds 0 in the fields its format does not use. -/
theorem Instr.fields_unused (c : Config) (i : Instr) :
    (formatOf i.mnemonic = .noOperand → (i.fields c).arg0 = 0) ∧
      (formatOf i.mnemonic = .noOperand ∨ formatOf i.mnemonic = .reg → (i.fields c).arg1 = 0) := by
  cases i <;> simp [formatOf, Instr.mnemonic, Instr.fields]

/-- An instruction's triple carries the code of its row. -/
@[simp] theorem Instr.fields_op (c : Config) (i : Instr) : (i.fields c).op = opcode c i.mnemonic := by
  cases i <;> rfl

/-- Triples that agree in the fields the format uses select the same instruction. -/
theorem instrOf_congr {f f' : Fields} {m : Mnemonic} (hm : mnemonicOf c f.op = some m) (ho : f'.op = f.op)
    (hu : formatOf m = .noOperand ∨ formatOf m = .reg ∧ f'.arg0 = f.arg0) : instrOf c f' = instrOf c f := by
  unfold instrOf
  rw [ho, hm]
  cases m <;> simp_all [formatOf]

theorem decode_congr {w w' : Nat} (ho : (decodeFields c w').op = (decodeFields c w).op)
    (hi : instrOf c (decodeFields c w') = instrOf c (decodeFields c w)) : decode c w' = decode c w := by
  simp only [decode, hi, ho]

/-! ### The opcode table and its inverse -/

theorem mnemonicOf_eq_some (hc : c.codesOk = true) {code : Nat} {m : Mnemonic} :
    mnemonicOf c code = some m ↔ opcode c m = code :=
  ⟨opcode_of_mnemonicOf, fun h => h ▸ mnemonicOf_opcode hc m⟩

theorem mnemonicOf_eq_none {code : Nat} : mnemonicOf c code = none ↔ ∀ m, opcode c m ≠ code := by
  simp [mnemonicOf, List.find?_eq_none, mem_allMnemonics]

/-- A code of no row is one that does not stand in the column of codes. -/
theorem mnemonicOf_eq_none_iff_notMem {code : Nat} :
    mnemonicOf c code = none ↔ code ∉ allMnemonics.map (opcode c) := by
  simp [mnemonicOf_eq_none, mem_allMnemonics]

/-- Settles O4: the table is compared entry by entry, and its inverse is a search in it by code. -/
theorem opcodeTableAndInverse : Obligations.OpcodeTableAndInverse := by
  unfold Obligations.OpcodeTableAndInverse
  refine ⟨rfl, Config.reference_wf, fun c m m' hwf => ?_,
    fun c code m hwf => mnemonicOf_eq_some (Config.codesOk_of_wf hwf), fun c code => mnemonicOf_eq_none,
    fun code => mnemonicOf_eq_none_iff_notMem⟩
  have hc := Config.codesOk_of_wf hwf
  obtain ⟨hpos, hlt⟩ := opcode_range hc m
  exact ⟨hpos, hlt, opcode_inj hc⟩

end Sys2Proof

/-! SUPPORT. One line of assembly: the text of an instruction compiles to its word, and a word a line compiles to is
that of an instruction (30_encoding.md R61, R62, R66, R67). -/

namespace Sys2Proof.Machine

variable {c : Config} {numReg : Nat} {labels : LabelTable}

/-! ### The text of an instruction, token by token -/

/-- The operand tokens of an instruction's text (R54, R61). -/
def operandTexts : Instr → List Text
  | .hlt => []
  | .ldc d v => [regText d, decimal v]
  | .ldr d s => [regText d, regText s]
  | .cpy d s => [regText d, regText s]
  | .str v s => [regText v, regText s]
  | .add d s => [regText d, regText s]
  | .sub d s => [regText d, regText s]
  | .beq t target => [regText t, decimal target]
  | .bne t target => [regText t, decimal target]
  | .prr s => [regText s]
  | .prm s => [regText s]
  | .brk => []

/-- The text of an instruction is its mnemonic and its operand tokens, with a space between two. -/
theorem instrText_eq_intercalate (i : Instr) :
    instrText i = [' '].intercalate (mnemonicText i.mnemonic :: operandTexts i) := by
  cases i <;> simp [instrText, operandTexts, Instr.mnemonic, List.intercalate]

/-- A token of an instruction's text: not empty, letters and digits only. -/
structure IsWord (t : Text) : Prop where
  ne_nil : t ≠ []
  alphanum : ∀ ch ∈ t, ch.isAlphanum = true

theorem isWord_mnemonicText (m : Mnemonic) : IsWord (mnemonicText m) :=
  ⟨mnemonicText_ne_nil m, List.all_eq_true.mp (by cases m <;> decide)⟩

theorem isWord_decimal (v : Nat) : IsWord (decimal v) :=
  ⟨decimal_ne_nil v, fun ch h => by simp [Char.isAlphanum, isDigit_of_mem_decimal v ch h]⟩

theorem isWord_regText (r : Nat) : IsWord (regText r) := by
  refine ⟨regText_ne_nil r, fun ch h => ?_⟩
  rcases List.mem_cons.mp h with rfl | h
  · decide
  · exact (isWord_decimal r).alphanum ch h

theorem isWord_of_mem_tokens {i : Instr} : ∀ t ∈ mnemonicText i.mnemonic :: operandTexts i, IsWord t := by
  refine List.forall_mem_cons.mpr ⟨isWord_mnemonicText _, ?_⟩
  cases i <;> simp [operandTexts, isWord_regText, isWord_decimal]

theorem IsWord.space_notMem {t : Text} (h : IsWord t) : ' ' ∉ t := fun hs => absurd (h.alphanum ' ' hs) (by decide)

/-- Splitting words joined by single spaces gives the words. -/
theorem tokens_intercalate {ts : List Text} (h : ∀ t ∈ ts, IsWord t) : tokens ([' '].intercalate ts) = ts := by
  induction ts with
  | nil => rfl
  | cons t us ih =>
    obtain ⟨ht, hus⟩ := List.forall_mem_cons.mp h
    cases us with
    | nil => simpa [List.intercalate, tokens] using tokensFrom_last t ht.space_notMem ht.ne_nil
    | cons u us =>
      rw [List.intercalate_cons_cons, List.append_assoc, List.singleton_append, tokens,
        tokensFrom_cons t ht.space_notMem ht.ne_nil]
      exact congrArg (t :: ·) (ih hus)

theorem tokens_instrText (i : Instr) : tokens (instrText i) = mnemonicText i.mnemonic :: operandTexts i := by
  rw [instrText_eq_intercalate, tokens_intercalate isWord_of_mem_tokens]

/-! ### The ends of an instruction's text -/

/-- A line begins and ends with a letter or a digit: neither white space nor `#` nor `:` stands at its ends. -/
def WordEnds (l : Text) : Prop :=
  ∃ first last, l.head? = some first ∧ l.getLast? = some last ∧ first.isAlphanum = true ∧ last.isAlphanum = true

theorem IsWord.wordEnds {t : Text} (h : IsWord t) : WordEnds t :=
  ⟨t.head h.ne_nil, t.getLast h.ne_nil, List.head?_eq_some_head h.ne_nil, List.getLast?_eq_some_getLast h.ne_nil,
    h.alphanum _ (List.head_mem h.ne_nil), h.alphanum _ (List.getLast_mem h.ne_nil)⟩

theorem WordEnds.append_cons {l r : Text} (hl : WordEnds l) (hr : WordEnds r) (ch : Char) : WordEnds (l ++ ch :: r) := by
  obtain ⟨first, -, hfirst, -, hf, -⟩ := hl
  obtain ⟨-, last, -, hlast, -, hla⟩ := hr
  exact ⟨first, last, by simp [hfirst], by simp [List.getLast?_cons, hlast], hf, hla⟩

theorem wordEnds_intercalate {t : Text} {ts : List Text} (h : ∀ u ∈ t :: ts, IsWord u) :
    WordEnds ([' '].intercalate (t :: ts)) := by
  induction ts generalizing t with
  | nil => simpa [List.intercalate] using (h t (by simp)).wordEnds
  | cons u us ih =>
    obtain ⟨ht, hus⟩ := List.forall_mem_cons.mp h
    rw [List.intercalate_cons_cons, List.append_assoc, List.singleton_append]
    exact ht.wordEnds.append_cons (ih hus) ' '

theorem wordEnds_instrText (i : Instr) : WordEnds (instrText i) :=
  instrText_eq_intercalate i ▸ wordEnds_intercalate isWord_of_mem_tokens

theorem isWhitespace_of_isAlphanum {ch : Char} (h : ch.isAlphanum = true) : ch.isWhitespace = false := by
  by_contra hw
  simp only [Bool.not_eq_false, Char.isWhitespace, Bool.or_eq_true, decide_eq_true_eq] at hw
  rcases hw with ((rfl | rfl) | rfl) | rfl <;> exact absurd h (by decide)

theorem dropWhile_of_head? {l : Text} {ch : Char} (h : l.head? = some ch) (hw : ch.isWhitespace = false) :
    l.dropWhile Char.isWhitespace = l := by
  obtain ⟨tail, rfl⟩ := List.head?_eq_some_iff.mp h
  exact List.dropWhile_cons_of_neg (by simp [hw])

/-- Stripping leaves such a line as it is. -/
theorem WordEnds.strip_eq {l : Text} (h : WordEnds l) : strip l = l := by
  obtain ⟨first, last, hfirst, hlast, hf, hla⟩ := h
  rw [strip, dropWhile_of_head? hfirst (isWhitespace_of_isAlphanum hf),
    dropWhile_of_head? (List.head?_reverse.trans hlast) (isWhitespace_of_isAlphanum hla), List.reverse_reverse]

/-- Cleaning keeps such a line: it is neither blank nor a comment. -/
theorem WordEnds.cleanLines_eq {l : Text} (h : WordEnds l) : cleanLines [l] = [l] := by
  have hs := h.strip_eq
  obtain ⟨first, -, hfirst, -, hf, -⟩ := h
  have hne : l ≠ [] := by rintro rfl; cases hfirst
  have hcomment : first ≠ '#' := by rintro rfl; exact absurd hf (by decide)
  simp [cleanLines, hs, hfirst, hne, hcomment]

theorem WordEnds.ne_dataDivider {l : Text} (h : WordEnds l) : l ≠ dataDivider := by
  rintro rfl
  obtain ⟨first, -, hfirst, -, hf, -⟩ := h
  cases hfirst
  exact absurd hf (by decide)

theorem WordEnds.isLabelLine_eq {l : Text} (h : WordEnds l) : isLabelLine l = false := by
  obtain ⟨-, last, -, hlast, -, hla⟩ := h
  have hcolon : last ≠ ':' := by rintro rfl; exact absurd hla (by decide)
  simp [isLabelLine, hlast, hcolon]

/-! ### A line compiles to the word of an instruction -/

theorem compileLine_of_tokens {line : Text} {m : Mnemonic} {operands : List Text} {f : Fields}
    (ht : tokens line = mnemonicText m :: operands) (hf : resolveOperands c numReg labels line m operands = .ok f) :
    compileLine c numReg labels line = .ok (encodeFields c f) := by
  simp [compileLine, ht, hf]

/-- The operand tokens of an instruction resolve to its fields. -/
theorem resolveOperands_operandTexts {i : Instr} (line : Text) (h : i.wf c numReg = true) :
    resolveOperands c numReg labels line i.mnemonic (operandTexts i) = .ok (i.fields c) := by
  cases i <;> simp_all [Instr.wf, Instr.regsOk, Instr.fits, regOk, fieldOk, resolveOperands, operandTexts, formatOf,
    Instr.mnemonic, Instr.fields, resolveReg_regText, resolveValue_decimal]

theorem compileLine_instrText {i : Instr} (h : i.wf c numReg = true) :
    compileLine c numReg labels (instrText i) = .ok (encode c i) :=
  compileLine_of_tokens (tokens_instrText i) (resolveOperands_operandTexts _ h)

/-- Operands that resolve are the fields of a well-formed instruction, format by format. -/
theorem exists_instr_of_resolveOperands {line : Text} {m : Mnemonic} {operands : List Text} {f : Fields}
    (hn : numReg ≤ 2 ^ c.opShift) (h : resolveOperands c numReg labels line m operands = .ok f) :
    ∃ i : Instr, i.wf c numReg = true ∧ i.fields c = f := by
  have hfit : ∀ {r : Nat}, r < numReg → r < 2 ^ c.opShift := fun hr => hr.trans_le hn
  rcases resolveOperands_ok h with ⟨hm, rfl⟩ | ⟨r, hm, hr, rfl⟩ | ⟨r, q, hm, hr, hq, rfl⟩ | ⟨r, v, hm, hr, hv, rfl⟩
  · cases m <;> cases hm
    exacts [⟨.hlt, rfl, rfl⟩, ⟨.brk, rfl, rfl⟩]
  · have hwf : (regOk numReg r && fieldOk c r) = true := by simp [regOk, fieldOk, hr, hfit hr]
    cases m <;> cases hm
    exacts [⟨.prr r, hwf, rfl⟩, ⟨.prm r, hwf, rfl⟩]
  · have hwf : (regOk numReg r && regOk numReg q && (fieldOk c r && fieldOk c q)) = true := by
      simp [regOk, fieldOk, hr, hq, hfit hr, hfit hq]
    cases m <;> cases hm
    exacts [⟨.ldr r q, hwf, rfl⟩, ⟨.cpy r q, hwf, rfl⟩, ⟨.str r q, hwf, rfl⟩, ⟨.add r q, hwf, rfl⟩,
      ⟨.sub r q, hwf, rfl⟩]
  · have hwf : (regOk numReg r && (fieldOk c r && fieldOk c v)) = true := by simp [regOk, fieldOk, hr, hfit hr, hv]
    cases m <;> cases hm
    exacts [⟨.ldc r v, hwf, rfl⟩, ⟨.beq r v, hwf, rfl⟩, ⟨.bne r v, hwf, rfl⟩]

/-- A compiled line is the word of a well-formed instruction. -/
theorem compileLine_encode {line : Text} {w : Nat} (hn : numReg ≤ 2 ^ c.opShift)
    (h : compileLine c numReg labels line = .ok w) : ∃ i : Instr, i.wf c numReg = true ∧ w = encode c i := by
  obtain ⟨m, operands, f, hf, rfl⟩ := compileLine_ok h
  obtain ⟨i, hwf, rfl⟩ := exists_instr_of_resolveOperands hn hf
  exact ⟨i, hwf, rfl⟩

/-! ### The words of a single instruction -/

theorem assemble_single {line : Text} (h : WordEnds line) :
    assemble c numReg [line] = compileAll c numReg [] [line] := by
  simp [assemble, h.cleanLines_eq, codeLines, dataLines, h.ne_dataDivider, h.isLabelLine_eq, findLabels, addData]

theorem assemble_instrText {i : Instr} (h : i.wf c numReg = true) :
    assemble c numReg [instrText i] = .ok [encode c i] := by
  rw [assemble_single (wordEnds_instrText i)]
  simp [compileAll, compileLine_instrText h]

/-- Settles O2: the two field laws, and the text of an instruction as one line, of which its word is compiled. -/
theorem fieldAndAssemblyRoundTrips : Obligations.FieldAndAssemblyRoundTrips := by
  unfold Obligations.FieldAndAssemblyRoundTrips
  refine ⟨fun c f ho h0 h1 => decodeFields_encodeFields ⟨ho, h0, h1⟩, fun c w hw => encodeFields_decodeFields hw,
    fun c numReg i hc h => ⟨encode c i, assemble_instrText h, ?_⟩⟩
  exact decode_encode (Config.codesOk_of_wf hc) (Instr.fits_of_wf h)

/-! ### A value too wide for its field is refused -/

/-- A decimal literal is no label reference. -/
theorem ne_at_of_parseDecimal {t : Text} {n : Nat} (h : parseDecimal t = some n) (name : Text) : t ≠ '@' :: name := by
  rintro rfl
  simp [parseDecimal, show Char.isDigit '@' = false by decide] at h

theorem resolveValue_of_parseDecimal {t : Text} {n : Nat} (h : parseDecimal t = some n) :
    resolveValue c labels t = fieldValue c t n := by
  unfold resolveValue
  split
  · exact absurd rfl (ne_at_of_parseDecimal h _)
  · rw [h]

theorem resolveValue_of_lookup {name : Text} {n : Nat} (h : labels.lookup name = some n) :
    resolveValue c labels ('@' :: name) = fieldValue c ('@' :: name) n := by
  simp [resolveValue, h]

/-- Settles O3: packing and unpacking by the formula, and the width test both kinds of value operand end in. -/
theorem packingFormulaAndFields : Obligations.PackingFormulaAndFields := by
  unfold Obligations.PackingFormulaAndFields
  refine ⟨fun c f => rfl, fun f => rfl, fun f ho h0 h1 => encodeFields_lt (c := Config.reference) ⟨ho, h0, h1⟩,
    fun c w => ⟨rfl, rfl, decodeFields_arg1 c w, (decodeFields_mod c w).symm⟩,
    fun w => ⟨rfl, rfl, decodeFields_arg1 Config.reference w⟩, fun c labels t n h hn => ?_,
    fun c labels name n h hn => ?_⟩
  · rw [resolveValue_of_parseDecimal h, fieldValue_of_le t hn]
  · rw [resolveValue_of_lookup h, fieldValue_of_le _ hn]

/-! ### Unused fields -/

/-- `Execute` sees a triple only through the instruction it selects. -/
theorem execute_congr {f f' : Fields} {s : State} (h : instrOf s.cfg f' = instrOf s.cfg f) :
    execute f' s = execute f s := by
  simp only [execute, h]

/-- Settles O5: an encoded or assembled word is that of an instruction, whose triple holds 0 in the unused fields; and
the instruction a triple selects does not depend on them. -/
theorem unusedFieldsAreIgnored : Obligations.UnusedFieldsAreIgnored := by
  unfold Obligations.UnusedFieldsAreIgnored
  refine ⟨fun c i hc hf => ?_, fun c numReg labels line w hc hn hw => ?_, fun c w w' m hm ho hu => ?_⟩
  · rw [decodeFields_encode (Config.codesOk_of_wf hc) hf]
    exact i.fields_unused c
  · obtain ⟨i, hwf, rfl⟩ := compileLine_encode hn hw
    have hcodes := Config.codesOk_of_wf hc
    rw [decodeFields_encode hcodes (Instr.fits_of_wf hwf)]
    exact ⟨i.mnemonic, by rw [Instr.fields_op, mnemonicOf_opcode hcodes], i.fields_unused c⟩
  · have hi := instrOf_congr hm ho hu
    exact ⟨decode_congr ho hi, fun s hs => execute_congr (hs ▸ hi)⟩

end Sys2Proof.Machine

/-! SUPPORT. Whole sources: the words compiled, and where code labels and data names are bound (30_encoding.md R64,
R65, R66). -/

namespace Sys2Proof.Machine

variable {c : Config} {numReg : Nat}

/-! ### The words compiled -/

/-- The lines compile one by one, each to one word. -/
theorem compileAll_ok {labels : LabelTable} {lines : List Text} {ws : List Nat}
    (h : compileAll c numReg labels lines = .ok ws) : lines.map (compileLine c numReg labels) = ws.map .ok := by
  induction lines generalizing ws with
  | nil => cases h; rfl
  | cons l rest ih =>
    rw [compileAll] at h
    split at h
    · cases h
    · rename_i w hw
      split at h
      · cases h
      · rename_i ws' hws
        cases h
        rw [List.map_cons, List.map_cons, hw, ih hws]

theorem length_of_compileAll {labels : LabelTable} {lines : List Text} {ws : List Nat}
    (h : compileAll c numReg labels lines = .ok ws) : ws.length = lines.length := by
  simpa using congrArg List.length (compileAll_ok h).symm

theorem exists_line_of_compileAll {labels : LabelTable} {lines : List Text} {ws : List Nat}
    (h : compileAll c numReg labels lines = .ok ws) {w : Nat} (hw : w ∈ ws) :
    ∃ l ∈ lines, compileLine c numReg labels l = .ok w :=
  List.mem_map.mp (compileAll_ok h ▸ List.mem_map_of_mem hw)

/-- The instruction lines of a source (R63, R64). -/
def instrLines (source : List Text) : List Text := (codeLines (cleanLines source)).filter fun l => !isLabelLine l

/-- All an assembly that succeeds has done: the code labels, then the data names above the code, then the words. -/
theorem assemble_ok {source : List Text} {ws : List Nat} (h : assemble c numReg source = .ok ws) :
    ∃ codeLabels labels, findLabels (codeLines (cleanLines source)) 0 [] = .ok codeLabels ∧
      addData c.ramLen (dataLines (cleanLines source)) (instrLines source).length codeLabels = .ok labels ∧
      compileAll c numReg labels (instrLines source) = .ok ws := by
  simp only [assemble] at h
  split at h
  · cases h
  · split at h
    · cases h
    · exact ⟨_, _, ‹_›, ‹_›, h⟩

/-- Settles O59: every instruction line compiles to one word, that of a well-formed instruction. -/
theorem assembledWordsAreInstructions : Obligations.AssembledWordsAreInstructions := by
  unfold Obligations.AssembledWordsAreInstructions
  intro c numReg source ws hc hn h
  have hcodes := Config.codesOk_of_wf hc
  obtain ⟨-, labels, -, -, hws⟩ := assemble_ok h
  refine ⟨length_of_compileAll hws, fun w hw => ?_⟩
  obtain ⟨l, -, hl⟩ := exists_line_of_compileAll hws hw
  obtain ⟨i, hwf, rfl⟩ := compileLine_encode hn hl
  have hf := Instr.fits_of_wf hwf
  exact ⟨encode_lt hcodes hf, i, decode_encode hcodes hf, hwf⟩

/-! ### Tables that grow -/

/-- Every name bound in `labels` is bound to the same address in `found`. -/
def LabelTable.Keeps (labels found : LabelTable) : Prop :=
  ∀ name a, labels.lookup name = some a → found.lookup name = some a

theorem LabelTable.Keeps.trans {l m n : LabelTable} (h : l.Keeps m) (h' : m.Keeps n) : l.Keeps n :=
  fun name a ha => h' name a (h name a ha)

/-- Binding a free name keeps the names bound before. -/
theorem LabelTable.keeps_cons {labels : LabelTable} {name : Text} (h : labels.lookup name = none) (a : Nat) :
    labels.Keeps ((name, a) :: labels) := fun other b hb => by
  have hne : other ≠ name := by rintro rfl; simp [h] at hb
  simp [List.lookup_cons, beq_false_of_ne hne, hb]

/-! ### Code labels -/

section CodeLabels

variable {l name : Text} {front back rest : List Text} {seen : Nat} {labels found : LabelTable}

/-- How many of the lines are instruction lines. -/
def instrCount (lines : List Text) : Nat := (lines.filter fun l => !isLabelLine l).length

theorem findLabels_instr (hl : isLabelLine l = false) :
    findLabels (l :: rest) seen labels = findLabels rest (seen + 1) labels := by simp [findLabels, hl]

/-- A label line that is accepted binds its name, which was free, to the number of lines seen so far. -/
theorem findLabels_label (hl : isLabelLine l = true) (h : findLabels (l :: rest) seen labels = .ok found) :
    labels.lookup l.dropLast = none ∧ findLabels rest seen ((l.dropLast, seen) :: labels) = .ok found := by
  rw [findLabels, if_pos hl] at h
  split at h
  · cases h
  · split at h
    · cases h
    · exact ⟨Option.not_isSome_iff_eq_none.mp ‹_›, h⟩

/-- After the first part of the lines the count has advanced by its instruction lines, and no name is lost. -/
theorem findLabels_append (h : findLabels (front ++ back) seen labels = .ok found) :
    ∃ mid : LabelTable, labels.Keeps mid ∧ findLabels back (seen + instrCount front) mid = .ok found := by
  induction front generalizing seen labels with
  | nil => exact ⟨labels, fun _ _ => id, h⟩
  | cons l front ih =>
    rw [List.cons_append] at h
    cases hl : isLabelLine l with
    | true =>
      obtain ⟨hfree, h⟩ := findLabels_label hl h
      obtain ⟨mid, hkeeps, hback⟩ := ih h
      exact ⟨mid, (LabelTable.keeps_cons hfree seen).trans hkeeps, by simpa [instrCount, hl] using hback⟩
    | false =>
      obtain ⟨mid, hkeeps, hback⟩ := ih (findLabels_instr hl ▸ h)
      refine ⟨mid, hkeeps, ?_⟩
      rw [← hback, instrCount, List.filter_cons_of_pos (by simp [hl]), List.length_cons, ← instrCount]
      congr 1
      omega

theorem keeps_of_findLabels (h : findLabels rest seen labels = .ok found) : labels.Keeps found := by
  obtain ⟨mid, hkeeps, hmid⟩ := findLabels_append (back := []) (by rwa [List.append_nil])
  cases hmid
  exact hkeeps

theorem isLabelLine_append_colon (name : Text) : isLabelLine (name ++ [':']) = true := by simp [isLabelLine]

/-- At the line that defines a name, the name was free, and it stays bound to the instruction lines before it. -/
theorem findLabels_defines (h : findLabels (front ++ (name ++ [':']) :: back) seen labels = .ok found) :
    labels.lookup name = none ∧ found.lookup name = some (seen + instrCount front) := by
  obtain ⟨mid, hkeeps, hmid⟩ := findLabels_append h
  obtain ⟨hfree, hback⟩ := findLabels_label (isLabelLine_append_colon name) hmid
  rw [List.dropLast_concat] at hfree hback
  refine ⟨?_, keeps_of_findLabels hback _ _ (by simp)⟩
  by_contra hbound
  obtain ⟨a, ha⟩ := Option.ne_none_iff_exists'.mp hbound
  simp [hkeeps name a ha] at hfree

end CodeLabels

/-- Settles O57: the first definition of a name binds it for good, and a second one would need it free. -/
theorem labelsNameTheNextInstruction : Obligations.LabelsNameTheNextInstruction := by
  unfold Obligations.LabelsNameTheNextInstruction
  refine ⟨fun before after name labels h => ?_, fun before between after name labels h => ?_⟩
  · simpa [instrCount] using (findLabels_defines h).2
  · rw [List.append_assoc, List.cons_append] at h
    obtain ⟨mid, -, hmid⟩ := findLabels_append h
    obtain ⟨-, hbetween⟩ := findLabels_label (isLabelLine_append_colon name) hmid
    obtain ⟨hfree, -⟩ := findLabels_defines hbetween
    simp at hfree

/-! ### Data names -/

section DataNames

variable {ramLen base count : Nat} {l name : Text} {front back rest : List Text} {labels found : LabelTable}

/-- The words the data directives among the lines ask for. -/
def dataSize (lines : List Text) : Nat := ((lines.filterMap parseDirective).map Prod.snd).sum

/-- A data line that is accepted is a directive whose name was free and whose words fit in RAM above the base. -/
theorem addData_cons (h : addData ramLen (l :: rest) base labels = .ok found) :
    ∃ name count, parseDirective l = some (name, count) ∧ labels.lookup name = none ∧ base + count ≤ ramLen ∧
      addData ramLen rest (base + count) ((name, base) :: labels) = .ok found := by
  rw [addData] at h
  split at h
  · cases h
  · split at h
    · cases h
    · split at h
      · cases h
      · exact ⟨_, _, ‹_›, Option.not_isSome_iff_eq_none.mp ‹_›, Nat.not_lt.mp ‹_›, h⟩

/-- After the first part of the data lines the base has advanced by their sizes, and no name is lost. -/
theorem addData_append (h : addData ramLen (front ++ back) base labels = .ok found) :
    ∃ mid : LabelTable, labels.Keeps mid ∧ addData ramLen back (base + dataSize front) mid = .ok found := by
  induction front generalizing base labels with
  | nil => exact ⟨labels, fun _ _ => id, h⟩
  | cons l front ih =>
    obtain ⟨name, count, hl, hfree, -, hrest⟩ := addData_cons h
    obtain ⟨mid, hkeeps, hback⟩ := ih hrest
    refine ⟨mid, (LabelTable.keeps_cons hfree base).trans hkeeps, ?_⟩
    rwa [dataSize, List.filterMap_cons_some hl, List.map_cons, List.sum_cons, ← dataSize, ← Nat.add_assoc]

theorem keeps_of_addData (h : addData ramLen rest base labels = .ok found) : labels.Keeps found := by
  obtain ⟨mid, hkeeps, hmid⟩ := addData_append (back := []) (by rwa [List.append_nil])
  cases hmid
  exact hkeeps

/-- A directive binds its name above the code and the data before it, and its words fit in RAM there. -/
theorem addData_binds (h : addData ramLen (front ++ l :: back) base labels = .ok found)
    (hl : parseDirective l = some (name, count)) :
    found.lookup name = some (base + dataSize front) ∧ base + dataSize front + count ≤ ramLen := by
  obtain ⟨mid, -, hmid⟩ := addData_append h
  obtain ⟨name', count', hl', -, hfits, hrest⟩ := addData_cons hmid
  cases hl.symm.trans hl'
  exact ⟨keeps_of_addData hrest _ _ (by simp), hfits⟩

end DataNames

/-- Settles O58: the base advances by the size of each directive, from the number of instruction lines, which is the
number of words. -/
theorem dataFollowsTheCode : Obligations.DataFollowsTheCode := by
  unfold Obligations.DataFollowsTheCode
  refine ⟨fun c numReg source ws before after l name count h hdata hl => ?_,
    fun ramLen base before after l name count labels labels' h hl => ?_,
    fun ramLen base l name count rest labels hl => ⟨fun hbound => ?_, fun hfree hbig => ?_⟩⟩
  · obtain ⟨codeLabels, labels, -, hadd, hws⟩ := assemble_ok h
    rw [← length_of_compileAll hws, hdata] at hadd
    exact ⟨labels, hws, addData_binds hadd hl⟩
  · obtain ⟨hname, hfits⟩ := addData_binds h hl
    exact ⟨_, hname, hfits, rfl⟩
  · simp [addData, hl, hbound]
  · simp [addData, hl, hfree, hbig]

end Sys2Proof.Machine

/-! SUPPORT. The program file: hexadecimal lines written and read (30_encoding.md R68, R71). -/

namespace Sys2Proof.Machine

variable {c : Config} {s t : State} {l : Text} {w : Nat}

/-! ### Digits -/

theorem hexValue_hexDigit : ∀ d < 16, hexValue (hexDigit d) = some d := by decide

/-- The digits are the sixteen characters written for the values below 16. -/
theorem hexValue_eq_some {ch : Char} {d : Nat} : hexValue ch = some d ↔ d < 16 ∧ ch = hexDigit d := by
  refine ⟨fun h => ?_, fun ⟨hd, hch⟩ => hch ▸ hexValue_hexDigit d hd⟩
  obtain ⟨hd, heq, -⟩ := List.findIdx?_eq_some_iff_getElem.mp h
  exact ⟨hd, by simpa [hexDigit, hd] using (eq_of_beq heq).symm⟩

/-- The lowest `n` digits of a number, most significant first. -/
def lowDigits (w n : Nat) : List Nat := (List.range n).reverse.map fun k => w / 16 ^ k % 16

@[simp] theorem lowDigits_zero (w : Nat) : lowDigits w 0 = [] := rfl

@[simp] theorem lowDigits_succ (w n : Nat) : lowDigits w (n + 1) = w / 16 ^ n % 16 :: lowDigits w n := by
  simp [lowDigits, List.range_succ]

@[simp] theorem length_lowDigits (w n : Nat) : (lowDigits w n).length = n := by simp [lowDigits]

theorem lt_of_mem_lowDigits {n d : Nat} (h : d ∈ lowDigits w n) : d < 16 := by
  obtain ⟨k, -, rfl⟩ := List.mem_map.mp h
  exact Nat.mod_lt _ (by decide)

theorem hexLine_eq (c : Config) (w : Nat) : hexLine c w = (lowDigits w c.hexWidth).map hexDigit := by
  simp [hexLine, lowDigits]

/-- Read after the value `a`, the lowest `n` digits of `w` give `a` shifted by them, and them. -/
theorem foldl_lowDigits (w n a : Nat) :
    (lowDigits w n).foldl (fun n d => 16 * n + d) a = 16 ^ n * a + w % 16 ^ n := by
  induction n generalizing a with
  | zero => simp [Nat.mod_one]
  | succ n ih =>
    rw [lowDigits_succ, List.foldl_cons, ih, Nat.pow_succ, Nat.mod_mul]
    ring

/-- A text reads as `r` after the value `a` when it is written with the lowest digits of `r`, and `a` is what remains of
`r` above them. -/
theorem hexNumber_eq_some {a r : Nat} {l : Text} :
    hexNumber a l = some r ↔ l = (lowDigits r l.length).map hexDigit ∧ r / 16 ^ l.length = a := by
  induction l generalizing a with
  | nil => simp [hexNumber, eq_comm]
  | cons ch rest ih =>
    rw [List.length_cons, lowDigits_succ, List.map_cons, List.cons.injEq, Nat.pow_succ, ← Nat.div_div_eq_div_mul,
      hexNumber]
    generalize r / 16 ^ rest.length = q at *
    constructor
    · intro h
      split at h
      · rename_i d hd
        obtain ⟨hlt, rfl⟩ := hexValue_eq_some.mp hd
        obtain ⟨hrest, rfl⟩ := ih.mp h
        rw [show (16 * a + d) % 16 = d by omega, show (16 * a + d) / 16 = a by omega]
        exact ⟨⟨rfl, hrest⟩, rfl⟩
      · cases h
    · rintro ⟨⟨rfl, hrest⟩, rfl⟩
      rw [hexValue_hexDigit _ (Nat.mod_lt _ (by decide))]
      exact ih.mpr ⟨hrest, (Nat.div_add_mod q 16).symm⟩

/-! ### Lines and files -/

/-- A line is accepted as exactly what is written for its word. -/
theorem parseHexLine_eq_some :
    parseHexLine c l = some w ↔ l = hexLine c w ∧ w < 16 ^ c.hexWidth ∧ w < 2 ^ c.wordBits := by
  have hpos : 0 < 16 ^ c.hexWidth := Nat.pow_pos (by decide)
  by_cases hlen : l.length = c.hexWidth
  · rw [parseHexLine, if_pos hlen, Option.filter_eq_some_iff, hexNumber_eq_some, hlen, ← hexLine_eq,
      Nat.div_eq_zero_iff_lt hpos, decide_eq_true_eq, and_assoc]
  · have hne : l ≠ hexLine c w := by rintro rfl; simp [hexLine_eq] at hlen
    simp [parseHexLine, hlen, hne]

/-- A file is accepted as exactly what is written for its program. -/
theorem parseProgram_eq_ok {ls : List Text} {ws : List Nat} : parseProgram c ls = .ok ws ↔
    ls = serialize c ws ∧ ∀ w ∈ ws, w < 16 ^ c.hexWidth ∧ w < 2 ^ c.wordBits := by
  induction ls generalizing ws with
  | nil => cases ws <;> simp [parseProgram, serialize]
  | cons l ls ih =>
    constructor
    · intro h
      rw [parseProgram] at h
      split at h
      · cases h
      · rename_i w hw
        split at h
        · rename_i ws hws
          cases h
          obtain ⟨rfl, hlt⟩ := parseHexLine_eq_some.mp hw
          obtain ⟨rfl, hall⟩ := ih.mp hws
          exact ⟨rfl, List.forall_mem_cons.mpr ⟨hlt, hall⟩⟩
        · cases h
    · rintro ⟨hls, hall⟩
      cases ws with
      | nil => cases hls
      | cons w ws =>
        obtain ⟨hl, hrest⟩ := List.cons.inj hls
        obtain ⟨hlt, hall⟩ := List.forall_mem_cons.mp hall
        simp [parseProgram, parseHexLine_eq_some.mpr ⟨hl, hlt⟩, ih.mpr ⟨hrest, hall⟩]

/-- Every line of an accepted file is the line of the word in its place. -/
theorem getElem?_of_parseProgram {ls : List Text} {ws : List Nat} (h : parseProgram c ls = .ok ws) {k : Nat}
    (hl : ls[k]? = some l) : ∃ w, ws[k]? = some w ∧ parseHexLine c l = some w := by
  obtain ⟨rfl, hall⟩ := parseProgram_eq_ok.mp h
  rw [serialize, List.getElem?_map] at hl
  obtain ⟨w, hw, rfl⟩ := Option.map_eq_some_iff.mp hl
  exact ⟨w, hw, parseHexLine_eq_some.mpr ⟨rfl, hall w (List.mem_of_getElem? hw)⟩⟩

/-! ### Loading a file -/

theorem loadFile_of_ok {ls : List Text} {ws : List Nat} (h : parseProgram s.cfg ls = .ok ws) :
    loadFile ls s = .ok (loadProgram ws s) := by simp [loadFile, h]

theorem loadFile_ok {ls : List Text} {r : Result} (h : loadFile ls s = .ok r) :
    ∃ ws, parseProgram s.cfg ls = .ok ws ∧ loadProgram ws s = r := by
  unfold loadFile at h
  split at h
  · cases h
    exact ⟨_, ‹_›, rfl⟩
  · cases h

/-- A file with a line that is no word is refused. -/
theorem loadFile_error {ls : List Text} (hl : l ∈ ls) (h : parseHexLine s.cfg l = none) :
    ∃ e, loadFile ls s = .error e := by
  cases hload : loadFile ls s with
  | error e => exact ⟨e, rfl⟩
  | ok r =>
    obtain ⟨ws, hws, -⟩ := loadFile_ok hload
    obtain ⟨k, hk⟩ := List.mem_iff_getElem?.mp hl
    obtain ⟨w, -, hw⟩ := getElem?_of_parseProgram hws hk
    exact absurd (h.symm.trans hw) nofun

/-- A loaded file has put the word of line `k` at address `k`. -/
theorem read_of_loadFile {ls : List Text} {k : Nat} (h : loadFile ls s = .ok (.next t)) (hl : ls[k]? = some l) :
    parseHexLine s.cfg l = some (t.mem.read k) := by
  obtain ⟨ws, hws, hload⟩ := loadFile_ok h
  obtain ⟨-, -, rfl⟩ := loadProgram_next hload
  obtain ⟨w, hk, hw⟩ := getElem?_of_parseProgram hws hl
  have hread := memoryOf_read ws 0 k
  rw [Nat.zero_add, List.getD_eq_getElem?_getD, hk] at hread
  exact hread ▸ hw

/-- Settles O56: a line holds the lowest digits of its word, so reading and writing are inverse wherever `HEX_WIDTH`
digits hold the word. -/
theorem programFileRoundTrip : Obligations.ProgramFileRoundTrip := by
  unfold Obligations.ProgramFileRoundTrip
  refine ⟨fun c w hw => ⟨lowDigits w c.hexWidth, length_lowDigits w _, fun d => lt_of_mem_lowDigits, ?_, hexLine_eq c w⟩,
    fun c l w => parseHexLine_eq_some, fun c ls ws => parseProgram_eq_ok, fun ls s l => loadFile_error,
    fun ws s h => loadFile_of_ok (parseProgram_eq_ok.mpr ⟨rfl, h⟩), fun ls s t k l => read_of_loadFile, rfl, rfl, rfl⟩
  rw [foldl_lowDigits, Nat.mul_zero, Nat.zero_add, Nat.mod_eq_of_lt hw]

end Sys2Proof.Machine

/-! SUPPORT. One cycle (40_cycle_and_halt.md): dispatch on the opcode, the order of the checks, and `hlt`. -/

namespace Sys2Proof

variable {c : Config}

/-! ### Dispatch on the opcode -/

/-- The instruction of a row with the given argument fields, of which its format uses some (R56, R57). -/
def Mnemonic.instr : Mnemonic → Nat → Nat → Instr
  | .hlt, _, _ => .hlt
  | .ldc, a, b => .ldc a b
  | .ldr, a, b => .ldr a b
  | .cpy, a, b => .cpy a b
  | .str, a, b => .str a b
  | .add, a, b => .add a b
  | .sub, a, b => .sub a b
  | .beq, a, b => .beq a b
  | .bne, a, b => .bne a b
  | .prr, a, _ => .prr a
  | .prm, a, _ => .prm a
  | .brk, _, _ => .brk

@[simp] theorem Mnemonic.mnemonic_instr (m : Mnemonic) (a b : Nat) : (m.instr a b).mnemonic = m := by cases m <;> rfl

@[simp] theorem regOk_iff {numReg j : Nat} : regOk numReg j = true ↔ j < numReg := decide_eq_true_iff

@[simp] theorem Instr.mnemonic_eq_brk {i : Instr} : i.mnemonic = .brk ↔ i = .brk := by
  cases i <;> simp [Instr.mnemonic]

/-- A triple with the code of a row selects that row's instruction on its own arguments. -/
theorem instrOf_of_op (hc : c.codesOk = true) {f : Fields} {m : Mnemonic} (h : f.op = opcode c m) :
    instrOf c f = some (m.instr f.arg0 f.arg1) := by
  unfold instrOf
  rw [h, mnemonicOf_opcode hc]
  cases m <;> rfl

end Sys2Proof

namespace Sys2Proof.Machine

open Sys2Proof.Claims

variable {s t : State} {i : Instr} {m : Mnemonic}

theorem execute_of_op (hc : s.cfg.codesOk = true) {f : Fields} (hb : m ≠ .brk) (h : f.op = opcode s.cfg m) :
    execute f s = exec (m.instr f.arg0 f.arg1) s :=
  execute_of_some (instrOf_of_op hc h) fun e => hb (by rw [← m.mnemonic_instr f.arg0 f.arg1, e]; rfl)

/-- A code of none of the eleven rows selects no instruction, or the sentinel, which `Execute` has no arm for. -/
theorem execute_of_unknown_op {f : Fields} (h : ∀ m, m ≠ .brk → f.op ≠ opcode s.cfg m) :
    execute f s = .next (faulted .unknownOpcode s) := by
  cases hi : instrOf s.cfg f with
  | none => exact execute_of_none hi
  | some i =>
    have hb : i = .brk := Instr.mnemonic_eq_brk.mp <| by_contra fun hb => h _ hb (opcode_of_instrOf hi).symm
    exact execute_of_brk (hb ▸ hi)

/-- Settles O6: dispatch finds the row of the code, and the reference codes are compared row by row. -/
theorem executeSelectsByOpcode : Obligations.ExecuteSelectsByOpcode := by
  unfold Obligations.ExecuteSelectsByOpcode
  refine ⟨fun f s hwf => ⟨fun m hb hop => ?_, execute_of_unknown_op⟩, fun code => ?_⟩
  · have hc := Config.codesOk_of_wf hwf
    exact ⟨m.instr f.arg0 f.arg1, ⟨m.mnemonic_instr _ _, instrOf_of_op hc hop⟩, execute_of_op hc hb hop⟩
  · have codes : [1, 2, 3, 4, 5, 6, 7, 8, 9, 10, 11] =
        (allMnemonics.filter (· ≠ .brk)).map (opcode Config.reference) := by decide
    rw [codes, List.mem_map]
    simp [mem_allMnemonics, eq_comm (a := code)]

/-! ### The words of a row, as the claims on single instructions state them -/

theorem wordIs_of_fields {a b : Nat} (h : ∀ c, i.fields c = ⟨opcode c m, a, b⟩) :
    wordIs i m (opcode Config.reference m) a b :=
  ⟨fun c => by rw [encode, h]; rfl, by rw [encode, h]; rfl⟩

theorem decode_of_op {c : Config} {w : Nat} (hwf : c.wf = true) (h : w % 2 ^ c.opShift = opcode c m) :
    decode c w = .ok (m.instr (w / 2 ^ c.opShift % 2 ^ c.opShift) (w / 2 ^ (2 * c.opShift) % 2 ^ c.opShift)) := by
  rw [decode_eq_ok, ← decodeFields_arg1]
  exact instrOf_of_op (Config.codesOk_of_wf hwf) h

theorem readsAs_instr (m : Mnemonic) : readsAs m (opcode Config.reference m) m.instr :=
  ⟨fun _ _ => decode_of_op, fun _ => decode_of_op Config.reference_wf⟩

/-! ### The order of the checks -/

/-- What `r` answers, entered in `s` with a register test `R` and an address test `A` to make: the first that fails
raises its fault and does nothing else; with both passed no fault is raised (R85). -/
structure Checked (s : State) (R A : Prop) (r : Result) : Prop where
  badRegister : ¬R → r = .next (faulted .invalidRegister s)
  badAddress : R → ¬A → r = .next (faulted .invalidAddress s)
  passed : R → A → ∃ t, r = .next t ∧ t.fault = s.fault

section
variable {R R' A : Prop} {r : Result} {j addr v : Nat}

theorem Checked.of_iff (h : Checked s R A r) (hR : R ↔ R') : Checked s R' A r := propext hR ▸ h

/-- What follows the last test. -/
theorem Checked.next (hA : A) (ht : t.fault = s.fault) : Checked s True A (.next t) :=
  ⟨fun h => absurd trivial h, fun _ h => absurd hA h, fun _ _ => ⟨t, rfl, ht⟩⟩

theorem Checked.of_badRegister (h : ¬R) : Checked s R A (.next (faulted .invalidRegister s)) :=
  ⟨fun _ => rfl, fun hR => absurd hR h, fun hR => absurd hR h⟩

theorem Checked.of_badAddress (h : ¬A) : Checked s True A (.next (faulted .invalidAddress s)) :=
  ⟨fun hR => absurd trivial hR, fun _ _ => rfl, fun _ hA => absurd hA h⟩

theorem Checked.checkReg {k : Result} (hk : Checked s R A k) :
    Checked s (j < s.numReg ∧ R) A (checkReg j s k) := by
  rcases Nat.lt_or_ge j s.numReg with hj | hj
  · rw [checkReg_of_lt hj]
    exact hk.of_iff (and_iff_right hj).symm
  · rw [checkReg_of_le hj]
    exact .of_badRegister fun h => hj.not_gt h.1

theorem Checked.readReg {k : Nat → Result} (hk : ∀ v, s.regs[j]? = some v → Checked s R A (k v)) :
    Checked s (j < s.numReg ∧ R) A (readReg j s k) := by
  rcases Nat.lt_or_ge j s.numReg with hj | hj
  · have hv := List.getElem?_eq_getElem hj
    rw [readReg_of_some hv]
    exact (hk _ hv).of_iff (and_iff_right hj).symm
  · rw [readReg_of_le hj]
    exact .of_badRegister fun h => hj.not_gt h.1

theorem Checked.memRead {k : Nat → Result} (hA : A ↔ addr < s.cfg.ramLen)
    (hk : A → ∀ v, Checked s True A (k v)) : Checked s True A (memRead addr s k) := by
  rcases Nat.lt_or_ge addr s.cfg.ramLen with ha | ha
  · rw [memRead_of_lt ha]
    exact hk (hA.mpr ha) _
  · rw [memRead_of_le ha]
    exact .of_badAddress fun h => ha.not_gt (hA.mp h)

theorem Checked.memWrite {k : State → Result} (hA : A ↔ addr < s.cfg.ramLen)
    (hk : A → Checked s True A (k { s with mem := s.mem.write addr v })) :
    Checked s True A (memWrite addr v s k) := by
  rcases Nat.lt_or_ge addr s.cfg.ramLen with ha | ha
  · rw [memWrite_of_lt ha]
    exact hk (hA.mpr ha)
  · rw [memWrite_of_le ha]
    exact .of_badAddress fun h => ha.not_gt (hA.mp h)

end

/-- The address test of an instruction: the register it takes a data address from holds one below `RAM_LEN` (R31). -/
def State.addressOk (s : State) (i : Instr) : Prop :=
  ∀ r addr, addrReg i = some r → s.regs[r]? = some addr → addr < s.cfg.ramLen

theorem addressOk_of_none (h : addrReg i = none) : s.addressOk i := fun r addr hr => by simp [h] at hr

theorem addressOk_iff {r addr : Nat} (h : addrReg i = some r) (hr : s.regs[r]? = some addr) :
    s.addressOk i ↔ addr < s.cfg.ramLen := by
  rw [State.addressOk, h]
  refine ⟨fun ha => ha r addr rfl hr, fun hlt r' addr' hr' ha' => ?_⟩
  rw [← Option.some.inj hr', hr] at ha'
  exact Option.some.inj ha' ▸ hlt

/-- An instruction tests the registers of its format, then its data address. -/
theorem exec_checked (hb : i ≠ .brk) (s : State) :
    Checked s (i.regsOk s.numReg = true) (s.addressOk i) (exec i s) := by
  cases i with
  | hlt => exact .of_iff (.next (addressOk_of_none rfl) rfl) (by simp [Instr.regsOk])
  | ldc d v =>
    refine .of_iff (.checkReg (.next (addressOk_of_none rfl) rfl)) ?_
    simp [Instr.regsOk]
  | ldr d r =>
    refine .of_iff (.checkReg (.readReg fun _ hr => .memRead (addressOk_iff rfl hr) fun ha _ => .next ha rfl)) ?_
    simp [Instr.regsOk]
  | cpy d r =>
    refine .of_iff (.checkReg (.readReg fun _ _ => .next (addressOk_of_none rfl) rfl)) ?_
    simp [Instr.regsOk]
  | str v r =>
    refine .of_iff (.readReg fun _ _ => .readReg fun _ hr => .memWrite (addressOk_iff rfl hr) fun ha => .next ha rfl) ?_
    simp [Instr.regsOk]
  | add d r =>
    refine .of_iff (.readReg fun _ _ => .readReg fun _ _ => .next (addressOk_of_none rfl) rfl) ?_
    simp [Instr.regsOk]
  | sub d r =>
    refine .of_iff (.readReg fun _ _ => .readReg fun _ _ => .next (addressOk_of_none rfl) rfl) ?_
    simp [Instr.regsOk]
  | beq j target =>
    refine .of_iff (.readReg fun _ _ => .next (addressOk_of_none rfl) (by split <;> rfl)) ?_
    simp [Instr.regsOk]
  | bne j target =>
    refine .of_iff (.readReg fun _ _ => .next (addressOk_of_none rfl) (by split <;> rfl)) ?_
    simp [Instr.regsOk]
  | prr r =>
    refine .of_iff (.readReg fun _ _ => .next (addressOk_of_none rfl) rfl) ?_
    simp [Instr.regsOk]
  | prm r =>
    refine .of_iff (.readReg fun _ hr => .memRead (addressOk_iff rfl hr) fun ha _ => .next ha rfl) ?_
    simp [Instr.regsOk]
  | brk => exact absurd rfl hb

/-- Settles O23: with the registers in range the fault, if any, is that of the address. -/
theorem registerIndexCheck : Obligations.RegisterIndexCheck := by
  unfold Obligations.RegisterIndexCheck
  intro i s hb hf
  have hchecks := exec_checked hb s
  refine ⟨fun hr => hchecks.badRegister (by simp [hr]), fun he => ?_⟩
  by_contra hr
  rw [Bool.not_eq_false] at hr
  by_cases ha : s.addressOk i
  · obtain ⟨t, ht, htf⟩ := hchecks.passed hr ha
    rw [he, next_inj] at ht
    simp [← ht, hf, faulted] at htf
  · have hne := hchecks.badAddress hr ha
    simp [he, faulted] at hne

/-- A cycle of the plain build with `ip` in range runs `Execute` on the word there. -/
theorem step_plain_of_lt (h : s.plainReady) (hip : s.ip < s.cfg.ramLen) :
    step s = execute (decodeFields s.cfg (s.mem.read s.ip)) s := by
  rw [step_plain h, plainCycle, fetch_of_lt hip]

theorem instrAtIp_of_lt (hip : s.ip < s.cfg.ramLen) :
    s.instrAtIp = instrOf s.cfg (decodeFields s.cfg (s.mem.read s.ip)) := if_pos hip

/-- Settles O24: the fetch tests `ip`, dispatch the opcode, and the instruction then its registers and its address. -/
theorem checksInOrder : Obligations.ChecksInOrder := by
  unfold Obligations.ChecksInOrder
  intro s hp
  refine ⟨step_of_ramLen_le_ip (.inl hp), fun hip => ?_⟩
  rw [step_plain_of_lt hp hip, instrAtIp_of_lt hip]
  refine ⟨fun h => h.elim execute_of_none execute_of_brk, fun i hi hb => ?_⟩
  rw [execute_of_some hi hb]
  have hchecks := exec_checked hb s
  obtain ⟨-, hf, -⟩ := hp
  refine ⟨fun hr => hchecks.badRegister (by simp [hr]), fun hr => ⟨fun r addr hreg haddr hle => ?_, fun ha => ?_⟩⟩
  · exact hchecks.badAddress hr fun ha => hle.not_gt (ha r addr hreg haddr)
  · obtain ⟨t, ht, htf⟩ := hchecks.passed hr ha
    exact ⟨t, ht, htf.trans hf⟩

/-! ### `hlt` -/

theorem step_ne_next_of_finished (h : s.runState = .finished) : step s ≠ .next t := fun hs => by
  rw [step_finished (fault_eq_none_of_step hs) h] at hs
  cases hs

/-- Settles O10: in FINISHED no step is enabled, and a pause that resumes hands the instruction held to `Execute`. -/
theorem hltFinishesTheRun : Obligations.HltFinishesTheRun := by
  unfold Obligations.HltFinishesTheRun
  refine ⟨wordIs_of_fields fun _ => rfl, readsAs_instr .hlt, fun c numReg labels _ _ => ?_, fun s => rfl,
    fun s t u h => ?_, fun s f rest hwf hp hop hcmd => ?_⟩
  · exact compileLine_instrText (i := .hlt) rfl
  · exact step_ne_next_of_finished (next_inj.mp h ▸ rfl)
  · have hc := Config.codesOk_of_wf hwf
    rcases hcmd with hcmd | hcmd <;> rw [step_command hp hcmd]
    · exact execute_of_op (s := resume .stepping { s with cmds := rest }) (m := .hlt) hc (by decide) hop
    · exact execute_of_op (s := resume .running { s with cmds := rest }) (m := .hlt) hc (by decide) hop

end Sys2Proof.Machine

/-! SUPPORT. Data movement (41_data_movement.md), and what it shares with every instruction of two operands: its word,
its line of assembly, its register faults. -/

namespace Sys2Proof.Machine

open Sys2Proof.Claims

variable {c : Config} {s : State} {i : Instr} {m : Mnemonic}

/-! ### The word and the line of an instruction with two operands -/

/-- Both argument fields of the row's format are used (R51). -/
def TwoOperands (m : Mnemonic) : Prop := formatOf m = .regReg ∨ formatOf m = .regValue

theorem TwoOperands.fields_instr (hm : TwoOperands m) (a b : Nat) :
    (m.instr a b).fields c = ⟨opcode c m, a, b⟩ := by
  rcases hm with hm | hm <;> cases m <;> cases hm <;> rfl

theorem TwoOperands.wordIs (hm : TwoOperands m) (a b : Nat) :
    wordIs (m.instr a b) m (opcode Config.reference m) a b :=
  wordIs_of_fields fun _ => hm.fields_instr a b

/-- A line of a mnemonic, a register and one more token. -/
theorem tokens_twoOperands (m : Mnemonic) (d : Nat) {t : Text} (ht : ' ' ∉ t) (hn : t ≠ []) :
    tokens (mnemonicText m ++ [' '] ++ regText d ++ [' '] ++ t) = [mnemonicText m, regText d, t] := by
  simp only [List.append_assoc, List.cons_append, List.nil_append, tokens]
  rw [tokensFrom_cons _ (space_notMem_mnemonicText m) (mnemonicText_ne_nil m),
    tokensFrom_cons _ (space_notMem_regText d) (regText_ne_nil d), tokensFrom_last t ht hn]

/-- Such a line compiles to the instruction's word as soon as its operands resolve. The registers need not fit a
field: R67 tests them against `NUM_REG` only. -/
theorem TwoOperands.compileLine_eq (hm : TwoOperands m) {numReg d n : Nat} {labels : LabelTable} {t : Text}
    (ht : ' ' ∉ t) (hn : t ≠ [])
    (hf : ∀ line, resolveOperands c numReg labels line m [regText d, t] = .ok ⟨opcode c m, d, n⟩) :
    compileLine c numReg labels (mnemonicText m ++ [' '] ++ regText d ++ [' '] ++ t) =
      .ok (encode c (m.instr d n)) := by
  rw [encode, hm.fields_instr]
  exact compileLine_of_tokens (tokens_twoOperands m d ht hn) (hf _)

theorem resolveOperands_regReg (hm : formatOf m = .regReg) {numReg d r : Nat} {labels : LabelTable}
    (hd : d < numReg) (hr : r < numReg) (line : Text) :
    resolveOperands c numReg labels line m [regText d, regText r] = .ok ⟨opcode c m, d, r⟩ := by
  simp [resolveOperands, hm, resolveReg_regText hd, resolveReg_regText hr]

theorem resolveOperands_regValue (hm : formatOf m = .regValue) {numReg d n : Nat} {labels : LabelTable} {t : Text}
    (hd : d < numReg) (hv : resolveValue c labels t = .ok n) (line : Text) :
    resolveOperands c numReg labels line m [regText d, t] = .ok ⟨opcode c m, d, n⟩ := by
  simp [resolveOperands, hm, resolveReg_regText hd, hv]

theorem assembles_regReg (hm : formatOf m = .regReg) (d r : Nat) :
    assembles (mnemonicText m ++ [' '] ++ regText d ++ [' '] ++ regText r) (m.instr d r) [d, r] [] := by
  intro c numReg labels hregs _
  exact TwoOperands.compileLine_eq (.inl hm) (space_notMem_regText r) (regText_ne_nil r)
    (resolveOperands_regReg hm (hregs d (by simp)) (hregs r (by simp)))

theorem assembles_regValue (hm : formatOf m = .regValue) (d v : Nat) :
    assembles (mnemonicText m ++ [' '] ++ regText d ++ [' '] ++ decimal v) (m.instr d v) [d] [v] := by
  intro c numReg labels hregs hvalues
  exact TwoOperands.compileLine_eq (.inr hm) (space_notMem_decimal v) (decimal_ne_nil v)
    (resolveOperands_regValue hm (hregs d (by simp)) (resolveValue_decimal labels (hvalues v (by simp))))

theorem assemblesLabel_regValue (hm : formatOf m = .regValue) (d : Nat) :
    assemblesLabel (mnemonicText m ++ [' '] ++ regText d ++ [' ']) (m.instr d) d := by
  intro c numReg labels name n hd hname hlookup hn
  exact TwoOperands.compileLine_eq (.inr hm) (by simp [hname]) (List.cons_ne_nil _ _)
    (resolveOperands_regValue hm hd (resolveValue_label hlookup hn))

/-! ### The faults of the checks -/

theorem instr_ne_brk (hb : m ≠ .brk) {a b : Nat} : m.instr a b ≠ .brk :=
  fun e => hb ((m.mnemonic_instr a b).symm.trans (Instr.mnemonic_eq_brk.mpr e))

theorem regsOk_regReg (hm : formatOf m = .regReg) {numReg d r : Nat} :
    (m.instr d r).regsOk numReg = true ↔ d < numReg ∧ r < numReg := by
  cases m <;> cases hm <;> simp [Mnemonic.instr, Instr.regsOk]

/-- An instruction of two registers with one of them absent faults and does nothing else (R84). -/
theorem exec_regReg_badRegister (hm : formatOf m = .regReg) {d r : Nat} (h : s.numReg ≤ d ∨ s.numReg ≤ r) :
    exec (m.instr d r) s = .next (faulted .invalidRegister s) := by
  have hb : m ≠ .brk := by rintro rfl; cases hm
  refine (exec_checked (instr_ne_brk hb) s).badRegister ?_
  rw [regsOk_regReg hm]
  omega

/-- A data address out of range faults and does nothing else (R31). -/
theorem exec_badAddress (hb : i ≠ .brk) (hregs : i.regsOk s.numReg = true) {r addr : Nat} (hi : addrReg i = some r)
    (hr : s.regs[r]? = some addr) (ha : s.cfg.ramLen ≤ addr) : exec i s = .next (faulted .invalidAddress s) :=
  (exec_checked hb s).badAddress hregs ((addressOk_iff hi hr).not.mpr ha.not_gt)

/-! ### The four instructions with their checks passed -/

theorem exec_ldc_of_lt {d v : Nat} (hd : d < s.numReg) :
    exec (.ldc d v) s = .next { s with ip := s.ip + 1, regs := s.regs.set d v } := checkReg_of_lt hd

theorem exec_ldr_of_lt {d r addr : Nat} (hd : d < s.numReg) (hr : s.regs[r]? = some addr) (ha : addr < s.cfg.ramLen) :
    exec (.ldr d r) s = .next { s with ip := s.ip + 1, regs := s.regs.set d (s.mem.read addr) } :=
  (checkReg_of_lt hd).trans ((readReg_of_some hr).trans (memRead_of_lt ha))

theorem exec_cpy_of_lt {d r x : Nat} (hd : d < s.numReg) (hr : s.regs[r]? = some x) :
    exec (.cpy d r) s = .next { s with ip := s.ip + 1, regs := s.regs.set d x } :=
  (checkReg_of_lt hd).trans (readReg_of_some hr)

theorem exec_str_of_lt {v r x addr : Nat} (hv : s.regs[v]? = some x) (hr : s.regs[r]? = some addr)
    (ha : addr < s.cfg.ramLen) :
    exec (.str v r) s = .next { s with ip := s.ip + 1, mem := s.mem.write addr x } :=
  (readReg_of_some hv).trans ((readReg_of_some hr).trans (memWrite_of_lt ha))

/-- Settles O11: one register test, then the write. -/
theorem ldcLoadsConstant : Obligations.LdcLoadsConstant := by
  unfold Obligations.LdcLoadsConstant
  exact ⟨TwoOperands.wordIs (m := .ldc) (.inr rfl), readsAs_instr .ldc, assembles_regValue (m := .ldc) rfl,
    assemblesLabel_regValue (m := .ldc) rfl, fun s d v => exec_ldc_of_lt, fun s d v => checkReg_of_le⟩

/-- Settles O12: the register tests, the address test, then the write. -/
theorem ldrLoadsWord : Obligations.LdrLoadsWord := by
  unfold Obligations.LdrLoadsWord
  refine ⟨TwoOperands.wordIs (m := .ldr) (.inl rfl), readsAs_instr .ldr, assembles_regReg (m := .ldr) rfl,
    fun s d r addr hd hr => ⟨exec_ldr_of_lt hd hr, ?_⟩, fun s d r => exec_regReg_badRegister (m := .ldr) rfl⟩
  have hregs := And.intro hd (lt_numReg_of_getElem? hr)
  exact exec_badAddress (i := .ldr d r) nofun ((regsOk_regReg (m := .ldr) rfl).mpr hregs) rfl hr

/-- Settles O13: the register tests, then the write. -/
theorem cpyCopiesRegister : Obligations.CpyCopiesRegister := by
  unfold Obligations.CpyCopiesRegister
  exact ⟨TwoOperands.wordIs (m := .cpy) (.inl rfl), readsAs_instr .cpy, assembles_regReg (m := .cpy) rfl,
    fun s d r x => exec_cpy_of_lt, fun s d r => exec_regReg_badRegister (m := .cpy) rfl⟩

/-- Settles O14: the register tests, the address test, then the store, which reads back at its address only. -/
theorem strStoresWord : Obligations.StrStoresWord := by
  unfold Obligations.StrStoresWord
  refine ⟨TwoOperands.wordIs (m := .str) (.inl rfl), readsAs_instr .str, assembles_regReg (m := .str) rfl,
    fun s v r x addr hv hr => ⟨fun ha => ?_, ?_⟩, fun s v r => exec_regReg_badRegister (m := .str) rfl⟩
  · exact ⟨s.mem.write addr x, exec_str_of_lt hv hr ha, by simp, fun b hb => by simp [hb.symm],
      fun hwf => Memory.wf_write hwf addr x⟩
  · have hregs := And.intro (lt_numReg_of_getElem? hv) (lt_numReg_of_getElem? hr)
    exact exec_badAddress (i := .str v r) nofun ((regsOk_regReg (m := .str) rfl).mpr hregs) rfl hr

/-! ### A store to the next address -/

theorem lt_ramLen_of_instrAtIp (hi : s.instrAtIp = some i) : s.ip < s.cfg.ramLen := by
  by_contra hip
  rw [State.instrAtIp, if_neg hip] at hi
  cases hi

/-- A cycle of the plain build on a word that is an instruction. -/
theorem step_of_instrAtIp (hp : s.plainReady) (hb : i ≠ .brk) (hi : s.instrAtIp = some i) : step s = exec i s := by
  have hip := lt_ramLen_of_instrAtIp hi
  rw [step_plain_of_lt hp hip]
  exact execute_of_some (instrAtIp_of_lt hip ▸ hi) hb

/-- Settles O30: the store leaves the core ready at the address stored to, and a fetch reads RAM itself. -/
theorem storeIsSeenByNextFetch : Obligations.StoreIsSeenByNextFetch := by
  unfold Obligations.StoreIsSeenByNextFetch
  rintro s v r x addr hp hi hv hr rfl ha
  have hstep := (step_of_instrAtIp (i := .str v r) hp nofun hi).trans (exec_str_of_lt hv hr ha)
  have hread : (s.mem.write (s.ip + 1) x).read (s.ip + 1) = x := by simp
  have hready : State.plainReady { s with ip := s.ip + 1, mem := s.mem.write (s.ip + 1) x } := hp
  refine ⟨_, hstep, rfl, hread, ?_⟩
  rw [step_plain_of_lt hready ha, hread]

end Sys2Proof.Machine

/-! SUPPORT. Arithmetic (42_arithmetic.md): the two sums on unsigned words, and the test of equality by `sub` and
`beq` (R102). -/

namespace Sys2Proof.Machine

open Sys2Proof.Claims

variable {s : State}

/-! ### The difference of two words -/

/-- The difference is the non-negative remainder of R101, an integer that needs no narrowing. -/
theorem subWord_cast (c : Config) (p q : Nat) : (subWord c p q : Int) = ((p : Int) - q) % 2 ^ c.wordBits :=
  Int.toNat_of_nonneg (Int.emod_nonneg _ (by positivity))

/-- Two words are equal exactly when their difference is zero (R102). -/
theorem subWord_eq_zero {c : Config} {p q : Nat} (hp : p < 2 ^ c.wordBits) (hq : q < 2 ^ c.wordBits) :
    subWord c p q = 0 ↔ p = q := by
  rw [subWord_eq hp hq]
  split <;> omega

/-! ### The instructions with their checks passed -/

/-- Both operands are read before the write, so `d` and `r` may be one register. -/
theorem accumulate_of_some {f : Nat → Nat → Nat} {d r p q : Nat} (hd : s.regs[d]? = some p) (hr : s.regs[r]? = some q) :
    accumulate f d r s = .next { s with ip := s.ip + 1, regs := s.regs.set d (f p q) } :=
  (readReg_of_some hd).trans (readReg_of_some hr)

theorem exec_add_of_some {d r p q : Nat} (hd : s.regs[d]? = some p) (hr : s.regs[r]? = some q) :
    exec (.add d r) s = .next { s with ip := s.ip + 1, regs := s.regs.set d ((p + q) % 2 ^ s.cfg.wordBits) } :=
  accumulate_of_some hd hr

theorem exec_sub_of_some {d r p q : Nat} (hd : s.regs[d]? = some p) (hr : s.regs[r]? = some q) :
    exec (.sub d r) s = .next { s with ip := s.ip + 1, regs := s.regs.set d (subWord s.cfg p q) } :=
  accumulate_of_some hd hr

theorem exec_beq_of_some {t target v : Nat} (ht : s.regs[t]? = some v) :
    exec (.beq t target) s = .next { s with ip := if v = 0 then target else s.ip + 1 } := by
  refine (readReg_of_some ht).trans ?_
  by_cases hv : v = 0 <;> simp [isZero, hv, targetOperand, advance]

/-! ### The claims -/

/-- Settles O15: the two register tests, then the write of the wrapped sum. -/
theorem addWritesWrappedSum : Obligations.AddWritesWrappedSum := by
  unfold Obligations.AddWritesWrappedSum
  exact ⟨TwoOperands.wordIs (m := .add) (.inl rfl), readsAs_instr .add, assembles_regReg (m := .add) rfl,
    fun s d r p q => exec_add_of_some, fun s d r => exec_regReg_badRegister (m := .add) rfl⟩

/-- Settles O16: the two register tests, then the write of the wrapped difference. -/
theorem subWritesWrappedDifference : Obligations.SubWritesWrappedDifference := by
  unfold Obligations.SubWritesWrappedDifference
  exact ⟨TwoOperands.wordIs (m := .sub) (.inl rfl), readsAs_instr .sub, assembles_regReg (m := .sub) rfl,
    fun s d r p q hd hr => ⟨subWord s.cfg p q, subWord_cast s.cfg p q, exec_sub_of_some hd hr⟩,
    fun s d r => exec_regReg_badRegister (m := .sub) rfl⟩

/-- Settles O22: `sub` leaves a zero exactly when the words are equal, and `beq` reads back what it wrote. -/
theorem arithmeticWrapsAndTestsEquality : Obligations.ArithmeticWrapsAndTestsEquality := by
  unfold Obligations.ArithmeticWrapsAndTestsEquality
  refine ⟨fun s d r p q hd hr hp hq => ⟨exec_add_of_some hd hr, subWord s.cfg p q, subWord_eq hp hq,
    subWord_lt s.cfg p q, exec_sub_of_some hd hr, fun target => ?_⟩, rfl⟩
  have hread : (s.regs.set d (subWord s.cfg p q))[d]? = some (subWord s.cfg p q) :=
    List.getElem?_set_self (lt_numReg_of_getElem? hd)
  rw [exec_beq_of_some hread]
  simp only [subWord_eq_zero hp hq]

end Sys2Proof.Machine

/-! SUPPORT. Branches (43_branches.md): the two tests of a whole register, and the fetch that follows a target out of
range (R112). -/

namespace Sys2Proof.Machine

open Sys2Proof.Claims

variable {s t : State}

/-- On a register in range `bne` chooses between the same two addresses as `beq`, the other way round. -/
theorem exec_bne_of_some {r target v : Nat} (hr : s.regs[r]? = some v) :
    exec (.bne r target) s = .next { s with ip := if v = 0 then s.ip + 1 else target } := by
  refine (readReg_of_some hr).trans ?_
  by_cases hv : v = 0 <;> simp [isZero, hv, targetOperand, advance]

/-- Settles O17: one register test, whether or not the branch is taken, then the choice of `ip`. -/
theorem beqBranchesOnZero : Obligations.BeqBranchesOnZero := by
  unfold Obligations.BeqBranchesOnZero
  exact ⟨TwoOperands.wordIs (m := .beq) (.inr rfl), readsAs_instr .beq, assembles_regValue (m := .beq) rfl,
    assemblesLabel_regValue (m := .beq) rfl, fun s r v x => exec_beq_of_some, fun s r v => readReg_of_le⟩

/-- Settles O18: one register test, whether or not the branch is taken, then the choice of `ip`. -/
theorem bneBranchesOnNonzero : Obligations.BneBranchesOnNonzero := by
  unfold Obligations.BneBranchesOnNonzero
  exact ⟨TwoOperands.wordIs (m := .bne) (.inr rfl), readsAs_instr .bne, assembles_regValue (m := .bne) rfl,
    assemblesLabel_regValue (m := .bne) rfl, fun s r v x => exec_bne_of_some, fun s r v => readReg_of_le⟩

/-- An instruction that has not faulted has had its effect. -/
theorem effect_of_exec {i : Instr} (hb : i ≠ .brk) (h : exec i s = .next t) (ht : t.fault = none) : Effect i s t := by
  rcases exec_next hb h with ⟨k, -, rfl⟩ | he
  · cases ht
  · exact he

/-- Every effect but that of `hlt` leaves the plain build ready for its next cycle (R80). -/
theorem Effect.plainReady {i : Instr} (he : Effect i s t) (hh : i ≠ .hlt) (hp : s.plainReady) : t.plainReady := by
  obtain ⟨hbuild, hfault, hrun⟩ := hp
  obtain ⟨hcfg, hf, -⟩ := he.frame
  rcases he.runState with ⟨hi, -⟩ | ⟨-, hr⟩
  · exact absurd hi hh
  · exact ⟨hcfg ▸ hbuild, hf.trans hfault, hr.trans hrun⟩

/-- Settles O36: the register decides which of the two is taken; the target is looked at by the next fetch only. -/
theorem branchesAreComplementaryAndUnchecked : Obligations.BranchesAreComplementaryAndUnchecked := by
  unfold Obligations.BranchesAreComplementaryAndUnchecked
  refine ⟨fun s r v x hx => ?_, ?_⟩
  · rw [exec_beq_of_some hx, exec_bne_of_some hx]
    by_cases hz : x = 0
    · exact .inl (by simp [hz])
    · exact .inr (by simp [hz])
  · rintro s t r v hp - hi hstep ht rfl hv
    obtain ⟨i, hi, hb, hh⟩ : ∃ i, s.instrAtIp = some i ∧ i ≠ .brk ∧ i ≠ .hlt := by
      rcases hi with hi | hi <;> exact ⟨_, hi, nofun, nofun⟩
    have he : Effect i s t := effect_of_exec hb ((step_of_instrAtIp hp hb hi).symm.trans hstep) ht
    obtain ⟨hcfg, -⟩ := he.frame
    exact step_of_ramLen_le_ip (.inl (he.plainReady hh hp)) (hcfg ▸ hv)

end Sys2Proof.Machine

/-! SUPPORT. The print instructions (44_output.md), and what the two share: one register operand, so one word, one
line of assembly. -/

namespace Sys2Proof.Machine

open Sys2Proof.Claims

variable {s : State} {m : Mnemonic}

/-! ### The word and the line of an instruction with one register -/

theorem fields_instr_reg (hm : formatOf m = .reg) (c : Config) (r b : Nat) :
    (m.instr r b).fields c = ⟨opcode c m, r, 0⟩ := by
  cases m <;> cases hm <;> rfl

theorem wordIs_reg (hm : formatOf m = .reg) (r : Nat) :
    wordIs (m.instr r 0) m (opcode Config.reference m) r 0 :=
  wordIs_of_fields fun c => fields_instr_reg hm c r 0

theorem instrText_instr_reg (hm : formatOf m = .reg) (r b : Nat) :
    instrText (m.instr r b) = mnemonicText m ++ ' ' :: regText r := by
  cases m <;> cases hm <;> rfl

theorem tokens_reg (hm : formatOf m = .reg) (r : Nat) :
    tokens (mnemonicText m ++ ' ' :: regText r) = [mnemonicText m, regText r] := by
  rw [← instrText_instr_reg hm r 0, tokens_instrText]
  cases m <;> cases hm <;> rfl

theorem resolveOperands_reg (hm : formatOf m = .reg) {c : Config} {numReg r : Nat} {labels : LabelTable}
    (hr : r < numReg) (line : Text) :
    resolveOperands c numReg labels line m [regText r] = .ok ⟨opcode c m, r, 0⟩ := by
  simp [resolveOperands, hm, resolveReg_regText hr]

/-- The register need not fit a field: R67 tests it against `NUM_REG` only. -/
theorem assembles_reg (hm : formatOf m = .reg) (r : Nat) :
    assembles (mnemonicText m ++ ' ' :: regText r) (m.instr r 0) [r] [] := by
  intro c numReg labels hregs _
  rw [encode, fields_instr_reg hm]
  exact compileLine_of_tokens (tokens_reg hm r) (resolveOperands_reg hm (hregs r (by simp)) _)

/-! ### The two instructions with their checks passed -/

theorem exec_prr_of_some {r x : Nat} (hr : s.regs[r]? = some x) :
    exec (.prr r) s = .next { s with ip := s.ip + 1, out := s.out ++ [x] } := readReg_of_some hr

theorem exec_prm_of_lt {r addr : Nat} (hr : s.regs[r]? = some addr) (ha : addr < s.cfg.ramLen) :
    exec (.prm r) s = .next { s with ip := s.ip + 1, out := s.out ++ [s.mem.read addr] } :=
  (readReg_of_some hr).trans (memRead_of_lt ha)

/-- Settles O19: one register test, then the whole register is emitted. -/
theorem prrEmitsRegister : Obligations.PrrEmitsRegister := by
  unfold Obligations.PrrEmitsRegister
  exact ⟨wordIs_reg (m := .prr) rfl, readsAs_instr .prr, assembles_reg (m := .prr) rfl,
    fun s r x => exec_prr_of_some, fun s r => readReg_of_le⟩

/-- Settles O20: the register test, the address test, then the word read is emitted. -/
theorem prmEmitsWord : Obligations.PrmEmitsWord := by
  unfold Obligations.PrmEmitsWord
  exact ⟨wordIs_reg (m := .prm) rfl, readsAs_instr .prm, assembles_reg (m := .prm) rfl,
    fun s r addr hr => ⟨exec_prm_of_lt hr, fun ha => (readReg_of_some hr).trans (memRead_of_le ha)⟩,
    fun s r => readReg_of_le⟩

end Sys2Proof.Machine

/-! SUPPORT. Breakpoints (45_breakpoint_debug.md sections 1 and 2): the presence test, what set and clear leave at
their address and away from it, and what the run loop does at a sentinel. -/

namespace Sys2Proof.Machine

open Sys2Proof.Claims

variable {s t : State} {b c w : Nat} {f : Fields} {rest : List Command}

/-! ### The presence test (R131) -/

theorem isSentinel_iff_mod {c : Config} : isSentinel c w = true ↔ w % 2 ^ c.opShift = opcode c .brk := by
  simp [isSentinel, decodeFields]

theorem hasSentinel_iff_mod : hasSentinel s b = true ↔ s.mem.read b % 2 ^ s.cfg.opShift = opcode s.cfg .brk :=
  isSentinel_iff_mod

/-- The test looks at the configuration and at the one word. -/
theorem hasSentinel_congr (hcfg : t.cfg = s.cfg) (hm : t.mem.read b = s.mem.read b) :
    hasSentinel t b = hasSentinel s b := by
  simp [hasSentinel, hcfg, hm]

/-! ### The top of an iteration, by the test (R140) -/

theorem step_at_sentinel (ht : s.atTop) (hip : s.ip < s.cfg.ramLen) (hs : hasSentinel s s.ip = true) :
    step s = execBrk s :=
  (step_atTop ht).trans ((fetch_of_lt hip).trans (if_pos hs))

/-- Away from a sentinel STEPPING decides between pausing and executing. -/
theorem step_away_from_sentinel (ht : s.atTop) (hip : s.ip < s.cfg.ramLen) (hs : hasSentinel s s.ip = false) :
    step s = if s.runState = .stepping then .next (pause (decodeFields s.cfg (s.mem.read s.ip)) s)
      else execute (decodeFields s.cfg (s.mem.read s.ip)) s :=
  (step_atTop ht).trans ((fetch_of_lt hip).trans (if_neg (Bool.not_eq_true _ ▸ hs)))

theorem step_pauses (ht : s.atTop) (hip : s.ip < s.cfg.ramLen) (hs : hasSentinel s s.ip = false)
    (hr : s.runState = .stepping) : step s = .next (pause (decodeFields s.cfg (s.mem.read s.ip)) s) :=
  (step_away_from_sentinel ht hip hs).trans (if_pos hr)

theorem step_runs (ht : s.atTop) (hip : s.ip < s.cfg.ramLen) (hs : hasSentinel s s.ip = false)
    (hr : s.runState = .running) : step s = execute (decodeFields s.cfg (s.mem.read s.ip)) s :=
  (step_away_from_sentinel ht hip hs).trans (if_neg (by simp [hr]))

theorem step_traps (ht : s.atTop) (hip : s.ip < s.cfg.ramLen) (hs : hasSentinel s s.ip = true)
    (hl : lookupCell s.breaks s.ip = some w) : step s = .next (trap (decodeFields s.cfg w) s) :=
  (step_at_sentinel ht hip hs).trans (execBrk_of_some ht.1 hl)

theorem step_sentinel_without_entry (ht : s.atTop) (hip : s.ip < s.cfg.ramLen) (hs : hasSentinel s s.ip = true)
    (hl : lookupCell s.breaks s.ip = none) : step s = .next (raise .unknownOpcode s.ip s) :=
  (step_at_sentinel ht hip hs).trans (execBrk_of_none ht.1 hl)

/-- Settles O21: `execBrk` by build and table entry; dispatch on the sentinel's code finds no arm of `Execute`. -/
theorem brkTrapsOrFaults : Obligations.BrkTrapsOrFaults := by
  unfold Obligations.BrkTrapsOrFaults
  refine ⟨wordIs_of_fields fun _ => rfl, sentinel_eq, sentinel_eq _, readsAs_instr .brk,
    fun c numReg labels _ _ => compileLine_instrText (i := .brk) rfl, fun s => execBrk_plain,
    fun s w => execBrk_of_some, fun s => execBrk_of_none, fun f s hwf hop => ?_⟩
  exact execute_of_brk (instrOf_of_op (Config.codesOk_of_wf hwf) hop)

/-- Settles O38: set, clear and the run loop each branch on `hasSentinel`. -/
theorem onePresenceTest : Obligations.OnePresenceTest := by
  unfold Obligations.OnePresenceTest
  refine ⟨fun s b => hasSentinel_iff_mod, fun s b => setBreakpoint_of_true, fun s b hwf hs => ?_, fun s ht hip => ?_⟩
  · exact ⟨hasSentinel_setBreakpoint (Config.codesOk_of_wf hwf), clearBreakpoint_of_false hs⟩
  · exact ⟨step_at_sentinel ht hip, step_pauses ht hip, step_runs ht hip⟩

/-- Settles O43: at a sentinel `STEPPING` is not looked at, and without an entry there is nothing to trap on. -/
theorem sentinelWithoutEntryFaults : Obligations.SentinelWithoutEntryFaults := by
  unfold Obligations.SentinelWithoutEntryFaults
  exact fun s => step_sentinel_without_entry

/-! ### The breakpoint commands (R132, R133, R135) -/

theorem step_setBreak (hp : s.pausedWith f) (hc : s.cmds = .setBreak b :: rest) :
    step s = .next (if b < s.cfg.ramLen then setBreakpoint b { s with cmds := rest }
      else respond .softError { s with cmds := rest }) := step_command hp hc

theorem step_clearBreak (hp : s.pausedWith f) (hc : s.cmds = .clearBreak b :: rest) :
    step s = .next (if b < s.cfg.ramLen then clearBreakpoint b { s with cmds := rest }
      else respond .softError { s with cmds := rest }) := step_command hp hc

/-- Settles O42: both commands make the same range test, and neither answer ends the pause. -/
theorem breakpointAddressIsChecked : Obligations.BreakpointAddressIsChecked := by
  unfold Obligations.BreakpointAddressIsChecked
  refine fun s f b rest hp hb hc => ⟨?_, hp⟩
  rcases hc with hc | hc
  · rw [step_setBreak hp hc, if_neg hb.not_gt]; rfl
  · rw [step_clearBreak hp hc, if_neg hb.not_gt]; rfl

/-- Settles O39: one word is written and one entry listed, both at `b`. -/
theorem setBreakpointSavesAndPatches : Obligations.SetBreakpointSavesAndPatches := by
  unfold Obligations.SetBreakpointSavesAndPatches
  refine ⟨rfl, fun s f b rest hp hc hb => ?_⟩
  rw [step_setBreak hp hc, if_pos hb]
  refine ⟨fun hs => congrArg _ (setBreakpoint_of_true hs), fun hs => ?_⟩
  exact ⟨_, _, congrArg _ (setBreakpoint_of_false hs), by simp, fun c hne => by simp [hne.symm], by simp,
    fun c hne => by simp [hne.symm]⟩

/-- Settles O40: one word is written and one entry dropped, both at `b`, or nothing is done. -/
theorem clearBreakpointRestores : Obligations.ClearBreakpointRestores := by
  unfold Obligations.ClearBreakpointRestores
  intro s f b rest hp hc hb
  rw [step_clearBreak hp hc, if_pos hb]
  refine ⟨fun h => congrArg _ ?_, fun w hs hl => ?_⟩
  · rcases h with hs | hl
    · exact clearBreakpoint_of_false hs
    · exact clearBreakpoint_of_none (s := { s with cmds := rest }) hl
  · exact ⟨_, _, congrArg _ (clearBreakpoint_of_some hs hl), by simp, fun c hne => by simp [hne.symm], by simp,
      fun c hne => by simp [hne.symm]⟩

/-! ### The laws of set and clear (R134) -/

theorem lookupCell_setBreakpoint (hs : hasSentinel s b = false) :
    lookupCell (setBreakpoint b s).breaks c = if b = c then some (s.mem.read b) else lookupCell s.breaks c := by
  rw [setBreakpoint_of_false hs, lookupCell_insertCell]

theorem lookupCell_setBreakpoint_of_ne (h : c ≠ b) :
    lookupCell (setBreakpoint b s).breaks c = lookupCell s.breaks c := by
  cases hs : hasSentinel s b with
  | true => rw [setBreakpoint_of_true hs]
  | false => rw [lookupCell_setBreakpoint hs, if_neg h.symm]

/-- Clearing drops the entry at `b` or leaves the table. -/
theorem lookupCell_clearBreakpoint :
    lookupCell (clearBreakpoint b s).breaks c = lookupCell s.breaks c ∨
      c = b ∧ lookupCell (clearBreakpoint b s).breaks c = none := by
  cases hs : hasSentinel s b with
  | false => exact .inl (by rw [clearBreakpoint_of_false hs])
  | true =>
    cases hl : lookupCell s.breaks b with
    | none => exact .inl (by rw [clearBreakpoint_of_none hl])
    | some w =>
      rw [clearBreakpoint_of_some hs hl, lookupCell_eraseCell]
      by_cases hc : b = c
      · exact .inr ⟨hc.symm, if_pos hc⟩
      · exact .inl (if_neg hc)

theorem clearBreakpoint_cfg (b : Nat) (s : State) : (clearBreakpoint b s).cfg = s.cfg := by
  obtain ⟨m, tbl, h⟩ := clearBreakpoint_frame b s
  rw [h]

/-- The invariant speaks of one address at a time, so a change at `b` is to be looked at there only. -/
theorem State.BreakInvariant.of_change_at (h : s.BreakInvariant) (hcfg : t.cfg = s.cfg)
    (hread : ∀ c, c ≠ b → t.mem.read c = s.mem.read c)
    (hlookup : ∀ c, c ≠ b → lookupCell t.breaks c = lookupCell s.breaks c)
    (hb : b < s.cfg.ramLen → ((lookupCell t.breaks b).isSome = true ↔ hasSentinel t b = true)) :
    t.BreakInvariant := by
  intro c hc
  rw [hcfg] at hc
  by_cases hne : c = b
  · exact hne ▸ hb (hne ▸ hc)
  · rw [hlookup c hne, hasSentinel_congr hcfg (hread c hne)]
    exact h c hc

theorem State.BreakInvariant.setBreakpoint (hc : s.cfg.codesOk = true) (h : s.BreakInvariant) :
    (setBreakpoint b s).BreakInvariant := by
  refine h.of_change_at (b := b) (setBreakpoint_cfg b s) (fun c => setBreakpoint_read)
    (fun c => lookupCell_setBreakpoint_of_ne) fun hb => ?_
  cases hs : hasSentinel s b with
  | true => rw [setBreakpoint_of_true hs]; exact h b hb
  | false => simp [lookupCell_setBreakpoint hs, hasSentinel_setBreakpoint hc]

/-- The word cleared back is an original, which is no sentinel (R134 (e)). -/
theorem hasSentinel_clearBreakpoint_of_some (hk : s.breaksOk) (hs : hasSentinel s b = true)
    (hl : lookupCell s.breaks b = some w) : hasSentinel (clearBreakpoint b s) b = false := by
  obtain ⟨-, -, horig⟩ := hk
  rw [clearBreakpoint_of_some hs hl]
  simpa [hasSentinel] using horig b w hl

theorem State.BreakInvariant.clearBreakpoint (hk : s.breaksOk) (h : s.BreakInvariant) :
    (clearBreakpoint b s).BreakInvariant := by
  cases hs : hasSentinel s b with
  | false => rwa [clearBreakpoint_of_false hs]
  | true =>
    cases hl : lookupCell s.breaks b with
    | none => rwa [clearBreakpoint_of_none hl]
    | some w =>
      refine h.of_change_at (b := b) (clearBreakpoint_cfg b s) (fun c => clearBreakpoint_read)
        (fun c hne => lookupCell_clearBreakpoint.resolve_right fun hcb => hne hcb.1) fun _ => ?_
      rw [hasSentinel_clearBreakpoint_of_some hk hs hl, clearBreakpoint_of_some hs hl]
      simp

theorem setBreakpoint_idempotent (hc : s.cfg.codesOk = true) :
    setBreakpoint b (setBreakpoint b s) = setBreakpoint b s :=
  setBreakpoint_of_true (hasSentinel_setBreakpoint hc)

/-- Cleared once, there is no entry left, or nothing was there to clear. -/
theorem clearBreakpoint_idempotent : clearBreakpoint b (clearBreakpoint b s) = clearBreakpoint b s := by
  rcases lookupCell_clearBreakpoint (s := s) (b := b) (c := b) with hl | ⟨-, hl⟩
  · cases hs : hasSentinel s b with
    | false => rw [clearBreakpoint_of_false hs, clearBreakpoint_of_false hs]
    | true =>
      cases he : lookupCell s.breaks b with
      | none => rw [clearBreakpoint_of_none he, clearBreakpoint_of_none he]
      | some w => simp [clearBreakpoint_of_some hs he, he] at hl
  · exact clearBreakpoint_of_none hl

/-- Clear undoes set at an address with neither a sentinel nor an entry: the canonical forms of RAM and table make
equal contents equal lists. -/
theorem clearBreakpoint_setBreakpoint (hc : s.cfg.codesOk = true) (hm : s.mem.wf = true)
    (hr : cellsRising s.breaks = true) (hs : hasSentinel s b = false) (hl : lookupCell s.breaks b = none) :
    clearBreakpoint b (setBreakpoint b s) = s := by
  have hentry : lookupCell (setBreakpoint b s).breaks b = some (s.mem.read b) := by
    rw [lookupCell_setBreakpoint hs, if_pos rfl]
  rw [clearBreakpoint_of_some (hasSentinel_setBreakpoint hc) hentry, setBreakpoint_of_false hs]
  have hmem : (s.mem.write b (sentinel s.cfg)).write b (s.mem.read b) = s.mem := by
    refine Memory.ext_read (Memory.wf_write (Memory.wf_write hm _ _) _ _) hm fun a => ?_
    by_cases ha : b = a <;> simp [ha]
  have hbreaks : eraseCell (insertCell s.breaks b (s.mem.read b)) b = s.breaks := by
    refine cells_ext (cellsRising_eraseCell (cellsRising_insertCell hr _ _) _) hr fun a => ?_
    by_cases ha : b = a
    · simp [← ha, hl]
    · simp [ha]
  simp only [hmem, hbreaks]

/-- Set saves no sentinel: it does nothing at one. -/
theorem isSentinel_saved_setBreakpoint (h : ∀ c w, lookupCell s.breaks c = some w → isSentinel s.cfg w = false)
    (hl : lookupCell (setBreakpoint b s).breaks c = some w) : isSentinel s.cfg w = false := by
  cases hs : hasSentinel s b with
  | true => exact h c w (setBreakpoint_of_true hs ▸ hl)
  | false =>
    rw [lookupCell_setBreakpoint hs] at hl
    split at hl
    · exact Option.some.inj hl ▸ hs
    · exact h c w hl

theorem isSentinel_saved_clearBreakpoint (h : ∀ c w, lookupCell s.breaks c = some w → isSentinel s.cfg w = false)
    (hl : lookupCell (clearBreakpoint b s).breaks c = some w) : isSentinel s.cfg w = false := by
  rcases lookupCell_clearBreakpoint (s := s) (b := b) (c := c) with hc | ⟨-, hc⟩
  · exact h c w (hc ▸ hl)
  · rw [hc] at hl; cases hl

/-- Settles O41: the invariant says that a sentinel stands exactly where an entry does, so set finds neither or both. -/
theorem setAndClearLaws : Obligations.SetAndClearLaws := by
  unfold Obligations.SetAndClearLaws
  intro s b hinv hbreak hb
  have hc : s.cfg.codesOk = true := Config.codesOk_of_wf hinv.params.1
  obtain ⟨hrising, -, horig⟩ := hinv.breaks
  refine ⟨hbreak.setBreakpoint hc, hbreak.clearBreakpoint hinv.breaks, setBreakpoint_idempotent hc,
    clearBreakpoint_idempotent, fun hl => ?_, ?_, ?_⟩
  · have hs : hasSentinel s b = false := by simpa [hl] using hbreak b hb
    exact clearBreakpoint_setBreakpoint hc hinv.mem.1 hrising hs hl
  · rintro t (rfl | rfl)
    · obtain ⟨m, tbl, h⟩ := setBreakpoint_frame b s
      exact ⟨by rw [h], fun c => setBreakpoint_read⟩
    · obtain ⟨m, tbl, h⟩ := clearBreakpoint_frame b s
      exact ⟨by rw [h], fun c => clearBreakpoint_read⟩
  · intro t ht c w hl hop
    have hs : isSentinel s.cfg w = false := by
      rcases ht with rfl | rfl | rfl
      · exact horig c w hl
      · exact isSentinel_saved_setBreakpoint horig hl
      · exact isSentinel_saved_clearBreakpoint horig hl
    rw [isSentinel_iff_mod.mpr hop] at hs
    cases hs

/-- Settles O44: with no sentinel in RAM the entry is not looked at; a sentinel word stored there makes it the
original. -/
theorem staleEntryBehaviour : Obligations.StaleEntryBehaviour := by
  unfold Obligations.StaleEntryBehaviour
  intro s b w hwf hl hs
  refine ⟨?_, clearBreakpoint_of_false hs, ?_, hasSentinel_setBreakpoint (Config.codesOk_of_wf hwf), ?_⟩
  · rintro ht rfl hb hr
    exact step_runs ht hb hs hr
  · rw [lookupCell_setBreakpoint hs, if_pos rfl]
  · rintro x hx ht rfl hb
    have hstored : hasSentinel { s with mem := s.mem.write s.ip x } s.ip = true :=
      hasSentinel_iff_mod.mpr (by simp [hx])
    exact step_traps (s := { s with mem := s.mem.write s.ip x }) ht hb hstored hl

end Sys2Proof.Machine

/-! SUPPORT. The debugger build's run loop and interactive loop (45_breakpoint_debug.md sections 4 and 5): the
commands, the transitions of `run_state`, the two responses, and the plain build as a run without pauses. -/

namespace Sys2Proof.Machine

variable {s t : State} {b c w : Nat} {f : Fields} {rest : List Command}

/-! ### The commands that end a pause (R140, R142) -/

theorem step_step (hp : s.pausedWith f) (hc : s.cmds = .step :: rest) :
    step s = execute f { s with cmds := rest, ir := none } := by
  have hresume : resume .stepping { s with cmds := rest } = { s with cmds := rest, ir := none } := by
    obtain ⟨-, -, hr, -⟩ := hp
    rw [resume, ← hr]
  exact (step_command hp hc).trans (congrArg (execute f) hresume)

theorem step_run (hp : s.pausedWith f) (hc : s.cmds = .run :: rest) :
    step s = execute f { s with cmds := rest, ir := none, runState := .running } := step_command hp hc

theorem step_quit (hp : s.pausedWith f) (hc : s.cmds = .quit :: rest ∨ s.cmds = .endOfInput :: rest) :
    step s = .next { s with cmds := rest, ir := none, runState := .finished } := by
  rcases hc with hc | hc <;> exact step_command hp hc

/-- Settles O45: the fetch, the presence test, the table and `run_state` are looked at in this order; a pause ends by
one of four commands. -/
theorem runLoopIteration : Obligations.RunLoopIteration := by
  unfold Obligations.RunLoopIteration
  refine ⟨fun s ht => ⟨step_of_ramLen_le_ip (.inr ht), fun hip => ⟨fun hop => ?_, fun hop => ?_⟩⟩,
    fun s f rest hp => ⟨step_step hp, step_run hp, step_quit hp⟩⟩
  · have hs : hasSentinel s s.ip = true := hasSentinel_iff_mod.mpr hop
    exact ⟨step_sentinel_without_entry ht hip hs, fun w => step_traps ht hip hs⟩
  · have hs : hasSentinel s s.ip = false := Bool.eq_false_iff.mpr fun hs => hop (hasSentinel_iff_mod.mp hs)
    exact ⟨step_pauses ht hip hs, step_runs ht hip hs⟩

/-! ### What `Execute` keeps of the debugger's state -/

theorem execute_frame (h : execute f s = .next t) : t.cfg = s.cfg ∧ t.ir = s.ir ∧ t.cmds = s.cmds := by
  rcases execute_cases h with ⟨k, -, rfl⟩ | ⟨i, -, -, he⟩
  · exact ⟨rfl, rfl, rfl⟩
  · obtain ⟨hcfg, -, -, hir, hcmds, -⟩ := he.frame
    exact ⟨hcfg, hir, hcmds⟩

theorem execute_cmds (h : execute f s = .next t) : t.cmds = s.cmds := by
  obtain ⟨-, -, hcmds⟩ := execute_frame h
  exact hcmds

/-- `Execute` finishes the run on `hlt` and leaves `run_state` otherwise, faulting or not (R83, R161). -/
theorem execute_runState (h : execute f s = .next t) :
    instrOf s.cfg f = some .hlt ∧ t.runState = .finished ∨
      instrOf s.cfg f ≠ some .hlt ∧ t.runState = s.runState := by
  by_cases hi : instrOf s.cfg f = some .hlt
  · rw [execute_of_some hi nofun] at h
    exact .inl ⟨hi, next_inj.mp h ▸ rfl⟩
  · refine .inr ⟨hi, ?_⟩
    rcases execute_cases h with ⟨k, -, rfl⟩ | ⟨i, -, hf, he⟩
    · rfl
    · exact he.runState.elim (fun hh => absurd (hh.1 ▸ hf) hi) And.right

/-! ### A command is read in a pause only, and then one (R142) -/

/-- A state that takes a cycle or an iteration is not in the interactive loop. -/
theorem not_pausedWith (h : s.plainReady ∨ s.atTop) : ¬s.pausedWith f := by
  rintro ⟨hb, -, hr, hi⟩
  rcases h with ⟨hb', -⟩ | ⟨-, -, hr' | ⟨-, hi'⟩⟩
  · simp [hb] at hb'
  · simp [hr] at hr'
  · simp [hi] at hi'

theorem command_cmds {k : Command} (h : command k f s = .next t) : t.cmds = s.cmds := by
  rcases command_next h with ⟨-, rfl⟩ | ⟨-, h⟩ | ⟨-, h⟩ | ⟨b, -, rfl⟩ | ⟨b, -, rfl⟩ | ⟨-, rfl⟩ | ⟨r, rfl, -⟩
  · rfl
  · exact execute_cmds (s := resume .stepping s) h
  · exact execute_cmds (s := resume .running s) h
  · obtain ⟨m, tbl, r, e⟩ := commandSetBreak_frame b s
    rw [e]
  · obtain ⟨m, tbl, r, e⟩ := commandClearBreak_frame b s
    rw [e]
  · rfl
  · rfl

theorem StepCase.cmds (h : StepCase s t) :
    t.cmds = s.cmds ∧ (∀ f, ¬s.pausedWith f) ∨ ∃ f k, s.pausedWith f ∧ s.cmds = k :: t.cmds := by
  cases h with
  | outOfRange h hip => exact .inl ⟨rfl, fun f => not_pausedWith h⟩
  | runs h hip he => exact .inl ⟨execute_cmds he, fun f => not_pausedWith (h.imp_right And.left)⟩
  | sentinel h hip hs he =>
    refine .inl ⟨?_, fun f => not_pausedWith (.inr h)⟩
    rcases execBrk_cases h.1 he with ⟨w, -, rfl⟩ | ⟨-, rfl⟩
    · rfl
    · rfl
  | pauses h hr hip hs => exact .inl ⟨rfl, fun f => not_pausedWith (.inr h)⟩
  | reads f k rest h hc he => exact .inr ⟨f, k, h, by rw [command_cmds he]; exact hc⟩

/-- Settles O47: each command is taken off `DBG_CMD` and carried out; of the kinds of step only that in a pause takes
one. -/
theorem commandsOfTheInteractiveLoop : Obligations.CommandsOfTheInteractiveLoop := by
  unfold Obligations.CommandsOfTheInteractiveLoop
  refine ⟨fun s f rest hp => ⟨fun hc t => ?_, step_command hp, fun text => step_command hp,
    fun hc => ⟨_, step_command hp hc⟩, fun hc => ⟨_, step_command hp hc⟩, step_step hp, step_run hp,
    fun b => step_setBreak hp, fun b => step_clearBreak hp, step_quit hp⟩, fun s t h => (step_next h).cmds⟩
  rw [step_awaiting hp hc]
  nofun

/-! ### The transitions of `run_state` (R145) -/

/-- A step keeps `run_state`, or makes one of the transitions T1 to T4. -/
inductive Transition (s t : State) : Prop where
  /-- Every other step, T5 among them. -/
  | stays (h : t.runState = s.runState)
  /-- T1. -/
  | runs {f : Fields} {rest : List Command} (hp : s.pausedWith f) (hc : s.cmds = .run :: rest)
      (h : t.runState = .running)
  /-- T2, from RUNNING or STEPPING. -/
  | traps (hip : s.ip < s.cfg.ramLen) (hs : hasSentinel s s.ip = true)
      (hl : (lookupCell s.breaks s.ip).isSome = true) (h : t.runState = .stepping)
  /-- T4. -/
  | halts (hx : s.executing = some .hlt) (h : t.runState = .finished)
  /-- T3. -/
  | quits {f : Fields} {rest : List Command} (hp : s.pausedWith f)
      (hc : s.cmds = .quit :: rest ∨ s.cmds = .endOfInput :: rest) (h : t.runState = .finished)

theorem transition_of_command {k : Command} (hp : s.pausedWith f) (hc : s.cmds = k :: rest)
    (h : command k f { s with cmds := rest } = .next t) : Transition s t := by
  rcases command_next h with ⟨hk, rfl⟩ | ⟨rfl, h⟩ | ⟨rfl, h⟩ | ⟨b, -, rfl⟩ | ⟨b, -, rfl⟩ | ⟨-, rfl⟩ | ⟨r, rfl, -⟩
  · exact .quits (rest := rest) hp (by rcases hk with rfl | rfl <;> simp [hc]) rfl
  · rcases execute_runState h with ⟨hi, ht⟩ | ⟨-, ht⟩
    · exact .halts ((executing_of_resuming hp hc (.inl rfl)).trans hi) ht
    · obtain ⟨-, -, hr, -⟩ := hp
      exact .stays (ht.trans hr.symm)
  · rcases execute_runState h with ⟨hi, ht⟩ | ⟨-, ht⟩
    · exact .halts ((executing_of_resuming hp hc (.inr rfl)).trans hi) ht
    · exact .runs hp hc ht
  · obtain ⟨m, tbl, r, e⟩ := commandSetBreak_frame b { s with cmds := rest }
    exact .stays (by rw [e])
  · obtain ⟨m, tbl, r, e⟩ := commandClearBreak_frame b { s with cmds := rest }
    exact .stays (by rw [e])
  · exact .stays rfl
  · exact .stays rfl

theorem StepCase.transition (h : StepCase s t) : Transition s t := by
  cases h with
  | outOfRange h hip => exact .stays rfl
  | runs h hip he =>
    have hr : s.plainReady ∨ s.atTop ∧ s.runState = .running := h.imp_right fun ⟨ht, hr, _⟩ => ⟨ht, hr⟩
    rcases execute_runState he with ⟨hi, ht⟩ | ⟨-, ht⟩
    · exact .halts (by rw [executing_of_running hr, instrAtIp_of_lt hip, hi]) ht
    · exact .stays ht
  | sentinel h hip hs he =>
    rcases execBrk_cases h.1 he with ⟨w, hl, rfl⟩ | ⟨-, rfl⟩
    · exact .traps hip hs (by rw [hl]; rfl) rfl
    · exact .stays rfl
  | pauses h hr hip hs => exact .stays rfl
  | reads f k rest hp hc he => exact transition_of_command hp hc he

theorem Transition.to_running (h : Transition s t) (ht : t.runState = .running) :
    s.runState = .running ∨ ∃ f rest, s.pausedWith f ∧ s.cmds = .run :: rest := by
  cases h with
  | stays h => exact .inl (h.symm.trans ht)
  | runs hp hc h => exact .inr ⟨_, _, hp, hc⟩
  | traps hip hs hl h => rw [ht] at h; cases h
  | halts hx h => rw [ht] at h; cases h
  | quits hp hc h => rw [ht] at h; cases h

theorem Transition.to_stepping (h : Transition s t) (ht : t.runState = .stepping) :
    s.runState = .stepping ∨
      s.ip < s.cfg.ramLen ∧ hasSentinel s s.ip = true ∧ (lookupCell s.breaks s.ip).isSome = true := by
  cases h with
  | stays h => exact .inl (h.symm.trans ht)
  | runs hp hc h => rw [ht] at h; cases h
  | traps hip hs hl h => exact .inr ⟨hip, hs, hl⟩
  | halts hx h => rw [ht] at h; cases h
  | quits hp hc h => rw [ht] at h; cases h

theorem Transition.to_finished (h : Transition s t) (hs : s.runState ≠ .finished) (ht : t.runState = .finished) :
    s.executing = some .hlt ∨
      ∃ f rest, s.pausedWith f ∧ (s.cmds = .quit :: rest ∨ s.cmds = .endOfInput :: rest) := by
  cases h with
  | stays h => exact absurd (h.symm.trans ht) hs
  | runs hp hc h => rw [ht] at h; cases h
  | traps hip hs hl h => rw [ht] at h; cases h
  | halts hx h => exact .inl hx
  | quits hp hc h => exact .inr ⟨_, _, hp, hc⟩

/-- T4: an executed `hlt` finishes the run. -/
theorem runState_of_hlt_step (hc : s.cfg.codesOk = true) (hx : s.executing = some .hlt) (h : step s = .next t) :
    t.runState = .finished := by
  obtain ⟨u, -, he⟩ := step_of_executing (i := .hlt) hc nofun hx
  exact next_inj.mp (he.symm.trans h) ▸ rfl

/-- T1 and T5: a pause that resumes without executing `hlt` leaves `run_state` as the command has set it. -/
theorem runState_of_resuming_step {k : Command} {r : RunState} (hp : s.pausedWith f) (hc : s.cmds = k :: rest)
    (hk : k = .step ∧ r = .stepping ∨ k = .run ∧ r = .running) (hx : s.executing ≠ some .hlt)
    (h : step s = .next t) : t.runState = r := by
  rw [executing_of_resuming hp hc (hk.imp And.left And.left)] at hx
  rw [step_command hp hc] at h
  rcases hk with ⟨rfl, rfl⟩ | ⟨rfl, rfl⟩
  · exact (execute_runState (s := resume .stepping { s with cmds := rest }) h).elim (fun hh => absurd hh.1 hx) And.right
  · exact (execute_runState (s := resume .running { s with cmds := rest }) h).elim (fun hh => absurd hh.1 hx) And.right

/-- Settles O49: each listed transition is what its step does, and `Transition` lists all that a step does. -/
theorem runStateTransitions : Obligations.RunStateTransitions := by
  unfold Obligations.RunStateTransitions
  refine ⟨fun c numReg program cmds => rfl, fun s t hwf hb h => ?_⟩
  have hcase := (step_next h).transition
  have hrun : s.runState ≠ .finished := fun hr => step_ne_next_of_finished hr h
  refine ⟨hrun, hcase.to_running, hcase.to_stepping, hcase.to_finished hrun,
    fun hx => runState_of_hlt_step (Config.codesOk_of_wf hwf) hx h,
    fun f rest hp hc hx => runState_of_resuming_step hp hc (.inr ⟨rfl, rfl⟩) hx h,
    fun f rest hp hc hx => runState_of_resuming_step hp hc (.inl ⟨rfl, rfl⟩) hx h, fun f rest hp hc => ?_,
    fun ht hip hs hl => ?_⟩
  · exact next_inj.mp ((step_quit hp hc).symm.trans h) ▸ rfl
  · obtain ⟨w, hw⟩ := Option.isSome_iff_exists.mp hl
    exact next_inj.mp ((step_traps ht hip hs hw).symm.trans h) ▸ rfl

/-! ### `Step` and `Quit` (R147) -/

/-- In STEPPING the top of an iteration pauses, at a sentinel with the original instruction, away from one with the
word's own. -/
theorem step_pauses_or_traps (ht : t.atTop) (hr : t.runState = .stepping) (hip : t.ip < t.cfg.ramLen)
    (hs : hasSentinel t t.ip = false ∨ (lookupCell t.breaks t.ip).isSome = true) :
    ∃ g, step t = .next { t with ir := some g } := by
  cases htest : hasSentinel t t.ip with
  | false => exact ⟨_, step_pauses ht hip htest hr⟩
  | true =>
    obtain ⟨w, hw⟩ := Option.isSome_iff_exists.mp (hs.resolve_left (by simp [htest]))
    refine ⟨decodeFields t.cfg w, ?_⟩
    rw [step_traps ht hip htest hw, trap, ← hr]
    rfl

/-- Settles O51: `Execute` leaves the latch empty and, unless it halts, `run_state` STEPPING, so the next iteration
pauses; `Quit` does not reach `Execute`. -/
theorem stepAndQuitExactly : Obligations.StepAndQuitExactly := by
  unfold Obligations.StepAndQuitExactly
  refine ⟨fun s t f rest hp hc h => ?_, fun s f rest => step_quit⟩
  have hx : execute f { s with cmds := rest, ir := none } = .next t := (step_step hp hc).symm.trans h
  obtain ⟨hb, -, hr, -⟩ := hp
  refine ⟨hx, fun hf hfin => ?_⟩
  obtain ⟨hcfg, hir, hcmds⟩ := execute_frame hx
  have htb : t.cfg.build = .debugger := hcfg ▸ hb
  have htr : t.runState = .stepping := (execute_runState hx).elim (fun hh => absurd hh.2 hfin) (·.2.trans hr)
  have htop : t.atTop := ⟨htb, hf, .inr ⟨htr, hir⟩⟩
  refine ⟨htop, htr, hcmds, fun hip hs => ?_⟩
  obtain ⟨g, hg⟩ := step_pauses_or_traps htop htr hip hs
  exact ⟨_, g, hg, ⟨htb, hf, htr, rfl⟩, rfl⟩

/-! ### The responses (R144, R146) -/

/-- Settles O48: the response is built from `ir`, which the pause has filled with the original instruction or with
that of the word at `ip`. -/
theorem disassemblyShowsInstructionHeld : Obligations.DisassemblyShowsInstructionHeld := by
  unfold Obligations.DisassemblyShowsInstructionHeld
  refine ⟨fun s f rest => step_command, fun s t w ht hip hs hl h => ?_, fun s t ht hip hs hr h => ?_,
    fun m a b => rfl, by decide⟩
  · obtain rfl := next_inj.mp ((step_traps ht hip hs hl).symm.trans h)
    obtain ⟨hb, hf, -⟩ := ht
    exact ⟨hb, hf, rfl, rfl⟩
  · obtain rfl := next_inj.mp ((step_pauses ht hip hs hr).symm.trans h)
    obtain ⟨hb, hf, -⟩ := ht
    exact ⟨hb, hf, hr, rfl⟩

/-- The words from address 0 up, without the zeros at the top. -/
theorem nonzeroPart_eq (n : Nat) (m : Memory) :
    nonzeroPart n m = ((List.range n).map m.read).rdropWhile fun w => w == 0 := rfl

theorem nonzeroPart_prefix (n : Nat) (m : Memory) : nonzeroPart n m <+: (List.range n).map m.read :=
  List.rdropWhile_prefix _ _

theorem length_nonzeroPart_le (n : Nat) (m : Memory) : (nonzeroPart n m).length ≤ n := by
  simpa using (nonzeroPart_prefix n m).length_le

theorem getElem?_nonzeroPart {n a : Nat} {m : Memory} (h : a < (nonzeroPart n m).length) :
    (nonzeroPart n m)[a]? = some (m.read a) := by
  have ha : a < n := h.trans_le (length_nonzeroPart_le n m)
  rw [List.getElem?_eq_getElem h, (nonzeroPart_prefix n m).getElem h]
  simp

theorem getLast?_nonzeroPart {n : Nat} {m : Memory} (h : (nonzeroPart n m).getLast? = some w) : w ≠ 0 := by
  obtain ⟨hne, rfl⟩ := List.mem_getLast?_eq_getLast h
  exact fun hz => List.rdropWhile_last_not (fun w => w == 0) ((List.range n).map m.read) hne (beq_iff_eq.mpr hz)

/-- What is dropped is what `rtakeWhile` takes, all of it zero. -/
theorem read_of_length_nonzeroPart_le {n a : Nat} {m : Memory} (ha : a < n) (h : (nonzeroPart n m).length ≤ a) :
    m.read a = 0 := by
  have hsplit := List.rdropWhile_append_rtakeWhile (p := fun w => w == 0) (l := (List.range n).map m.read)
  rw [← nonzeroPart_eq] at hsplit
  have hget : ((List.range n).map m.read)[a]? = some (m.read a) := by simp [ha]
  rw [← hsplit, List.getElem?_append_right h] at hget
  simpa using List.mem_rtakeWhile_imp (List.mem_of_getElem? hget)

/-- Settles O50: the list is RAM without the zeros at its top. -/
theorem dumpShowsNonzeroPart : Obligations.DumpShowsNonzeroPart := by
  unfold Obligations.DumpShowsNonzeroPart
  intro s f rest hp hc
  exact ⟨nonzeroPart s.cfg.ramLen s.mem, step_command hp hc, length_nonzeroPart_le _ _,
    fun a => getElem?_nonzeroPart, fun w => getLast?_nonzeroPart, fun a => read_of_length_nonzeroPart_le⟩

/-! ### The plain build as a run without pauses (R140 (e), R141) -/

/-- No instruction sees the build. -/
theorem unseen_asPlain : Unseen asPlain where
  regs _ := rfl
  ip _ := rfl
  mem _ := rfl
  ramLen _ := rfl
  wordBits _ := rfl
  setReg _ _ _ := rfl
  emit _ _ := rfl
  raise _ _ _ := rfl
  advance _ := rfl
  jump _ _ := rfl
  store _ _ := rfl
  halt _ := rfl

/-- A change that dispatch does not see either is carried through `Execute`. -/
theorem Unseen.execute {g : State → State} (hg : Unseen g) (hd : instrOf (g s).cfg f = instrOf s.cfg f) :
    execute f (g s) = mapNext g (execute f s) := by
  cases hi : instrOf s.cfg f with
  | none => exact (execute_of_none (hd.trans hi)).trans (execute_of_none hi ▸ hg.executeFault .unknownOpcode s)
  | some i =>
    by_cases hb : i = .brk
    · have hi : instrOf s.cfg f = some .brk := hb ▸ hi
      exact (execute_of_brk (hd.trans hi)).trans (execute_of_brk hi ▸ hg.executeFault .unknownOpcode s)
    · rw [execute_of_some hi hb, execute_of_some (hd.trans hi) hb]
      exact hg.exec hb s

/-- Dispatch looks at the codes, which both builds share. -/
theorem execute_asPlain (f : Fields) (s : State) : execute f (asPlain s) = mapNext asPlain (execute f s) :=
  unseen_asPlain.execute rfl

/-- Away from a sentinel the two builds take the same step in RUNNING. -/
theorem step_asPlain (ht : s.atTop) (hr : s.runState = .running)
    (hs : s.ip < s.cfg.ramLen → hasSentinel s s.ip = false) : step (asPlain s) = mapNext asPlain (step s) := by
  have hp : (asPlain s).plainReady := ⟨rfl, ht.2.1, hr⟩
  rcases Nat.lt_or_ge s.ip s.cfg.ramLen with hip | hip
  · rw [step_runs ht hip (hs hip) hr, step_plain_of_lt hp hip]
    exact execute_asPlain _ s
  · rw [step_of_ramLen_le_ip (.inr ht) hip, step_of_ramLen_le_ip (.inl hp) hip]
    rfl

/-- Settles O46: the first prompt holds the word at address 0, and `Run` hands it to `Execute` in the plain build's
launch state but for the build. -/
theorem plainBuildIsDebuggerRun : Obligations.PlainBuildIsDebuggerRun := by
  unfold Obligations.PlainBuildIsDebuggerRun
  refine ⟨fun s => step_asPlain, fun c numReg program rest hlen hs => ?_⟩
  have hread : (memoryOf 0 program).read 0 = program.getD 0 0 := memoryOf_read program 0 0
  have htop : (launch { c with build := .debugger } numReg program (.run :: rest)).atTop := ⟨rfl, rfl, .inr ⟨rfl, rfl⟩⟩
  have hplain : (launch { c with build := .plain } numReg program rest).plainReady := ⟨rfl, rfl, rfl⟩
  refine ⟨_, step_pauses htop hlen ((congrArg (isSentinel c) hread).trans hs) rfl, ?_⟩
  rw [step_run ⟨rfl, rfl, rfl, rfl⟩ rfl, ← execute_asPlain, step_plain_of_lt hplain hlen]
  rfl

end Sys2Proof.Machine

/-! SUPPORT. Faults (60_exceptions.md R162, R163): where in a step a fault is raised, and what the step has written by
then. -/

namespace Sys2Proof.Machine

variable {s t u : State} {f : Fields}

/-! ### Where in a step a fault is raised -/

/-- The run loop of the debugger build is at a sentinel (R131, R140). -/
def State.atSentinel (s : State) : Prop := s.atTop ∧ isSentinel s.cfg (s.mem.read s.ip) = true

/-- What a faulting step has done: nothing before the fetch or at a sentinel, and the advance inside `Execute`. -/
inductive FaultCase (s : State) : State → Prop where
  /-- The fetch is out of range. -/
  | inFetch (hip : s.cfg.ramLen ≤ s.ip) : FaultCase s (raise .ipOutOfBounds s.ip s)
  /-- The sentinel has no table entry. -/
  | atSentinel (hs : s.atSentinel) (hl : lookupCell s.breaks s.ip = none) : FaultCase s (raise .unknownOpcode s.ip s)
  /-- `Execute`, entered in `u` away from a sentinel, finds no operation or fails a check. -/
  | inExecute (k : FaultKind) {u : State} (hk : k ≠ .ipOutOfBounds) (hs : ¬s.atSentinel) (hu : HandsOver s u) :
      FaultCase s (raise k u.ip (advance u))

theorem not_atSentinel_of_runs
    (h : s.plainReady ∨ s.atTop ∧ s.runState = .running ∧ isSentinel s.cfg (s.mem.read s.ip) = false) :
    ¬s.atSentinel := by
  rintro ⟨⟨hb, -⟩, hs⟩
  rcases h with ⟨hb', -⟩ | ⟨-, -, hs'⟩
  · simp [hb] at hb'
  · simp [hs] at hs'

theorem not_atSentinel_of_pausedWith (hp : s.pausedWith f) : ¬s.atSentinel :=
  fun ⟨ht, _⟩ => not_pausedWith (.inr ht) hp

/-- An instruction that has its effect raises no fault, so a fault of `Execute` is one of its own. -/
theorem faultCase_of_execute (hu : HandsOver s u) (hs : ¬s.atSentinel) (h : execute f u = .next t)
    (ht : t.fault ≠ s.fault) : FaultCase s t := by
  rcases execute_cases h with ⟨k, hk, rfl⟩ | ⟨i, -, -, he⟩
  · exact .inExecute k hk hs hu
  · obtain ⟨-, -, -, -, huf, -⟩ := hu.frame
    obtain ⟨-, hf, -⟩ := he.frame
    exact absurd (hf.trans huf) ht

/-- Of the commands only the two that resume can fault (R142). -/
theorem resumes_of_command_fault {c : Command} (h : command c f s = .next t) (ht : t.fault ≠ s.fault) :
    c = .step ∧ execute f (resume .stepping s) = .next t ∨ c = .run ∧ execute f (resume .running s) = .next t := by
  rcases command_next h with ⟨-, rfl⟩ | h | h | ⟨b, -, rfl⟩ | ⟨b, -, rfl⟩ | ⟨-, rfl⟩ | ⟨r, rfl, -⟩
  · exact absurd rfl ht
  · exact .inl h
  · exact .inr h
  · obtain ⟨m, tbl, r, e⟩ := commandSetBreak_frame b s
    exact absurd (by rw [e]) ht
  · obtain ⟨m, tbl, r, e⟩ := commandClearBreak_frame b s
    exact absurd (by rw [e]) ht
  · exact absurd rfl ht
  · exact absurd rfl ht

theorem StepCase.faultCase (h : StepCase s t) (ht : t.fault ≠ s.fault) : FaultCase s t := by
  cases h with
  | outOfRange h hip => exact .inFetch hip
  | runs h hip he =>
    exact faultCase_of_execute (.running (h.imp_right fun ⟨ht, hr, _⟩ => ⟨ht, hr⟩)) (not_atSentinel_of_runs h) he ht
  | sentinel h hip hs he =>
    rcases execBrk_cases h.1 he with ⟨w, -, rfl⟩ | ⟨hl, rfl⟩
    · exact absurd rfl ht
    · exact .atSentinel ⟨h, hs⟩ hl
  | pauses h hr hip hs => exact absurd rfl ht
  | reads f c rest hp hc he =>
    rcases resumes_of_command_fault he ht with ⟨rfl, he⟩ | ⟨rfl, he⟩
    · exact faultCase_of_execute (.step hp hc) (not_atSentinel_of_pausedWith hp) he ht
    · exact faultCase_of_execute (.run hp hc) (not_atSentinel_of_pausedWith hp) he ht

/-- A step starts with the latch empty, so a latch that is set after it is set by it. -/
theorem faultCase_of_step (h : step s = .next t) (ht : t.fault ≠ none) : FaultCase s t :=
  (step_next h).faultCase (fault_eq_none_of_step h ▸ ht)

/-! ### The claims -/

/-- Settles O25: the fault is raised in the state the step began in, or in that in which `Execute` was entered. -/
theorem faultsArePrecise : Obligations.FaultsArePrecise := by
  unfold Obligations.FaultsArePrecise
  intro s t h ht
  cases faultCase_of_step h ht with
  | inFetch hip => exact ⟨rfl, rfl, rfl, rfl⟩
  | atSentinel hs hl => exact ⟨rfl, rfl, rfl, rfl⟩
  | inExecute k hk hs hu =>
    obtain ⟨-, hregs, -, hmem, -, hbreaks, hout, -⟩ := hu.frame
    exact ⟨hregs, hmem, hout, hbreaks⟩

/-- Settles O26: only `Execute` advances `ip`, its faults are not `IpOutOfBounds`, and at a sentinel of the run loop
it is not entered. -/
theorem instructionPointerAfterFault : Obligations.InstructionPointerAfterFault := by
  unfold Obligations.InstructionPointerAfterFault
  intro s t r h hr
  cases faultCase_of_step h (hr ▸ nofun) with
  | inFetch hip =>
    cases hr
    exact ⟨rfl, fun _ => rfl, nofun, nofun⟩
  | atSentinel hs hl =>
    cases hr
    exact ⟨rfl, nofun, nofun, fun _ => ⟨fun _ => rfl, fun hn => absurd hs hn⟩⟩
  | inExecute k hk hs hu =>
    cases hr
    obtain ⟨-, -, hip, -⟩ := hu.frame
    exact ⟨hip, fun h => absurd h hk, fun _ => rfl, fun _ => ⟨fun h => absurd h hs, fun _ => rfl⟩⟩

end Sys2Proof.Machine

/-! SUPPORT. Reset and the ends of a launch (70_reset_and_hazards.md): what a load leaves, what the empty program does
first, and the two ways a launch ends. -/

namespace Sys2Proof.Machine

variable {s t : State} {c : Config} {f : Fields} {numReg : Nat} {cmds : List Command}

/-! ### How a launch ends (R201) -/

theorem step_ne_next_of_ended (h : s.ended) : step s ≠ .next t := by
  rcases h with hf | hr
  · exact fun hs => hf (fault_eq_none_of_step hs)
  · exact step_ne_next_of_finished hr

/-- The plain build in STEPPING is the one stop that is neither an end nor a wait, and the invariant excludes it. -/
theorem State.Inv.steps_or_waits (hinv : s.Inv) (hend : ¬s.ended) :
    (∃ t, step s = .next t) ∨ ∃ f, s.pausedWith f ∧ s.cmds = [] ∧ ∀ t, step s ≠ .next t := by
  cases s.kind with
  | latched r hf => exact absurd (.inl (hf ▸ nofun)) hend
  | finished hf hr => exact absurd (.inr hr) hend
  | plainStepping hf hr hb =>
    obtain ⟨hrun, -⟩ := hinv.plain hb
    exact absurd hr hrun
  | awaiting f hp hc => exact .inr ⟨f, hp, hc, fun t => step_awaiting hp hc ▸ nofun⟩
  | enabled h => exact .inl h.answers

theorem ip_of_execute_hlt (hi : instrOf s.cfg f = some .hlt) (h : execute f s = .next t) : t.ip = s.ip + 1 :=
  next_inj.mp ((execute_of_some hi nofun).symm.trans h) ▸ rfl

/-- A sentinel traps or faults, and neither is an end of the run. -/
theorem runState_ne_finished_of_execBrk (ht : s.atTop) (h : execBrk s = .next t) : t.runState ≠ .finished := by
  rcases execBrk_cases ht.1 h with ⟨w, -, rfl⟩ | ⟨-, rfl⟩
  · nofun
  · exact (State.Enabled.iteration ht).runState_ne_finished

/-- The codes may clash here, so that a sentinel can read as `hlt`; the run loop does not execute it then. -/
theorem ip_of_hlt_step (hx : s.executing = some .hlt) (h : step s = .next t) (hfin : t.runState = .finished) :
    t.ip = s.ip + 1 := by
  rcases executing_eq_some hx with ⟨hrun, hi⟩ | ⟨f, k, rest, hp, hc, hk, hi⟩
  · have hip := lt_ramLen_of_instrAtIp hi
    rw [instrAtIp_of_lt hip] at hi
    rcases hrun with hp | ⟨htop, hr⟩
    · exact ip_of_execute_hlt hi ((step_plain_of_lt hp hip).symm.trans h)
    · cases hs : hasSentinel s s.ip with
      | false => exact ip_of_execute_hlt hi ((step_runs htop hip hs hr).symm.trans h)
      | true => exact absurd hfin (runState_ne_finished_of_execBrk htop ((step_at_sentinel htop hip hs).symm.trans h))
  · rcases hk with rfl | rfl
    · exact ip_of_execute_hlt (s := { s with cmds := rest, ir := none }) hi ((step_step hp hc).symm.trans h)
    · exact ip_of_execute_hlt (s := { s with cmds := rest, ir := none, runState := .running }) hi
        ((step_run hp hc).symm.trans h)

/-- Settles O28: the only transitions to FINISHED are those of `hlt` and of the two commands that quit, and every state
of a launch is ended, waiting or enabled. -/
theorem launchEndsInOneOfTwoWays : Obligations.LaunchEndsInOneOfTwoWays := by
  unfold Obligations.LaunchEndsInOneOfTwoWays
  refine ⟨fun s t => step_ne_next_of_ended, fun s hinv ⟨hf, hr⟩ => hinv.ending hf hr, fun s t h hfin => ⟨?_, ?_⟩,
    fun s => State.Inv.steps_or_waits⟩
  · exact not_not.mp fun hf => runState_ne_finished_of_fault h hf hfin
  · have hrun : s.runState ≠ .finished := fun hr => step_ne_next_of_finished hr h
    rcases (step_next h).transition.to_finished hrun hfin with hx | ⟨f, rest, hp, hc⟩
    · exact .inl ⟨hx, ip_of_hlt_step hx h hfin⟩
    · exact .inr ⟨f, rest, hp, hc, next_inj.mp ((step_quit hp hc).symm.trans h) ▸ rfl⟩

/-! ### What a load leaves (R190, R191) -/

/-- RAM after a load: the program from address 0 up, and 0 above it. -/
theorem launch_read (c : Config) (numReg : Nat) (program : List Nat) (cmds : List Command) (a : Nat) :
    (launch c numReg program cmds).mem.read a = program.getD a 0 := by
  simpa [launch] using memoryOf_read program 0 a

/-- Settles O52: a program that fits gives its launch state, whose elements are read off. -/
theorem loadGivesResetValues : Obligations.LoadGivesResetValues := by
  unfold Obligations.LoadGivesResetValues
  refine ⟨fun s program hlen hwords => ⟨_, loadProgram_of_words hlen hwords, fun a w hw => ?_, fun a ha => ?_, rfl,
    List.length_replicate, fun w => List.eq_of_mem_replicate, ?_, rfl, rfl, rfl, rfl, rfl⟩, rfl⟩
  · rw [launch_read, List.getD_eq_getElem?_getD, hw, Option.getD_some]
  · rw [launch_read, List.getD_eq_default _ _ ha]
  · change initialRunState s.cfg.build = _
    cases s.cfg.build <;> rfl

/-! ### The first fetch of the empty program (R191) -/

/-- The word 0 is of no row: its opcode field is 0, and codes are positive. -/
theorem instrOf_word_zero (hc : c.codesOk = true) : instrOf c (decodeFields c 0) = none := by
  simp [instrOf, decodeFields, mnemonicOf_zero hc]

theorem isSentinel_word_zero (hc : c.codesOk = true) : isSentinel c 0 = false :=
  Bool.eq_false_iff.mpr fun h => by simp [isSentinel_iff hc, instrOf_word_zero hc] at h

theorem step_launch_nil_plain (hc : c.wf = true) (hb : c.build = .plain) :
    step (launch c numReg [] cmds) = .next (faulted .unknownOpcode (launch c numReg [] cmds)) := by
  have hready : (launch c numReg [] cmds).plainReady := ⟨hb, rfl, congrArg initialRunState hb⟩
  obtain ⟨-, -, hram, -⟩ := Config.bounds_of_wf hc
  exact (step_plain_of_lt hready hram).trans (execute_of_none (instrOf_word_zero (Config.codesOk_of_wf hc)))

/-- The debugger build pauses at address 0 with the triple of the word 0, and does not execute it yet. -/
theorem step_launch_nil_debugger (hc : c.wf = true) (hb : c.build = .debugger) :
    step (launch c numReg [] cmds) = .next (pause (decodeFields c 0) (launch c numReg [] cmds)) := by
  have hr : (launch c numReg [] cmds).runState = .stepping := congrArg initialRunState hb
  have htop : (launch c numReg [] cmds).atTop := ⟨hb, rfl, .inr ⟨hr, rfl⟩⟩
  obtain ⟨-, -, hram, -⟩ := Config.bounds_of_wf hc
  exact step_pauses htop hram (isSentinel_word_zero (Config.codesOk_of_wf hc)) hr

/-- Settles O53: the loader decides on the length; the empty program's word at address 0 is 0, which no operation
has, and `Step` hands it to `Execute`. -/
theorem longProgramIsRefused : Obligations.LongProgramIsRefused := by
  unfold Obligations.LongProgramIsRefused
  refine ⟨fun s program => loadProgram_of_long,
    fun s program hlen hwords => ⟨_, loadProgram_of_words hlen.le hwords, fun a ha => ?_⟩, fun s t hwf hb h => ?_,
    fun s t rest hwf hb h hcmds => ?_⟩
  · rw [launch_read, List.getD_eq_getElem _ _ (hlen ▸ ha), List.getElem?_eq_getElem]
  · obtain ⟨-, -, rfl⟩ := loadProgram_next h
    exact step_launch_nil_plain hwf hb
  · obtain ⟨-, -, rfl⟩ := loadProgram_next h
    refine ⟨_, step_launch_nil_debugger hwf hb, ?_⟩
    have hp : (pause (decodeFields s.cfg 0) (launch s.cfg s.numReg [] s.cmds)).pausedWith (decodeFields s.cfg 0) :=
      ⟨hb, rfl, congrArg initialRunState hb, rfl⟩
    exact (step_step hp hcmds).trans (execute_of_none (instrOf_word_zero (Config.codesOk_of_wf hwf)))

end Sys2Proof.Machine

/-! SUPPORT. The machine's invariant (10_state.md section 1): every launch meets it and every step keeps it. -/

namespace Sys2Proof.Machine

variable {s t : State} {c : Config} {f : Fields} {i : Instr} {a b v w : Nat}

/-! ### Triples that a pause may hold -/

/-- A triple that the latch `ir` may hold: three fields, and not the sentinel's (R21, R140). -/
def Holdable (c : Config) (f : Fields) : Prop := f.fits c ∧ f.op ≠ opcode c .brk

theorem holdable_decodeFields (h : isSentinel c w = false) : Holdable c (decodeFields c w) :=
  ⟨decodeFields_fits c w, by simpa [isSentinel] using h⟩

/-! ### What the invariant says of one place in the state -/

theorem State.Inv.read_lt (h : s.Inv) (a : Nat) : s.mem.read a < 2 ^ s.cfg.wordBits := by
  obtain ⟨-, hmem, -⟩ := h.words
  exact Memory.read_lt (Nat.two_pow_pos _) hmem a

theorem State.Inv.reg_lt (h : s.Inv) (hv : s.regs[a]? = some v) : v < 2 ^ s.cfg.wordBits := by
  obtain ⟨hregs, -⟩ := h.words
  exact hregs v (List.mem_of_getElem? hv)

theorem State.Inv.holdable_of_pausedWith (h : s.Inv) (hp : s.pausedWith f) :
    s.ip < s.cfg.ramLen ∧ Holdable s.cfg f := by
  obtain ⟨-, -, -, hi⟩ := hp
  obtain ⟨-, -, -, hip, hop, h0, h1, hb⟩ := h.ir f hi
  exact ⟨hip, ⟨hop, h0, h1⟩, hb⟩

/-- The latch is live in a pause only. -/
theorem State.Inv.ir_eq_none (h : s.Inv) (ht : s.plainReady ∨ s.atTop) : s.ir = none := by
  cases hi : s.ir with
  | none => rfl
  | some f =>
    obtain ⟨hb, hr, hf, -⟩ := h.ir f hi
    exact absurd ⟨hb, hf, hr, hi⟩ (not_pausedWith ht)

/-! ### The parts of the invariant after a write -/

theorem State.memOk.write (h : s.memOk) (ha : a < s.cfg.ramLen) (v : Nat) :
    State.memOk { s with mem := s.mem.write a v } :=
  ⟨Memory.wf_write h.1 a v, Memory.below_write h.2 ha v⟩

theorem State.wordsOk.write (h : s.wordsOk) (a : Nat) (hv : v < 2 ^ s.cfg.wordBits) :
    State.wordsOk { s with mem := s.mem.write a v } := by
  obtain ⟨hregs, hmem, hbreaks, hout⟩ := h
  exact ⟨hregs, Memory.words_write hmem a hv, hbreaks, hout⟩

theorem State.wordsOk.setReg (h : s.wordsOk) (a : Nat) (hv : v < 2 ^ s.cfg.wordBits) :
    (setReg a v s).wordsOk := by
  obtain ⟨hregs, hmem, hbreaks, hout⟩ := h
  refine ⟨fun w hw => ?_, hmem, hbreaks, hout⟩
  rcases List.mem_or_eq_of_mem_set hw with hw | rfl
  · exact hregs w hw
  · exact hv

theorem State.wordsOk.emit (h : s.wordsOk) (hv : v < 2 ^ s.cfg.wordBits) : (emit v s).wordsOk := by
  obtain ⟨hregs, hmem, hbreaks, hout⟩ := h
  refine ⟨hregs, hmem, hbreaks, fun w hw => ?_⟩
  rcases List.mem_append.mp hw with hw | hw
  · exact hout w hw
  · exact List.mem_singleton.mp hw ▸ hv

/-! ### Kinds of change that keep the invariant -/

/-- A change of the debugger's control state, where what is held may be held. -/
theorem State.Inv.control (h : s.Inv) (hb : s.cfg.build = .debugger) (hf : s.fault = none) {r : RunState}
    {o : Option Fields} {cmds : List Command} {rsp : List Response}
    (ho : ∀ f, o = some f → r = .stepping ∧ s.ip < s.cfg.ramLen ∧ Holdable s.cfg f) :
    State.Inv { s with runState := r, ir := o, cmds := cmds, rsp := rsp } where
  params := h.params
  words := h.words
  mem := h.mem
  breaks := h.breaks
  ip := h.ip
  ir f hi := by
    obtain ⟨hr, hip, ⟨hop, h0, h1⟩, hs⟩ := ho f hi
    exact ⟨hb, hr, hf, hip, hop, h0, h1, hs⟩
  plain hp := absurd (hb.symm.trans hp) nofun
  fault := h.fault
  ending hn := absurd hf hn

/-- A word stored in RAM and another breakpoint table, in the debugger build. -/
theorem State.Inv.patch (h : s.Inv) (hd : s.cfg.build = .debugger) (hb : b < s.cfg.ramLen)
    (hw : w < 2 ^ s.cfg.wordBits) {tbl : BreakTable} (hk : State.breaksOk { s with breaks := tbl })
    (hwords : ∀ c ∈ tbl, c.2 < 2 ^ s.cfg.wordBits) :
    State.Inv { s with breaks := tbl, mem := s.mem.write b w } where
  params := h.params
  words := by
    obtain ⟨hregs, hmem, -, hout⟩ := h.words.write b hw
    exact ⟨hregs, hmem, hwords, hout⟩
  mem := h.mem.write hb w
  breaks := hk
  ip := h.ip
  ir := h.ir
  plain hp := absurd (hd.symm.trans hp) nofun
  fault := h.fault
  ending := h.ending

/-- A fault raised outside a pause, with `ip` where the kind of fault wants it. -/
theorem State.Inv.raise (h : s.Inv) (hi : s.ir = none) (hr : s.runState ≠ .finished) {k : FaultKind}
    (hip : State.ipOk { s with ip := a }) (hk : State.faultOk { s with ip := a, fault := some ⟨k, s.ip⟩ }) :
    State.Inv { s with ip := a, fault := some ⟨k, s.ip⟩ } where
  params := h.params
  words := h.words
  mem := h.mem
  breaks := h.breaks
  ip := hip
  ir _ hf := absurd (hi.symm.trans hf) nofun
  plain := h.plain
  fault := hk
  ending _ := hr

/-! ### `Execute` -/

/-- The invariant, with what holds besides where `Execute` is entered: `ip` in range and the core in no pause, not
faulted and not finished (R80, R81, R140). -/
structure State.EntersExecute (s : State) : Prop where
  inv : s.Inv
  ip : s.ip < s.cfg.ramLen
  ir : s.ir = none
  fault : s.fault = none
  runState : s.runState ≠ .finished

theorem State.EntersExecute.succ_ip_le (h : s.EntersExecute) :
    s.ip + 1 ≤ max s.cfg.ramLen (2 ^ s.cfg.opShift - 1) := le_max_of_le_left h.ip

/-- The faults of `Execute` record the address of the instruction and leave `ip` one past it (R163). -/
theorem State.EntersExecute.fault_inv (h : s.EntersExecute) {k : FaultKind} (hk : k ≠ .ipOutOfBounds) :
    State.Inv (raise k s.ip (advance s)) := by
  refine h.inv.raise h.ir h.runState h.succ_ip_le fun r hr => ?_
  obtain rfl := Option.some.inj hr
  cases k with
  | ipOutOfBounds => exact absurd rfl hk
  | invalidRegister => exact ⟨rfl, h.ip⟩
  | invalidAddress => exact ⟨rfl, h.ip⟩
  | unknownOpcode => exact ⟨.inl rfl, h.ip⟩

theorem lt_of_fieldOk (h : fieldOk c v = true) : v < 2 ^ c.opShift := of_decide_eq_true h

/-- The values written are words: those of registers and RAM are, the two sums are reduced, and a field fits in a
word. -/
theorem Effect.wordsOk (he : Effect i s t) (h : s.Inv) (hi : i.fits s.cfg = true) : t.wordsOk := by
  cases he with
  | writesReg d v hd hv =>
    refine State.wordsOk.setReg (s := advance s) h.words d ?_
    rcases hv with ⟨x, rfl, hvx⟩ | ⟨r, addr, -, -, -, rfl⟩ | ⟨r, -, hr⟩ | ⟨r, p, q, -, -, -, rfl⟩ |
      ⟨r, p, q, -, -, -, rfl⟩
    · have hx : x < 2 ^ s.cfg.opShift := lt_of_fieldOk (Bool.and_eq_true_iff.mp hi).2
      rw [hvx, valueOperand_eq]
      exact hx.trans_le (Nat.pow_le_pow_right (by decide) (Config.opShift_le_wordBits h.params.1))
    · exact h.read_lt addr
    · exact h.reg_lt hr
    · exact addWord_lt s.cfg p q
    · exact subWord_lt s.cfg p q
  | stores v r val addr _ hv hr ha => exact h.words.write addr (h.reg_lt hv)
  | taken => exact h.words
  | notTaken => exact h.words
  | prints r v w hr hv =>
    refine State.wordsOk.emit (s := advance s) h.words ?_
    rcases hv with ⟨-, rfl⟩ | ⟨-, -, rfl⟩
    · exact h.reg_lt hr
    · exact h.read_lt v
  | halts => exact h.words

theorem Effect.memOk (he : Effect i s t) (h : s.memOk) : t.memOk := by
  cases he with
  | stores v r val addr _ hv hr ha => exact h.write ha val
  | _ => exact h

/-- `ip` advances from inside RAM, or is the target of a branch, which is a field (R112). -/
theorem Effect.ipOk (he : Effect i s t) (h : s.EntersExecute) (hi : i.fits s.cfg = true) : t.ipOk := by
  cases he with
  | taken r target v hr hb =>
    have htarget : target < 2 ^ s.cfg.opShift := by
      rcases hb with ⟨rfl, -⟩ | ⟨rfl, -⟩ <;> exact lt_of_fieldOk (Bool.and_eq_true_iff.mp hi).2
    exact le_max_of_le_right (Nat.le_sub_one_of_lt htarget)
  | _ => exact h.succ_ip_le

theorem Effect.inv (he : Effect i s t) (h : s.EntersExecute) (hi : i.fits s.cfg = true) : t.Inv := by
  obtain ⟨hcfg, hfault, hbreaks, hir, -, -, hnum⟩ := he.frame
  have hlatch : t.fault = none := hfault.trans h.fault
  exact {
    params := by rw [State.paramsOk, hcfg, hnum]; exact h.inv.params
    words := he.wordsOk h.inv hi
    mem := he.memOk h.inv.mem
    breaks := by rw [State.breaksOk, hcfg, hbreaks]; exact h.inv.breaks
    ip := he.ipOk h hi
    ir := fun f hf => absurd (h.ir.symm.trans (hir.symm.trans hf)) nofun
    plain := fun hb => by
      obtain ⟨hr, hnil⟩ := h.inv.plain (hcfg ▸ hb)
      refine ⟨?_, hbreaks.trans hnil⟩
      rcases he.runState with ⟨-, ht⟩ | ⟨-, ht⟩
      · rw [ht]; nofun
      · rwa [ht]
    fault := fun r hr => absurd (hlatch.symm.trans hr) nofun
    ending := fun hn => absurd hlatch hn }

theorem State.EntersExecute.execute_inv (h : s.EntersExecute) (hf : f.fits s.cfg) (hx : execute f s = .next t) :
    t.Inv := by
  rcases execute_cases hx with ⟨k, hk, rfl⟩ | ⟨i, -, hi, he⟩
  · exact h.fault_inv hk
  · exact he.inv h (fits_of_instrOf hf hi)

/-! ### Set and clear -/

/-- Set saves the word of RAM, which is no sentinel, and stores the sentinel, which is a word. -/
theorem State.Inv.setBreakpoint (h : s.Inv) (hd : s.cfg.build = .debugger) (hb : b < s.cfg.ramLen) :
    (setBreakpoint b s).Inv := by
  obtain ⟨hrising, hbelow, horig⟩ := h.breaks
  obtain ⟨-, -, hwords, -⟩ := h.words
  have hsaved := fun c w => isSentinel_saved_setBreakpoint (b := b) (c := c) (w := w) horig
  cases hs : hasSentinel s b with
  | true => rwa [setBreakpoint_of_true hs]
  | false =>
    rw [setBreakpoint_of_false hs] at hsaved ⊢
    refine h.patch hd hb (sentinel_lt h.params.1)
      ⟨cellsRising_insertCell hrising b _, cellsBelow_insertCell hbelow hb _, hsaved⟩ fun c hc => ?_
    rcases mem_insertCell hc with rfl | hc
    · exact h.read_lt b
    · exact hwords c hc

/-- Clear stores a saved original, which is a word, and drops its entry. -/
theorem State.Inv.clearBreakpoint (h : s.Inv) (hd : s.cfg.build = .debugger) (hb : b < s.cfg.ramLen) :
    (clearBreakpoint b s).Inv := by
  obtain ⟨hrising, hbelow, horig⟩ := h.breaks
  obtain ⟨-, -, hwords, -⟩ := h.words
  have hsaved := fun c w => isSentinel_saved_clearBreakpoint (b := b) (c := c) (w := w) horig
  cases hs : hasSentinel s b with
  | false => rwa [clearBreakpoint_of_false hs]
  | true =>
    cases hl : lookupCell s.breaks b with
    | none => rwa [clearBreakpoint_of_none hl]
    | some w =>
      rw [clearBreakpoint_of_some hs hl] at hsaved ⊢
      exact h.patch hd hb (hwords _ (mem_of_lookupCell hl))
        ⟨cellsRising_eraseCell hrising b, cellsBelow_eraseCell hbelow b, hsaved⟩
        fun c hc => hwords c (List.mem_of_mem_filter hc)

/-! ### Steps -/

/-- Resuming leaves no pause to hold an instruction for. -/
theorem State.Inv.resume (h : s.Inv) (hp : s.pausedWith f) (r : RunState) : (resume r s).Inv := by
  obtain ⟨hb, hf, -⟩ := hp
  exact h.control hb hf nofun

theorem State.Inv.respond (h : s.Inv) (hp : s.pausedWith f) (r : Response) : (respond r s).Inv := by
  obtain ⟨hb, hf, hr, hi⟩ := hp
  exact h.control hb hf fun g hg => ⟨hr, h.holdable_of_pausedWith ⟨hb, hf, hr, hg⟩⟩

/-- `Step` and `Run` enter `Execute` with the pause left (R142). -/
theorem State.Inv.entersExecute_resume (h : s.Inv) (hp : s.pausedWith f) {r : RunState} (hr : r ≠ .finished) :
    (Machine.resume r s).EntersExecute := by
  obtain ⟨hip, -⟩ := h.holdable_of_pausedWith hp
  have ⟨_, hf, _⟩ := hp
  exact ⟨h.resume hp r, hip, rfl, hf, hr⟩

theorem State.Inv.command {k : Command} (h : s.Inv) (hp : s.pausedWith f) (hx : command k f s = .next t) : t.Inv := by
  have hd : s.cfg.build = .debugger := hp.1
  obtain ⟨-, hfits, -⟩ := h.holdable_of_pausedWith hp
  rcases command_next hx with ⟨-, rfl⟩ | ⟨-, hx⟩ | ⟨-, hx⟩ | ⟨b, -, rfl⟩ | ⟨b, -, rfl⟩ | ⟨-, rfl⟩ | ⟨r, rfl, -⟩
  · exact h.resume hp _
  · exact (h.entersExecute_resume hp (r := .stepping) nofun).execute_inv hfits hx
  · exact (h.entersExecute_resume hp (r := .running) nofun).execute_inv hfits hx
  · rw [commandSetBreak]
    split
    · exact h.setBreakpoint hd ‹_›
    · exact h.respond hp _
  · rw [commandClearBreak]
    split
    · exact h.clearBreakpoint hd ‹_›
    · exact h.respond hp _
  · exact h
  · exact h.respond hp r

/-- At a sentinel the trap holds a saved original, which is not the sentinel (R134 (e), R167); without an entry the
fault leaves `ip` (R136). -/
theorem State.Inv.execBrk (h : s.Inv) (ht : s.atTop) (hip : s.ip < s.cfg.ramLen) (hx : execBrk s = .next t) :
    t.Inv := by
  have ⟨hb, hfault, _⟩ := ht
  rcases execBrk_cases hb hx with ⟨w, hl, rfl⟩ | ⟨-, rfl⟩
  · obtain ⟨-, -, horig⟩ := h.breaks
    refine h.control hb hfault fun f hf => ⟨rfl, hip, ?_⟩
    exact Option.some.inj hf ▸ holdable_decodeFields (horig _ _ hl)
  · refine h.raise (h.ir_eq_none (.inr ht)) (State.Enabled.iteration ht).runState_ne_finished h.ip fun r hr => ?_
    obtain rfl := Option.some.inj hr
    exact ⟨.inr ⟨hb, rfl⟩, hip⟩

theorem StepCase.inv (hstep : StepCase s t) (h : s.Inv) : t.Inv := by
  cases hstep with
  | outOfRange hs hip =>
    have hr : s.runState ≠ .finished := (hs.elim State.Enabled.cycle State.Enabled.iteration).runState_ne_finished
    refine h.raise (h.ir_eq_none hs) hr h.ip fun r hr => ?_
    obtain rfl := Option.some.inj hr
    exact ⟨rfl, hip⟩
  | runs hs hip hx =>
    have hs : s.plainReady ∨ s.atTop := hs.imp_right And.left
    have hen : s.Enabled := hs.elim .cycle .iteration
    obtain ⟨hf, hr, -⟩ := hen.not_stopped
    exact State.EntersExecute.execute_inv ⟨h, hip, h.ir_eq_none hs, hf, hr⟩ (decodeFields_fits _ _) hx
  | sentinel ht hip hs hx => exact h.execBrk ht hip hx
  | pauses ht hr hip hs =>
    obtain ⟨hb, hf, -⟩ := ht
    refine h.control hb hf fun f hf => ⟨hr, hip, ?_⟩
    exact Option.some.inj hf ▸ holdable_decodeFields hs
  | reads f k rest hp hc hx =>
    obtain ⟨hb, hf, hr, hi⟩ := hp
    have hu : State.Inv { s with cmds := rest } :=
      h.control hb hf fun g hg => ⟨hr, h.holdable_of_pausedWith ⟨hb, hf, hr, hg⟩⟩
    exact hu.command ⟨hb, hf, hr, hi⟩ hx

/-- Settles O55: each kind of step is one of the changes above, from a state that meets the invariant. -/
theorem stepKeepsInvariant : Obligations.StepKeepsInvariant := by
  unfold Obligations.StepKeepsInvariant
  exact fun s t h hstep => (step_next hstep).inv h

/-! ### Launches meet the invariant -/

/-- The words of the program are words, and the addresses from 0 up are below its length. -/
theorem launch_inv {c : Config} {numReg : Nat} {program : List Nat} (cmds : List Command) (hc : c.wf = true)
    (hn : numReg ≤ 2 ^ c.opShift) (hlen : program.length ≤ c.ramLen) (hwords : ∀ w ∈ program, w < 2 ^ c.wordBits) :
    (launch c numReg program cmds).Inv where
  params := ⟨hc, List.length_replicate.trans_le hn⟩
  words := ⟨fun w hw => (List.eq_of_mem_replicate hw).trans_lt (Nat.two_pow_pos _),
    fun cell h => hwords _ (memoryOf_words program 0 cell h), nofun, nofun⟩
  mem := by
    refine ⟨memoryOf_wf program 0, cellsBelow_iff.mpr fun cell h => ?_⟩
    have hcell := cellsBelow_iff.mp (memoryOf_below program 0) cell h
    change cell.1 < c.ramLen
    omega
  breaks := ⟨rfl, rfl, nofun⟩
  ip := Nat.zero_le _
  ir := nofun
  plain hb := ⟨by rw [launch, show c.build = .plain from hb]; nofun, rfl⟩
  fault := nofun
  ending h := absurd rfl h

/-- Settles O54: reset is the launch of the empty program, and a load that succeeds has tested the program. -/
theorem launchMeetsInvariant : Obligations.LaunchMeetsInvariant := by
  unfold Obligations.LaunchMeetsInvariant
  refine ⟨launch_inv (c := Config.reference) (numReg := Config.referenceNumReg) (program := []) [] Config.reference_wf
    (by decide) (by decide) nofun, fun s t program ⟨hc, hn⟩ h => ?_⟩
  obtain ⟨hlen, hwords, rfl⟩ := loadProgram_next h
  exact launch_inv s.cmds hc hn hlen hwords

end Sys2Proof.Machine

/-! SUPPORT. What a step changes and what it leaves: registers, parameters, `ip`, and the breakpoint table that no
instruction sees. -/

namespace Sys2Proof.Machine

variable {s t : State} {f : Fields} {i : Instr} {k : Nat}

/-! ### Registers (R11) -/

/-- Of the effects only a register write changes a register, and only the instruction's destination. -/
theorem Effect.destReg_of_regs_ne (h : Effect i s t) (hne : t.regs[k]? ≠ s.regs[k]?) : destReg i = some k := by
  cases h with
  | writesReg d v hd hi =>
    have hdk : d = k := by
      by_contra hdk
      exact hne (List.getElem?_set_ne hdk)
    rcases hi with ⟨w, rfl, -⟩ | ⟨r, addr, rfl, -⟩ | ⟨r, rfl, -⟩ | ⟨r, p, q, rfl, -⟩ | ⟨r, p, q, rfl, -⟩ <;>
      exact congrArg some hdk
  | _ => exact absurd rfl hne

/-- Settles O32: of the outcomes of a step only an instruction's effect reaches the registers. -/
theorem registersChangeOnlyAsDestination : Obligations.RegistersChangeOnlyAsDestination := by
  unfold Obligations.RegistersChangeOnlyAsDestination
  intro s t k h hne
  cases step_outcome h with
  | faultsBefore kind hr => exact absurd rfl hne
  | faultsInside kind hu =>
    obtain ⟨-, hregs, -⟩ := hu.frame
    exact absurd (congrArg (·[k]?) hregs) hne
  | executes i hi hu he =>
    obtain ⟨-, hregs, -⟩ := hu.frame
    exact ⟨i, k, hi, he.destReg_of_regs_ne (hregs ▸ hne), rfl⟩
  | controls hr ho hf => exact absurd (congrArg (·[k]?) hr) hne

/-! ### Parameters (R22) -/

/-- `t` has the parameters of `s`. -/
def State.SameParams (s t : State) : Prop := t.cfg = s.cfg ∧ t.numReg = s.numReg

theorem execute_sameParams (h : execute f s = .next t) : s.SameParams t := by
  rcases execute_cases h with ⟨k, -, rfl⟩ | ⟨i, -, -, he⟩
  · exact ⟨rfl, rfl⟩
  · obtain ⟨hcfg, -, -, -, -, -, hnum⟩ := he.frame
    exact ⟨hcfg, hnum⟩

theorem command_sameParams {c : Command} (h : command c f s = .next t) : s.SameParams t := by
  rcases command_next h with ⟨-, rfl⟩ | ⟨-, h⟩ | ⟨-, h⟩ | ⟨b, -, rfl⟩ | ⟨b, -, rfl⟩ | ⟨-, rfl⟩ | ⟨r, rfl, -⟩
  · exact ⟨rfl, rfl⟩
  · exact execute_sameParams (s := resume .stepping s) h
  · exact execute_sameParams (s := resume .running s) h
  · obtain ⟨m, tbl, r, e⟩ := commandSetBreak_frame b s
    exact e ▸ ⟨rfl, rfl⟩
  · obtain ⟨m, tbl, r, e⟩ := commandClearBreak_frame b s
    exact e ▸ ⟨rfl, rfl⟩
  · exact ⟨rfl, rfl⟩
  · exact ⟨rfl, rfl⟩

theorem StepCase.sameParams (h : StepCase s t) : s.SameParams t := by
  cases h with
  | outOfRange h hip => exact ⟨rfl, rfl⟩
  | runs h hip he => exact execute_sameParams he
  | sentinel h hip hs he => rcases execBrk_cases h.1 he with ⟨w, -, rfl⟩ | ⟨-, rfl⟩ <;> exact ⟨rfl, rfl⟩
  | pauses h hr hip hs => exact ⟨rfl, rfl⟩
  | reads f c rest hp hc he => exact command_sameParams (s := { s with cmds := rest }) he

/-- Settles O34: no kind of step writes `cfg` or resizes the register file. -/
theorem parametersNeverChange : Obligations.ParametersNeverChange := by
  unfold Obligations.ParametersNeverChange
  exact fun s t h => (step_next h).sameParams

/-! ### The instruction pointer (R13) -/

/-- `i` is a branch to `target` whose condition holds. -/
def State.Branches (s : State) (i : Instr) (target : Nat) : Prop :=
  ∃ r x, s.regs[r]? = some x ∧ (i = .beq r target ∧ x = 0 ∨ i = .bne r target ∧ x ≠ 0)

theorem Effect.ip_eq (h : Effect i s t) : t.ip = s.ip + 1 ∨ s.Branches i t.ip := by
  cases h with
  | taken r target v hr hi => exact .inr ⟨r, v, hr, by simpa [isZero] using hi⟩
  | _ => exact .inl rfl

theorem exec_ip (hb : i ≠ .brk) (h : exec i s = .next t) : t.ip = s.ip + 1 ∨ s.Branches i t.ip := by
  rcases exec_next hb h with ⟨k, -, rfl⟩ | he
  · exact .inl rfl
  · exact he.ip_eq

/-- `Execute` neither enters a pause nor goes on with one: it makes no transition to STEPPING and leaves `ir`. -/
theorem not_pausedWith_of_execute (hs : s.runState ≠ .stepping ∨ s.ir = none) (h : execute f s = .next t)
    (g : Fields) : ¬t.pausedWith g := by
  rintro ⟨-, -, hr, hi⟩
  obtain ⟨-, hir, -⟩ := execute_frame h
  rcases hs with hs | hs
  · rcases execute_runState h with ⟨-, ht⟩ | ⟨-, ht⟩
    · rw [ht] at hr; cases hr
    · exact hs (ht.symm.trans hr)
  · rw [hir, hs] at hi; cases hi

theorem ip_of_command_pausing {c : Command} (h : command c f s = .next t) {g : Fields} (ht : t.pausedWith g) :
    t.ip = s.ip := by
  rcases command_next h with ⟨-, rfl⟩ | ⟨-, h⟩ | ⟨-, h⟩ | ⟨b, -, rfl⟩ | ⟨b, -, rfl⟩ | ⟨-, rfl⟩ | ⟨r, rfl, -⟩
  · rfl
  · exact absurd ht (not_pausedWith_of_execute (.inr rfl) h g)
  · exact absurd ht (not_pausedWith_of_execute (.inr rfl) h g)
  · obtain ⟨m, tbl, r, e⟩ := commandSetBreak_frame b s
    rw [e]
  · obtain ⟨m, tbl, r, e⟩ := commandClearBreak_frame b s
    rw [e]
  · rfl
  · rfl

theorem StepCase.ip_of_pausing (h : StepCase s t) (ht : t.pausedWith f) : t.ip = s.ip := by
  cases h with
  | outOfRange h hip => rfl
  | runs h hip he =>
    have hr : s.runState ≠ .stepping := by rcases h with ⟨-, -, hr⟩ | ⟨-, hr, -⟩ <;> simp [hr]
    exact absurd ht (not_pausedWith_of_execute (.inl hr) he f)
  | sentinel h hip hs he => rcases execBrk_cases h.1 he with ⟨w, -, rfl⟩ | ⟨-, rfl⟩ <;> rfl
  | pauses h hr hip hs => rfl
  | reads g c rest hp hc he => exact ip_of_command_pausing (s := { s with cmds := rest }) he ht

/-- Settles O35: only a taken branch sets `ip` otherwise, and of the kinds of step only `Execute` moves it. -/
theorem instructionPointerMoves : Obligations.InstructionPointerMoves := by
  unfold Obligations.InstructionPointerMoves
  refine ⟨fun i s t hb h => ?_, fun s t f h => (step_next h).ip_of_pausing⟩
  exact (exec_ip hb h).imp_right fun ⟨r, x, hr, hx⟩ => ⟨r, t.ip, x, hr, rfl, hx⟩

/-! ### The breakpoint table (R42) -/

/-- No instruction sees the breakpoint table. -/
theorem unseen_withBreaks (tbl : BreakTable) : Unseen (withBreaks tbl) where
  regs _ := rfl
  ip _ := rfl
  mem _ := rfl
  ramLen _ := rfl
  wordBits _ := rfl
  setReg _ _ _ := rfl
  emit _ _ := rfl
  raise _ _ _ := rfl
  advance _ := rfl
  jump _ _ := rfl
  store _ _ := rfl
  halt _ := rfl

/-- Settles O37: a change of the table is one that the operations of the instructions carry through. -/
theorem instructionsIgnoreBreakpointTable : Obligations.InstructionsIgnoreBreakpointTable := by
  unfold Obligations.InstructionsIgnoreBreakpointTable
  exact fun i s tbl hb => (unseen_withBreaks tbl).exec hb s

end Sys2Proof.Machine

/-! SUPPORT. The instruction that a step runs (40_cycle_and_halt.md section 1, 45_breakpoint_debug.md section 4). -/

namespace Sys2Proof.Machine

variable {s : State} {f : Fields} {i : Instr} {a w : Nat}

theorem hasSentinel_iff_decode (hc : s.cfg.codesOk = true) :
    hasSentinel s a = true ↔ decode s.cfg (s.mem.read a) = .ok .brk :=
  (isSentinel_iff hc).trans decode_eq_ok.symm

theorem hasSentinel_eq_false (hc : s.cfg.codesOk = true) (hd : decode s.cfg (s.mem.read a) = .ok i) (hb : i ≠ .brk) :
    hasSentinel s a = false :=
  Bool.eq_false_iff.mpr fun hs => hb (Except.ok.inj (hd.symm.trans ((hasSentinel_iff_decode hc).mp hs)))

/-- The plain build hands the sentinel to `Execute`, which answers as `exec` of it does there (log 13). -/
theorem execute_eq_exec (h : instrOf s.cfg f = some i) (hb : i = .brk → s.cfg.build = .plain) :
    execute f s = exec i s := by
  by_cases hi : i = .brk
  · subst hi
    exact (execute_of_brk h).trans (execBrk_plain (hb rfl)).symm
  · exact execute_of_some h hi

theorem step_of_decode (hc : s.cfg.codesOk = true) (hs : s.plainReady ∨ s.atTop ∧ s.runState = .running)
    (hip : s.ip < s.cfg.ramLen) (hd : decode s.cfg (s.mem.read s.ip) = .ok i) : step s = exec i s := by
  have hi := decode_eq_ok.mp hd
  rcases hs with hp | ⟨ht, hr⟩
  · exact (step_plain_of_lt hp hip).trans (execute_eq_exec hi fun _ => hp.1)
  · by_cases hb : i = .brk
    · subst hb
      exact step_at_sentinel ht hip ((hasSentinel_iff_decode hc).mpr hd)
    · exact (step_runs ht hip (hasSentinel_eq_false hc hd hb) hr).trans (execute_of_some hi hb)

/-- A word of `INSTR_BITS` bits placed is the word that the next step fetches (log 19). -/
theorem withFetchWord_fetches (hwf : s.cfg.wf = true) (hw : w < 2 ^ s.cfg.instrBits) :
    (s.withFetchWord s.cfg.instrBits w).ip < s.cfg.ramLen ∧
      (s.withFetchWord s.cfg.instrBits w).mem.read (s.withFetchWord s.cfg.instrBits w).ip = w := by
  obtain ⟨-, hbits, hram, -⟩ := Config.bounds_of_wf hwf
  have hword : w < 2 ^ s.cfg.wordBits := hw.trans_le (Nat.pow_le_pow_right (by decide) hbits)
  refine ⟨?_, ?_⟩
  · simp only [State.withFetchWord]
    split
    · assumption
    · exact hram
  · simp [State.withFetchWord, Nat.mod_eq_of_lt hw, Nat.mod_eq_of_lt hword]

theorem withFetchWord_ready (s : State) (n w : Nat) : (s.withFetchWord n w).plainReady ∨
    (s.withFetchWord n w).atTop ∧ (s.withFetchWord n w).runState = .running := by
  cases hb : s.cfg.build with
  | plain => exact .inl ⟨hb, rfl, rfl⟩
  | debugger => exact .inr ⟨⟨hb, rfl, .inl rfl⟩, rfl⟩

/-- Settles O8: dispatch on the decoded triple is `exec` of the instruction decoded, and the presence test is that of
decoding to `brk`. -/
theorem stepRunsDecodedInstruction : Obligations.StepRunsDecodedInstruction := by
  unfold Obligations.StepRunsDecodedInstruction
  refine ⟨fun s i hwf => step_of_decode (Config.codesOk_of_wf hwf), fun s i hwf ht hr hip hd hb => ?_,
    fun s hwf ht hip hd => ?_, fun s f i rest hp hi hb => ⟨fun hc => ?_, fun hc => ?_⟩, fun s w i hwf hw hd => ?_⟩
  · exact step_pauses ht hip (hasSentinel_eq_false (Config.codesOk_of_wf hwf) hd hb) hr
  · exact step_at_sentinel ht hip ((hasSentinel_iff_decode (Config.codesOk_of_wf hwf)).mpr hd)
  · exact (step_step hp hc).trans (execute_of_some hi hb)
  · exact (step_run hp hc).trans (execute_of_some hi hb)
  · obtain ⟨hip, hread⟩ := withFetchWord_fetches hwf hw
    exact step_of_decode (Config.codesOk_of_wf hwf) (withFetchWord_ready s _ w) hip (hread.symm ▸ hd)

/-- Settles O7: each word is a literal of the reference configuration, so its decoding is evaluated. -/
theorem specWordsDecode : Obligations.SpecWordsDecode := by
  unfold Obligations.SpecWordsDecode
  exact ⟨by decide, by decide, by decide⟩

end Sys2Proof.Machine
